-- ==== Sys2Proof/Word.lean ====
section
/-! DEFINITION. The words of the two blocks and the named sets of R17: bytes, bus addresses, the 40-bit bus-cycle
word, and the enumerations of protocol states, modes, directions and variants. -/

namespace Sys2Proof

/-- A byte, `[7:0]` (R8). -/
abbrev Byte := BitVec 8

/-- The FL address input: `FL_ADDR_W` = 32 bits, device-relative (R79, R153, D18). -/
abbrev Addr := BitVec 32

/-- The bus-cycle word `w = A ++ D` of one FL.Write (R79). -/
abbrev BusWord := BitVec 40

/-- The EE device-byte modes (R17, R23): NEEDS, NONE and DETECT. -/
inductive DevMode where
  | needsDeviceByte
  | noDeviceByte
  | detectNoDeviceByte
deriving DecidableEq, Repr

/-- The EE protocol states (R17, R26). -/
inductive EeState where
  | standby
  | control
  | address
  | data
deriving DecidableEq, Repr

/-- The transfer directions (R17, R27). -/
inductive Dir where
  | write
  | read
deriving DecidableEq, Repr

/-- The FL variants (R17, R40, R97). -/
inductive Variant where
  | v128K
  | v256K
  | v512K
deriving DecidableEq, Repr

/-- The FL cycle states (R17, R18, R44): `c0` to `c4` count matched unlock steps, `prog` is ProgramPending and
`erase` is EraseReady. -/
inductive FlCycle where
  | c0
  | c1
  | c2
  | c3
  | c4
  | prog
  | erase
deriving DecidableEq, Repr

/-- The two blocks (R1). -/
inductive Block where
  | ee
  | fl
deriving DecidableEq, Repr

end Sys2Proof
end

