-- ==== Sys2Proof/Config.lean ====
section
/-! DEFINITION. The parameters of R7 as plain data (a State holds one `Config`, which no step writes), the values
this spec uses for them, and the free values of the model as opaque constants with no body. -/

namespace Sys2Proof

/-- The parameters the source leaves open (R7): "The model takes each as an argument or uses the value this spec
chose". -/
structure Config where
  /-- `SELECT7`, the 7-bit EE select pattern (R75). -/
  select7 : BitVec 7
  /-- `RW_READ`, the value of control-byte bit 0 that means read (R75). -/
  rwRead : Bool
  /-- `NODEV_DIR` as a table: bit b is 1 where address byte b starts a READ. Bit 0 is never consulted (R139). -/
  nodevTable : BitVec 256
  /-- `CMD_PROGRAM` (R81). -/
  cmdProgram : Byte
  /-- `CMD_ID_ENTRY` (R81). -/
  cmdIdEntry : Byte
  /-- `CMD_ID_EXIT` (R81). -/
  cmdIdExit : Byte
  /-- `MFR_ID` (R42). -/
  mfrId : Byte
  /-- `DEV_ID(V128K)` (R42). -/
  devId128 : Byte
  /-- `DEV_ID(V256K)` (R42). -/
  devId256 : Byte
  /-- `DEV_ID(V512K)` (R42). -/
  devId512 : Byte
  /-- `CMD_ADDR_MASK`, the address bits the command matcher compares (R80). -/
  cmdAddrMask : Addr
  /-- `EE_MAX_SIZE`, `none` where the model does not bound the EE capacity (R99, D42). -/
  eeMaxSize : Option Nat
deriving DecidableEq, Repr

/-- The codes of R81: "The three parameters must differ from each other, from 0x80 and from 0xAA." -/
abbrev Config.wf (c : Config) : Prop :=
  c.cmdProgram ≠ c.cmdIdEntry ∧ c.cmdProgram ≠ c.cmdIdExit ∧ c.cmdIdEntry ≠ c.cmdIdExit ∧
  c.cmdProgram ≠ 0x80 ∧ c.cmdIdEntry ≠ 0x80 ∧ c.cmdIdExit ≠ 0x80 ∧
  c.cmdProgram ≠ 0xAA ∧ c.cmdIdEntry ≠ 0xAA ∧ c.cmdIdExit ≠ 0xAA

/-- `NODEV_DIR` is OPEN (R7, R139): a free table, no value of which Lean can evaluate (log 8). -/
opaque Config.freeNodevTable : BitVec 256

/-- `draw(EE_RESET_LINES)` (R28, R99): the n-th value drawn (log 9). -/
opaque Config.eeResetLine : Nat → Bool

/-- `draw(EE_PBUF_RESET)` (R32, R99): the n-th value drawn (log 9). -/
opaque Config.eePbufReset : Nat → Byte

/-- `draw(ID_OTHER)` (R156, R157): the n-th value drawn (log 10). -/
opaque Config.idOther : Nat → Byte

/-- The values this spec uses (R7). PRESUMED: SELECT7, RW_READ, the command codes and the identifiers are general
knowledge, not in the source (log 6). DESIGN CHOICE: CMD_ADDR_MASK is the spec's exact compare and EE_MAX_SIZE is
left unbounded (log 7). -/
def Config.spec : Config where
  select7 := 0b1010000#7
  rwRead := true
  nodevTable := Config.freeNodevTable
  cmdProgram := 0xA0
  cmdIdEntry := 0x90
  cmdIdExit := 0xF0
  mfrId := 0xBF
  devId128 := 0xB5
  devId256 := 0xB6
  devId512 := 0xB7
  cmdAddrMask := 0xFFFFFFFF
  eeMaxSize := none

/-- What a byte of a buffer that the model lists no value for reads as. DESIGN CHOICE: 0xFF, the erased value of
R6; a buffer's contents are the caller's and any contents can be listed (log 13). -/
def Config.unlistedByte : Byte := 0xFF

end Sys2Proof
end

