-- ==== Sys2Proof/Machine/Operands.lean ====
section
/-! DEFINITION. Operand forms (30_encoding.md section 4): windowed address arithmetic, the fields of the EE bytes and
of the detector index, the fields of the FL bus cycle, and the parameters applied to operands. -/

namespace Sys2Proof

/-- `a & ~m`, `~m` taken at a width at least as wide as a (R10): a with every bit of m cleared. -/
def clearBits (a m : Nat) : Nat := a - (a &&& m)

/-- `wrapInc(a, m) = (a & ~m) | ((a + 1) & m)` (R10). -/
def wrapInc (a m : Nat) : Nat := clearBits a m ||| ((a + 1) &&& m)

/-- `size == 2^k for some k >= 1` (R99). -/
def isSize (size : Nat) : Bool := decide (2 ≤ size) && decide (2 ^ Nat.log2 size = size)

/-- The page sizes of R22: {2, 4, 8, 16}. -/
def isPageSize (p : Nat) : Bool := p == 2 || p == 4 || p == 8 || p == 16

/-- The detector index `K = prevScl ++ prevSda ++ scl ++ sda` (R73). -/
def detectorIndex (prevScl prevSda scl sda : Bool) : BitVec 4 :=
  BitVec.ofBool prevScl ++ BitVec.ofBool prevSda ++ BitVec.ofBool scl ++ BitVec.ofBool sda

/-- `B[7:1]` of a control byte (R75). -/
def selOf (b : Byte) : BitVec 7 := b.extractLsb' 1 7

/-- `B[0]` of a control byte (R75). -/
def rwOf (b : Byte) : Bool := b.getLsbD 0

/-- The control byte with select field sel and direction bit rw (R75). -/
def controlByte (sel : BitVec 7) (rw : Bool) : Byte := sel ++ BitVec.ofBool rw

/-- `READ if B[0] == RW_READ else WRITE` (R135). -/
def rwDir (c : Config) (rw : Bool) : Dir := if rw = c.rwRead then .read else .write

/-- `NODEV_DIR(B)`, with `NODEV_DIR(0x00) = WRITE` (R139). -/
def nodevDir (c : Config) (b : Byte) : Dir :=
  if b = 0 then .write else if c.nodevTable.getLsbD b.toNat then .read else .write

/-- `shreg <- ((shreg << 1) | bit) & 0xFF` (R83, R129). -/
def shiftInBit (shreg : Byte) (bit : Bool) : Byte := (shreg <<< 1) ||| (BitVec.ofBool bit).setWidth 8

/-- The address operand `B & addrMask` (R83, R138). -/
def addressOf (b : Byte) (addrMask : Nat) : Nat := b.toNat &&& addrMask

/-- `w[39:8] = A` (R79). -/
def busAddr (w : BusWord) : Addr := w.extractLsb' 8 32

/-- `w[7:0] = D` (R79). -/
def busData (w : BusWord) : Byte := w.extractLsb' 0 8

/-- `w = A ++ D` (R79). -/
def busWord (a : Addr) (d : Byte) : BusWord := a ++ d

/-- `CmdAddr(A, K) := (A & CMD_ADDR_MASK) == (K & CMD_ADDR_MASK)` (R80). -/
def cmdAddr (c : Config) (a k : Addr) : Bool := (a &&& c.cmdAddrMask) == (k &&& c.cmdAddrMask)

/-- `CmdAddr(A, 0x5555)`. -/
def at5555 (c : Config) (a : Addr) : Bool := cmdAddr c a 0x5555

/-- `CmdAddr(A, 0x2AAA)`. -/
def at2AAA (c : Config) (a : Addr) : Bool := cmdAddr c a 0x2AAA

/-- `FL.unlock[1..5]` (R43): constant, not writable, the same for every variant. Index n is step n + 1. -/
def flUnlock : Vector (Addr × Byte) 5 :=
  #v[(0x5555, 0xAA), (0x2AAA, 0x55), (0x5555, 0x80), (0x5555, 0xAA), (0x2AAA, 0x55)]

/-- The cycle (A, D) is step n + 1 of the unlock prefix (R43, R163 to R173). -/
def isUnlock (c : Config) (n : Fin 5) (a : Addr) (d : Byte) : Bool :=
  cmdAddr c a flUnlock[n].1 && d == flUnlock[n].2

/-- The cycle (A, D) carries the command code k at 0x5555 (R81). -/
def isCommand (c : Config) (k : Byte) (a : Addr) (d : Byte) : Bool := at5555 c a && d == k

/-- The sector count of a variant (R97). -/
def sectors : Variant → Nat
  | .v128K => 32
  | .v256K => 64
  | .v512K => 128

/-- `capacity = 4096 * sectors` (R40). -/
def variantCapacity (v : Variant) : Nat := 4096 * sectors v

/-- `DEV_ID(variant)` (R7, R42). -/
def devIdOf (c : Config) : Variant → Byte
  | .v128K => c.devId128
  | .v256K => c.devId256
  | .v512K => c.devId512

/-- The memory target `T = A & FL.addrMask` (R60, R84). -/
def flTarget (a mask : Addr) : Nat := (a &&& mask).toNat

/-- The sector base `T & ~0xFFF` (R61, R84). -/
def sectorBase (t : Nat) : Nat := clearBits t 0xFFF

/-- The sector number `T >> 12` (R61). -/
def sectorOf (t : Nat) : Nat := t >>> 12

end Sys2Proof
end

