-- ==== Sys2Proof/Syntax.lean ====
section
/-! DEFINITION. The instruction set: one constructor of `Instr` per row of spec/opcode_table.json, at the three
levels of 30_encoding.md; and `Code`, an encoded input: the field a row's match and mask are over, with the state
fields that qualify it (R98). -/

namespace Sys2Proof

/-- One constructor per row of spec/opcode_table.json, in the table's order. -/
inductive Instr where
  /-- ECFG: EE.Configure(buf, size, pageSize, mode) (R99). `none` is a mode outside {NEEDS, NONE, DETECT}, md = 3 of
  R71. `buf` is the caller's offered buffer, or the one bound (log 14). -/
  | ecfg (size pageSize : Nat) (mode : Option DevMode)
  /-- S: EE.Write(we, sda, scl) (R101). -/
  | sample (we sda scl : Bool)
  /-- ERD: EE.Read() (R106). -/
  | erd
  /-- ENEW: EE.IsNewDataWritten() (R107). -/
  | enew
  /-- ESIZE: EE.GetSize() (R108). -/
  | esize
  /-- FCFG: FL.Configure(buf, variant) (R149). `none` is v = 3 of R71. -/
  | fcfg (variant : Option Variant)
  /-- W: FL.Write(A, D) (R151). -/
  | busWrite (a : Addr) (d : Byte)
  /-- R: FL.Read(A) (R155, R156). -/
  | busRead (a : Addr)
  /-- FNEW: FL.IsNewDataWritten() (R158). -/
  | fnew
  /-- FSIZE: FL.GetSize() (R159). -/
  | fsize
  /-- EE.START: detector index 14 (R73, R113). -/
  | eeStart
  /-- EE.STOP: detector index 11 (R73, R114). -/
  | eeStop
  /-- EE.RISE: detector index `0 prevSda 1 sda` (R73, R127). -/
  | eeRise (prevSda sda : Bool)
  /-- EE.HIGH_HOLD_LOW: detector index 10 (R73, R112). -/
  | eeHighHoldLow
  /-- EE.HIGH_HOLD_HIGH: detector index 15 (R73, R112). -/
  | eeHighHoldHigh
  /-- EE.LOW: detector index `prevScl prevSda 0 sda` (R73, R112). -/
  | eeLow (prevScl prevSda sda : Bool)
  /-- EE.SHIFT_IN: a write-direction slot 1..8 (R129). -/
  | eeShiftIn (sda : Bool)
  /-- EE.SHIFT_OUT: a read-direction slot 1..8 (R131). -/
  | eeShiftOut
  /-- EE.WACK_SLOT: a write-direction slot 9 (R130). -/
  | eeWackSlot
  /-- EE.RACK_SLOT: a read-direction slot 9 (R133). -/
  | eeRackSlot (sda : Bool)
  /-- EE.CTRL_MATCH: a control byte with `sel == SELECT7` and this `rw` bit (R75, R135). -/
  | eeCtrlMatch (rw : Bool)
  /-- EE.CTRL_MISMATCH: any other control byte in NEEDS mode (R136). -/
  | eeCtrlMismatch (b : Byte)
  /-- EE.DETECT: any other control byte in DETECT mode (R137). -/
  | eeDetect (b : Byte)
  /-- EE.ADDRESS: an address byte (R138). -/
  | eeAddress (b : Byte)
  /-- EE.QUIRK_ABORT: the third data byte of a 2-byte page (R141). -/
  | eeQuirkAbort (b : Byte)
  /-- EE.DATA_WRITE: any other data byte (R140). -/
  | eeDataWrite (b : Byte)
  /-- FL.ID_EXIT1: row 1 of R161 (R162). -/
  | flIdExit1 (a : Addr)
  /-- FL.UNLOCK1: row 2 (R163). -/
  | flUnlock1 (a : Addr)
  /-- FL.C0_OTHER: row 3 (R164). -/
  | flC0Other (a : Addr) (d : Byte)
  /-- FL.UNLOCK2: row 4 (R165). -/
  | flUnlock2 (a : Addr)
  /-- FL.C1_ABORT: row 5 (R166). -/
  | flC1Abort (a : Addr) (d : Byte)
  /-- FL.ERASE_SETUP: row 6 (R167). -/
  | flEraseSetup (a : Addr)
  /-- FL.PROGRAM_SETUP: row 7 (R168). -/
  | flProgramSetup (a : Addr)
  /-- FL.ID_ENTRY: row 8 (R169). -/
  | flIdEntry (a : Addr)
  /-- FL.ID_EXIT3: row 9 (R170). -/
  | flIdExit3 (a : Addr)
  /-- FL.C2_ABORT: row 10 (R171). -/
  | flC2Abort (a : Addr) (d : Byte)
  /-- FL.UNLOCK4: row 11 (R172). -/
  | flUnlock4 (a : Addr)
  /-- FL.UNLOCK5: row 12 (R173). -/
  | flUnlock5 (a : Addr)
  /-- FL.C3C4_ABORT: row 13 (R174). -/
  | flC3C4Abort (a : Addr) (d : Byte)
  /-- FL.SECTOR_ERASE: row 14 (R175). -/
  | flSectorErase (a : Addr)
  /-- FL.CHIP_ERASE: row 15 (R176). -/
  | flChipErase (a : Addr)
  /-- FL.ERASE_ABORT: row 16 (R177). -/
  | flEraseAbort (a : Addr) (d : Byte)
  /-- FL.BYTE_PROGRAM: row 17 (R178). -/
  | flByteProgram (a : Addr) (d : Byte)
  /-- FL.READ_ARRAY: FL.Read outside ID mode (R155). -/
  | flReadArray (a : Addr)
  /-- FL.READ_MFR_ID: FL.Read of address 0 in ID mode (R156). -/
  | flReadMfrId
  /-- FL.READ_DEV_ID: FL.Read of address 1 in ID mode (R156). -/
  | flReadDevId
  /-- FL.READ_ID_OTHER: FL.Read of any other address in ID mode (R156, R157). -/
  | flReadIdOther (a : Addr)
deriving DecidableEq, Repr

/-- An encoded input of one of the levels of 30_encoding.md: the bits a row is decoded from and the state fields
that qualify the row (R85, R86, R98). -/
inductive Code where
  /-- A host transaction word of R71, as bytes (log 2). -/
  | host (bytes : List Byte)
  /-- The detector index K (R73). -/
  | detector (k : BitVec 4)
  /-- A rising-clock slot, decoded by (EE.st, EE.dir, EE.bitCnt) (R85). -/
  | slot (st : EeState) (dir : Dir) (bitCnt : Nat) (sda : Bool)
  /-- A finalised byte, decoded by EE.st, EE.devMode, EE.pageSize and EE.pcnt (R85, R134). -/
  | frameByte (st : EeState) (mode : DevMode) (pageSize pcnt : Nat) (b : Byte)
  /-- A bus cycle, decoded by (FL.cyc, FL.idMode, w) (R86). -/
  | cycle (cyc : FlCycle) (idMode : Bool) (w : BusWord)
  /-- An FL.Read address, decoded by FL.idMode (R86). -/
  | read (idMode : Bool) (a : Addr)
deriving DecidableEq, Repr

/-- Why an encoded input names no row. -/
inductive DecodeError where
  /-- No operation has this selector: 0x5 to 0x7 and 0xD to 0xF (R71), or a selector byte above 0x0F. -/
  | unknownSelector (b : Byte)
  /-- The word ends before its operands do. -/
  | truncated
  /-- Bytes follow the operands. -/
  | trailingBytes
  /-- A bit outside the operand fields of R71 is set. -/
  | reservedBits
  /-- In STANDBY no slot is taken (R116, R128). -/
  | slotInStandby
  /-- A frame has nine slots: EE.bitCnt is at most 8 (R30, R123). -/
  | slotPastNine
  /-- In STANDBY no byte is finalised (R134). -/
  | byteInStandby
deriving DecidableEq, Repr

end Sys2Proof
end

