-- ==== Sys2Proof/WellFormed.lean ====
section
/-! DEFINITION. Well-formed instructions: those whose operands the row's encoding can hold and whose word its own
row decodes (R71, R85, R98, R161). A Configure with other operands is still an operation: it violates the contract
and raises its model fault (R96), but has no word of R71. -/

namespace Sys2Proof

/-- ECFG: R71 encodes `k[5:0] = log2(size)` and four page sizes. -/
def wfEcfg (size pageSize : Nat) : Bool :=
  decide (2 ^ Nat.log2 size = size) && decide (Nat.log2 size < 64) && isPageSize pageSize

/-- The rows of R134 for a control byte that does not match SELECT7. -/
def wfMismatch (c : Config) (b : Byte) : Bool := selOf b != c.select7

/-- The cycle is a command of C2, rows 6 to 9 of R161, so no abort (R171). -/
def isC2Command (c : Config) (a : Addr) (d : Byte) : Bool :=
  isUnlock c 2 a d || isCommand c c.cmdProgram a d || isCommand c c.cmdIdEntry a d || isCommand c c.cmdIdExit a d

/-- The check, constructor by constructor. -/
def wellFormed (c : Config) : Instr → Bool
  | .ecfg size pageSize _ => wfEcfg size pageSize
  | .sample _ _ _ => true
  | .erd => true
  | .enew => true
  | .esize => true
  | .fcfg _ => true
  | .busWrite _ _ => true
  | .busRead _ => true
  | .fnew => true
  | .fsize => true
  | .eeStart => true
  | .eeStop => true
  | .eeRise _ _ => true
  | .eeHighHoldLow => true
  | .eeHighHoldHigh => true
  | .eeLow _ _ _ => true
  | .eeShiftIn _ => true
  | .eeShiftOut => true
  | .eeWackSlot => true
  | .eeRackSlot _ => true
  | .eeCtrlMatch _ => true
  | .eeCtrlMismatch b => wfMismatch c b
  | .eeDetect b => wfMismatch c b
  | .eeAddress _ => true
  | .eeQuirkAbort _ => true
  | .eeDataWrite _ => true
  | .flIdExit1 _ => true
  | .flUnlock1 a => at5555 c a
  | .flC0Other a d => !isUnlock c 0 a d
  | .flUnlock2 a => at2AAA c a
  | .flC1Abort a d => !isUnlock c 1 a d
  | .flEraseSetup a => at5555 c a
  | .flProgramSetup a => at5555 c a
  | .flIdEntry a => at5555 c a
  | .flIdExit3 a => at5555 c a
  | .flC2Abort a d => !isC2Command c a d
  | .flUnlock4 a => at5555 c a
  | .flUnlock5 a => at2AAA c a
  | .flC3C4Abort _ _ => true
  | .flSectorErase _ => true
  | .flChipErase a => at5555 c a
  | .flEraseAbort a d => d != 0x30 && !isCommand c 0x10 a d
  | .flByteProgram _ _ => true
  | .flReadArray _ => true
  | .flReadMfrId => true
  | .flReadDevId => true
  | .flReadIdOther a => a != 0 && a != 1

end Sys2Proof
end

