-- ==== Sys2Proof/Decode.lean ====
section
/-! DEFINITION. Decoding of the three levels of 30_encoding.md, total, rejecting by name; the encoder; and the two
readings of a bare opcode-table word. -/

namespace Sys2Proof

/-! ## Host transactions (R71) -/

/-- The page size of `pg[1:0]`: 0→2, 1→4, 2→8, 3→16 (R71). -/
def pageOfCode (pg : BitVec 2) : Nat := 2 ^ (pg.toNat + 1)

/-- `pg[1:0]` of a page size (R71). -/
def codeOfPage (p : Nat) : BitVec 2 := BitVec.ofNat 2 (Nat.log2 p - 1)

/-- `md[1:0]`: 0 NONE, 1 NEEDS, 2 DETECT, 3 invalid (R71). -/
def modeOfCode (md : BitVec 2) : Option DevMode :=
  if md = 0 then some .noDeviceByte
  else if md = 1 then some .needsDeviceByte
  else if md = 2 then some .detectNoDeviceByte
  else none

/-- `md[1:0]` of a mode (R71). -/
def codeOfMode : Option DevMode → BitVec 2
  | some .noDeviceByte => 0
  | some .needsDeviceByte => 1
  | some .detectNoDeviceByte => 2
  | none => 3

/-- `v[1:0]`: 0 V128K, 1 V256K, 2 V512K, 3 invalid (R71). -/
def variantOfCode (v : BitVec 2) : Option Variant :=
  if v = 0 then some .v128K
  else if v = 1 then some .v256K
  else if v = 2 then some .v512K
  else none

/-- `v[1:0]` of a variant (R71). -/
def codeOfVariant : Option Variant → BitVec 2
  | some .v128K => 0
  | some .v256K => 1
  | some .v512K => 2
  | none => 3

/-- A 32-bit operand from its bytes, least significant first (log 2). -/
def addrOfBytes (b0 b1 b2 b3 : Byte) : Addr := b3 ++ b2 ++ b1 ++ b0

/-- Byte n of a 32-bit operand, n = 0 the least significant (log 2). -/
def addrByte (a : Addr) (n : Nat) : Byte := a.extractLsb' (8 * n) 8

/-- An operand that must end the word. -/
def endOf (rest : List Byte) (i : Instr) : Except DecodeError Instr :=
  match rest with
  | [] => .ok i
  | _ :: _ => .error .trailingBytes

/-- ECFG: byte 1 holds `k[5:0]`, byte 2 holds `pg` in bits 1:0 and `md` in bits 3:2 (log 2). -/
def decodeEcfg (rest : List Byte) : Except DecodeError Instr :=
  match rest with
  | k :: m :: rest =>
    if k.toNat < 64 && m.toNat < 16 then
      endOf rest (.ecfg (2 ^ k.toNat) (pageOfCode (m.extractLsb' 0 2)) (modeOfCode (m.extractLsb' 2 2)))
    else .error .reservedBits
  | _ => .error .truncated

/-- S: byte 1 holds the sample word `s[2:0] = we, sda, scl` (R72). -/
def decodeSample (rest : List Byte) : Except DecodeError Instr :=
  match rest with
  | b :: rest =>
    if b.toNat < 8 then endOf rest (.sample (b.getLsbD 2) (b.getLsbD 1) (b.getLsbD 0))
    else .error .reservedBits
  | [] => .error .truncated

/-- FCFG: byte 1 holds `v[1:0]`. -/
def decodeFcfg (rest : List Byte) : Except DecodeError Instr :=
  match rest with
  | b :: rest =>
    if b.toNat < 4 then endOf rest (.fcfg (variantOfCode (b.extractLsb' 0 2)))
    else .error .reservedBits
  | [] => .error .truncated

/-- W: byte 1 holds D, bytes 2 to 5 hold A, least significant byte first: the bits of `w[39:0]` in order. -/
def decodeBusWrite (rest : List Byte) : Except DecodeError Instr :=
  match rest with
  | d :: b0 :: b1 :: b2 :: b3 :: rest => endOf rest (.busWrite (addrOfBytes b0 b1 b2 b3) d)
  | _ => .error .truncated

/-- R: bytes 1 to 4 hold `a[31:0]`, least significant byte first. -/
def decodeBusRead (rest : List Byte) : Except DecodeError Instr :=
  match rest with
  | b0 :: b1 :: b2 :: b3 :: rest => endOf rest (.busRead (addrOfBytes b0 b1 b2 b3))
  | _ => .error .truncated

/-- A host transaction word: the selector in byte 0, then the operand bytes (R71; the packing is log 2). -/
def decodeHost (bytes : List Byte) : Except DecodeError Instr :=
  match bytes with
  | [] => .error .truncated
  | sel :: rest =>
    if sel = 0x0 then decodeEcfg rest
    else if sel = 0x1 then decodeSample rest
    else if sel = 0x2 then endOf rest .erd
    else if sel = 0x3 then endOf rest .enew
    else if sel = 0x4 then endOf rest .esize
    else if sel = 0x8 then decodeFcfg rest
    else if sel = 0x9 then decodeBusWrite rest
    else if sel = 0xA then decodeBusRead rest
    else if sel = 0xB then endOf rest .fnew
    else if sel = 0xC then endOf rest .fsize
    else .error (.unknownSelector sel)

/-! ## EE: detector, slots and bytes (R73, R85) -/

/-- The class of a detector index: the six rows of R73 partition the sixteen values of K. -/
def decodeDetector (k : BitVec 4) : Instr :=
  if k = 0b1110 then .eeStart
  else if k = 0b1011 then .eeStop
  else if k = 0b1010 then .eeHighHoldLow
  else if k = 0b1111 then .eeHighHoldHigh
  else if k.getLsbD 1 then .eeRise (k.getLsbD 2) (k.getLsbD 0)
  else .eeLow (k.getLsbD 3) (k.getLsbD 2) (k.getLsbD 0)

/-- R85 point 2: a RISE sample outside STANDBY. -/
def decodeSlot (st : EeState) (dir : Dir) (bitCnt : Nat) (sda : Bool) : Except DecodeError Instr :=
  if st = .standby then .error .slotInStandby
  else if 8 < bitCnt then .error .slotPastNine
  else if st = .data ∧ dir = .read then
    if bitCnt < 8 then .ok .eeShiftOut else .ok (.eeRackSlot sda)
  else if bitCnt < 8 then .ok (.eeShiftIn sda) else .ok .eeWackSlot

/-- R85 point 3 and R134: a finalised byte. -/
def decodeByte (c : Config) (st : EeState) (mode : DevMode) (pageSize pcnt : Nat) (b : Byte) :
    Except DecodeError Instr :=
  match st with
  | .standby => .error .byteInStandby
  | .control =>
    if selOf b = c.select7 then .ok (.eeCtrlMatch (rwOf b))
    else if mode = .detectNoDeviceByte then .ok (.eeDetect b)
    else .ok (.eeCtrlMismatch b)
  | .address => .ok (.eeAddress b)
  | .data => if pageSize = 2 ∧ pcnt = 2 then .ok (.eeQuirkAbort b) else .ok (.eeDataWrite b)

/-! ## FL: bus cycles and reads (R86, R161) -/

/-- R161: the first row whose state and condition hold. -/
def decodeCycle (c : Config) (cyc : FlCycle) (idMode : Bool) (a : Addr) (d : Byte) : Instr :=
  match cyc with
  | .c0 =>
    if idMode && d == c.cmdIdExit then .flIdExit1 a
    else if isUnlock c 0 a d then .flUnlock1 a
    else .flC0Other a d
  | .c1 => if isUnlock c 1 a d then .flUnlock2 a else .flC1Abort a d
  | .c2 =>
    if isUnlock c 2 a d then .flEraseSetup a
    else if isCommand c c.cmdProgram a d then .flProgramSetup a
    else if isCommand c c.cmdIdEntry a d then .flIdEntry a
    else if isCommand c c.cmdIdExit a d then .flIdExit3 a
    else .flC2Abort a d
  | .c3 => if isUnlock c 3 a d then .flUnlock4 a else .flC3C4Abort a d
  | .c4 => if isUnlock c 4 a d then .flUnlock5 a else .flC3C4Abort a d
  | .erase =>
    if d == 0x30 then .flSectorErase a
    else if isCommand c 0x10 a d then .flChipErase a
    else .flEraseAbort a d
  | .prog => .flByteProgram a d

/-- R155 and R156: the ID addresses are compared unmasked. -/
def decodeRead (idMode : Bool) (a : Addr) : Instr :=
  if idMode then
    if a = 0 then .flReadMfrId
    else if a = 1 then .flReadDevId
    else .flReadIdOther a
  else .flReadArray a

/-- Decoding at every level. -/
def decode (c : Config) : Code → Except DecodeError Instr
  | .host bytes => decodeHost bytes
  | .detector k => .ok (decodeDetector k)
  | .slot st dir bitCnt sda => decodeSlot st dir bitCnt sda
  | .frameByte st mode pageSize pcnt b => decodeByte c st mode pageSize pcnt b
  | .cycle cyc idMode w => .ok (decodeCycle c cyc idMode (busAddr w) (busData w))
  | .read idMode a => .ok (decodeRead idMode a)

/-! ## The encoder -/

/-- The sample word `4*we + 2*sda + scl` (R72) in a byte. -/
def sampleByte (we sda scl : Bool) : Byte :=
  (BitVec.ofBool we ++ BitVec.ofBool sda ++ BitVec.ofBool scl).setWidth 8

/-- The word of each row, with the qualifiers its row of the table names. Where the qualifiers leave a choice the
encoder takes one: EE.SHIFT_IN in CONTROL at slot 1, FL.C3C4_ABORT at C3 unless the cycle is step 4. -/
def encode (c : Config) : Instr → Code
  | .ecfg size pageSize mode =>
    .host [0x0, BitVec.ofNat 8 (Nat.log2 size), (codeOfMode mode ++ codeOfPage pageSize).setWidth 8]
  | .sample we sda scl => .host [0x1, sampleByte we sda scl]
  | .erd => .host [0x2]
  | .enew => .host [0x3]
  | .esize => .host [0x4]
  | .fcfg v => .host [0x8, (codeOfVariant v).setWidth 8]
  | .busWrite a d => .host [0x9, d, addrByte a 0, addrByte a 1, addrByte a 2, addrByte a 3]
  | .busRead a => .host [0xA, addrByte a 0, addrByte a 1, addrByte a 2, addrByte a 3]
  | .fnew => .host [0xB]
  | .fsize => .host [0xC]
  | .eeStart => .detector 0b1110
  | .eeStop => .detector 0b1011
  | .eeRise prevSda sda => .detector (detectorIndex false prevSda true sda)
  | .eeHighHoldLow => .detector 0b1010
  | .eeHighHoldHigh => .detector 0b1111
  | .eeLow prevScl prevSda sda => .detector (detectorIndex prevScl prevSda false sda)
  | .eeShiftIn sda => .slot .control .write 0 sda
  | .eeShiftOut => .slot .data .read 0 true
  | .eeWackSlot => .slot .control .write 8 true
  | .eeRackSlot sda => .slot .data .read 8 sda
  | .eeCtrlMatch rw => .frameByte .control .needsDeviceByte 4 0 (controlByte c.select7 rw)
  | .eeCtrlMismatch b => .frameByte .control .needsDeviceByte 4 0 b
  | .eeDetect b => .frameByte .control .detectNoDeviceByte 4 0 b
  | .eeAddress b => .frameByte .address .needsDeviceByte 4 0 b
  | .eeQuirkAbort b => .frameByte .data .needsDeviceByte 2 2 b
  | .eeDataWrite b => .frameByte .data .needsDeviceByte 4 0 b
  | .flIdExit1 a => .cycle .c0 true (busWord a c.cmdIdExit)
  | .flUnlock1 a => .cycle .c0 false (busWord a 0xAA)
  | .flC0Other a d => .cycle .c0 false (busWord a d)
  | .flUnlock2 a => .cycle .c1 false (busWord a 0x55)
  | .flC1Abort a d => .cycle .c1 false (busWord a d)
  | .flEraseSetup a => .cycle .c2 false (busWord a 0x80)
  | .flProgramSetup a => .cycle .c2 false (busWord a c.cmdProgram)
  | .flIdEntry a => .cycle .c2 false (busWord a c.cmdIdEntry)
  | .flIdExit3 a => .cycle .c2 false (busWord a c.cmdIdExit)
  | .flC2Abort a d => .cycle .c2 false (busWord a d)
  | .flUnlock4 a => .cycle .c3 false (busWord a 0xAA)
  | .flUnlock5 a => .cycle .c4 false (busWord a 0x55)
  | .flC3C4Abort a d => .cycle (if isUnlock c 3 a d then .c4 else .c3) false (busWord a d)
  | .flSectorErase a => .cycle .erase false (busWord a 0x30)
  | .flChipErase a => .cycle .erase false (busWord a 0x10)
  | .flEraseAbort a d => .cycle .erase false (busWord a d)
  | .flByteProgram a d => .cycle .prog false (busWord a d)
  | .flReadArray a => .read false a
  | .flReadMfrId => .read true 0
  | .flReadDevId => .read true 1
  | .flReadIdOther a => .read true a

/-! ## A bare word of the opcode table (log 4) -/

/-- How many bytes the host transaction with this selector byte has (R71, log 2). -/
def hostLength (sel : Byte) : Option Nat :=
  if sel = 0x0 then some 3
  else if sel = 0x1 ∨ sel = 0x8 then some 2
  else if sel = 0x2 ∨ sel = 0x3 ∨ sel = 0x4 ∨ sel = 0xB ∨ sel = 0xC then some 1
  else if sel = 0x9 then some 6
  else if sel = 0xA then some 5
  else none

/-- The first n bytes of w, least significant first. -/
def bytesOf : Nat → Nat → List Byte
  | 0, _ => []
  | n + 1, w => BitVec.ofNat 8 w :: bytesOf n (w / 256)

/-- The qualifiers a bare 40-bit bus word is read under: those of the most specific row of R161 that matches it. -/
def cycleCodeOf (c : Config) (w : BusWord) : Code :=
  let a := busAddr w
  let d := busData w
  if isUnlock c 0 a d then .cycle .c0 false w
  else if isUnlock c 1 a d then .cycle .c1 false w
  else if isC2Command c a d then .cycle .c2 false w
  else if isCommand c 0x10 a d then .cycle .erase false w
  else if d = c.cmdIdExit then .cycle .c0 true w
  else if d = 0x30 then .cycle .erase false w
  else .cycle .c0 false w

/-- The level and the qualifiers a bare table word is read under: 40 bits a bus cycle, 32 bits a read address,
otherwise a host transaction where the first byte is a selector; a byte below 16 that is no selector is a detector
index, and any other byte a byte finalised in CONTROL. -/
def tableCode (c : Config) (nbits w : Nat) : Code :=
  if nbits = 40 then cycleCodeOf c (BitVec.ofNat 40 w)
  else if nbits = 32 then .read (decide (w < 2)) (BitVec.ofNat 32 w)
  else
    let sel := BitVec.ofNat 8 w
    match hostLength sel with
    | some n => .host (bytesOf n w)
    | none =>
      if sel.toNat < 16 then .detector (BitVec.ofNat 4 w)
      else .frameByte .control .needsDeviceByte 4 0 sel

/-- The instruction the decoder reads from a bare word of spec/opcode_table.json, under the spec's parameters. -/
def decodeTableWord (nbits w : Nat) : Option Instr :=
  match decode Config.spec (tableCode Config.spec nbits w) with
  | .ok i => some i
  | .error _ => none

end Sys2Proof
end

