-- ==== Sys2Proof/Machine/State.lean ====
section
/-! DEFINITION. Everything the spec gives the two blocks (10_state.md), their borrowed memories, the parameters of R7
and the caller's side, as plain data; the reasons a step stops; and the machine before its first Configure. -/

namespace Sys2Proof.Machine

/-- A caller-owned backing buffer (R37, R47, R53, R58): its length, and the bytes that differ from
`Config.unlistedByte`, by strictly rising address (log 13). -/
structure Memory where
  len : Nat
  cells : List Host.Cell
deriving DecidableEq, Repr

/-- The canonical form: addresses strictly rising and inside the buffer, no entry equal to what an unlisted address
reads as. Equal contents are equal data. -/
abbrev Memory.wf (m : Memory) : Prop :=
  m.cells.Pairwise (fun x y => x.1 < y.1) ∧ ∀ c ∈ m.cells, c.1 < m.len ∧ c.2 ≠ Config.unlistedByte

/-- The model-fault reasons, "the complete list" of R188. -/
inductive ModelFault where
  | notConfigured
  | eeSizeNotPow2
  | eePageSize
  | eePageGtSize
  | eeMode
  | eeDetectSmall
  | eeSizeLimit
  | bufferSize
  | flVariant
deriving DecidableEq, Repr

/-- The EEPROM block (R20 to R38). -/
structure EE where
  /-- `EE.cfgSize` (R21). -/
  cfgSize : Nat
  /-- `EE.pageSize` (R22). -/
  pageSize : Nat
  /-- `EE.pageMask` (R22). -/
  pageMask : Nat
  /-- `EE.devMode` (R23). -/
  devMode : DevMode
  /-- `EE.addrMask` (R24). -/
  addrMask : Nat
  /-- `EE.blockMask` (R25). -/
  blockMask : Nat
  /-- `EE.st` (R26). -/
  st : EeState
  /-- `EE.dir` (R27). -/
  dir : Dir
  /-- `EE.prevScl` (R28). -/
  prevScl : Bool
  /-- `EE.prevSda` (R28). -/
  prevSda : Bool
  /-- `EE.shreg` (R29). -/
  shreg : Byte
  /-- `EE.bitCnt` (R30). -/
  bitCnt : Nat
  /-- `EE.addr` (R31). -/
  addr : Nat
  /-- `EE.pbuf[0..15]` (R32). -/
  pbuf : Vector Byte 16
  /-- `EE.pcur` (R33). -/
  pcur : Nat
  /-- `EE.pcnt` (R34). -/
  pcnt : Nat
  /-- `EE.out` (R35). -/
  out : Bool
  /-- `EE.newData` (R36). -/
  newData : Bool
  /-- `EE.mem` (R37). -/
  mem : Memory
  /-- `EE.configured` (R38). -/
  configured : Bool
  /-- `EE.fault` (R38, R187). -/
  fault : Option ModelFault
  /-- The model's own: how many free values the block has drawn (log 9). -/
  draws : Nat
deriving DecidableEq, Repr

/-- The Flash block (R40 to R48). `FL.unlock` (R43) is the constant `flUnlock`. -/
structure FL where
  /-- `FL.variant` (R40). -/
  variant : Variant
  /-- `FL.capacity` (R40). -/
  capacity : Nat
  /-- `FL.addrMask` (R41). -/
  addrMask : Addr
  /-- `FL.mfrId` (R42). -/
  mfrId : Byte
  /-- `FL.devId` (R42). -/
  devId : Byte
  /-- `FL.cyc` (R44). -/
  cyc : FlCycle
  /-- `FL.idMode` (R45). -/
  idMode : Bool
  /-- `FL.newData` (R46). -/
  newData : Bool
  /-- `FL.mem` (R47). -/
  mem : Memory
  /-- `FL.configured` (R48). -/
  configured : Bool
  /-- `FL.fault` (R48, R187). -/
  fault : Option ModelFault
  /-- The model's own: how many free values the block has drawn (log 10). -/
  draws : Nat
deriving DecidableEq, Repr

/-- What the host does next (R201, R202). -/
inductive CallerEvent where
  /-- It performs the operation of this transaction word (R71, log 2). -/
  | call (bytes : List Byte)
  /-- It performs EE.Configure with operands that may have no word of R71 (R96, log 21). -/
  | configureEe (size pageSize : Nat) (mode : Option DevMode)
  /-- It makes ready the buffer for the next EE.Configure: a length and contents (R212, log 14). -/
  | offerEe (len : Nat) (bytes : List Host.Cell)
  /-- The same for the next FL.Configure. -/
  | offerFl (len : Nat) (bytes : List Host.Cell)
  /-- It writes a byte of the buffer EE has bound (R202). -/
  | pokeEe (a : Nat) (v : Byte)
  /-- It writes a byte of the buffer FL has bound (R202). -/
  | pokeFl (a : Nat) (v : Byte)
deriving DecidableEq, Repr

/-- A value a query operation returned (R71, R201). -/
inductive Returned where
  /-- `EE.out` of EE.Read (R106). -/
  | level (b : Bool)
  /-- `newData` of IsNewDataWritten (R107, R158). -/
  | flag (b : Bool)
  /-- The result of GetSize (R108, R159). -/
  | size (n : Nat)
  /-- The byte of FL.Read (R155, R156). -/
  | byte (b : Byte)
deriving DecidableEq, Repr

/-- The caller's side: the model's own fields. -/
structure Caller where
  /-- The host's calls and liberties still to come, oldest first (log 1). -/
  pending : List CallerEvent
  /-- The buffer to be passed to the next EE.Configure, `none` where it is the one bound (log 14). -/
  eeOffer : Option Memory
  /-- The buffer to be passed to the next FL.Configure, `none` where it is the one bound (log 14). -/
  flOffer : Option Memory
  /-- "the values the query operations returned along the way" (R205), newest first (log 18). -/
  returned : List Returned
deriving DecidableEq, Repr

/-- The machine: the parameters, the two blocks, the caller. -/
structure State where
  config : Config
  ee : EE
  fl : FL
  caller : Caller
deriving DecidableEq, Repr

/-- Why a step stops. -/
inductive Fault where
  /-- Any operation on EE while `EE.fault` is set: "stuck: it takes no step, returns no value, and changes nothing"
  (R187). Raised by every EE meaning. It ends the whole run (log 28). Safe. -/
  | eeStuck (reason : ModelFault)
  /-- The same for FL (R187). Raised by every FL meaning. It ends the whole run (log 28). Safe. -/
  | flStuck (reason : ModelFault)
  /-- An access outside the bound EE buffer. R57: there is none while the contract holds, so it is raised only in
  states no run reaches (log 12). Raised by the slot-1 load and the commit. Safe. -/
  | eeOutsideBuffer
  /-- An access outside the bound FL buffer. R60: there is none while the contract holds (log 12). Raised by
  FL.Read, the program and the erases. Safe. -/
  | flOutsideBuffer
  /-- The caller's own write to an address that is no byte of the buffer (R202, log 15). Raised by step on a pokeEe
  or pokeFl event. Safe. -/
  | callerOutsideBuffer
deriving DecidableEq, Repr

/-- Why a step has no meaning. -/
inductive Refusal where
  /-- An instruction of the table the model has no meaning for. No arm of exec answers it. Safe. -/
  | notModelled (mnemonic : String)
  /-- A transaction word that names no operation (R71). Raised by step. Safe (log 17). -/
  | noOperation (e : DecodeError)
deriving DecidableEq, Repr

/-- EE before its first Configure (R209). DESIGN CHOICE: every register but `configured` and `fault` (log 5). -/
def EE.reset : EE where
  cfgSize := 0
  pageSize := 0
  pageMask := 0
  devMode := .needsDeviceByte
  addrMask := 0
  blockMask := 0
  st := .standby
  dir := .write
  prevScl := false
  prevSda := false
  shreg := 0
  bitCnt := 0
  addr := 0
  pbuf := Vector.replicate 16 0
  pcur := 0
  pcnt := 0
  out := true
  newData := false
  mem := ⟨0, []⟩
  configured := false
  fault := none
  draws := 0

/-- FL before its first Configure (R209). DESIGN CHOICE: every register but `configured` and `fault` (log 5). -/
def FL.reset : FL where
  variant := .v128K
  capacity := 0
  addrMask := 0
  mfrId := 0
  devId := 0
  cyc := .c0
  idMode := false
  newData := false
  mem := ⟨0, []⟩
  configured := false
  fault := none
  draws := 0

/-- The machine before the first Configure of either block (R209): there is no other reset (R206), no power-on state
(R200), and no call of the host is placed (log 1). -/
def State.reset : State where
  config := Config.spec
  ee := EE.reset
  fl := FL.reset
  caller := ⟨[], none, none, []⟩

end Sys2Proof.Machine
end

