-- ==== Sys2Proof/Machine/Ops.lean ====
section
/-! DEFINITION. The shared operations: the memory primitives of 20_memory.md, the model fault (R187), the checks
every operation of a block begins with, and the return of a value. -/

namespace Sys2Proof.Machine

/-- What a step answers. -/
abbrev Answer := Host.Outcome State Fault Refusal

/-! ## Memory (R53 to R60) -/

/-- The byte listed for a, else the unlisted byte. -/
def cellsRead : List Host.Cell → Nat → Byte
  | [], _ => Config.unlistedByte
  | (k, v) :: t, a => if k = a then v else cellsRead t a

/-- One entry put in front, unless it is what an unlisted address reads as. -/
def cellsCons (a : Nat) (v : Byte) (t : List Host.Cell) : List Host.Cell :=
  if v = Config.unlistedByte then t else (a, v) :: t

/-- The list with a's byte set to v, in canonical form. -/
def cellsWrite : List Host.Cell → Nat → Byte → List Host.Cell
  | [], a, v => cellsCons a v []
  | (k, w) :: t, a, v =>
    if a < k then cellsCons a v ((k, w) :: t)
    else if a = k then cellsCons a v t
    else (k, w) :: cellsWrite t a v

/-- The byte at a, whether a is inside the buffer or not. -/
def Memory.get (m : Memory) (a : Nat) : Byte := cellsRead m.cells a

/-- `MemRead(a, 1)` (R54, R59); `none` outside the buffer. -/
def memRead (m : Memory) (a : Nat) : Option Byte := if a < m.len then some (m.get a) else none

/-- `MemWrite(a, 1, v)` (R54, R59); `none` outside the buffer. -/
def memWrite (m : Memory) (a : Nat) (v : Byte) : Option Memory :=
  if a < m.len then some { m with cells := cellsWrite m.cells a v } else none

/-- `for i in 0 .. n-1: MemWrite(base + i, 1, 0xFF)` (R175, R176): the entries of the range are removed, since 0xFF is
what an unlisted address reads as (log 19; `memErase_eq_writes`). `none` where the range leaves the buffer. -/
def memErase (m : Memory) (base n : Nat) : Option Memory :=
  if base + n ≤ m.len then
    some { m with cells := m.cells.filter fun c => decide (c.1 < base) || decide (base + n ≤ c.1) }
  else none

/-- A buffer of len bytes with the given contents, a later entry over an earlier one; an address at or beyond len is
no byte of it. -/
def memLoad (len : Nat) (bytes : List Host.Cell) : Memory :=
  bytes.foldl (fun m c => (memWrite m c.1 c.2).getD m) ⟨len, []⟩

/-! ## The model fault and the checks (R187, R188, R191, R192) -/

/-- The state with the block's fault register set. -/
def setFault (b : Block) (r : ModelFault) (s : State) : State :=
  match b with
  | .ee => { s with ee := { s.ee with fault := some r } }
  | .fl => { s with fl := { s.fl with fault := some r } }

/-- `raise ModelFault(reason)` (R187): it sets the block's `fault` register and discards every other effect of the
operation. -/
def raiseModelFault (b : Block) (r : ModelFault) (s : State) : Answer := .next (setFault b r s)

/-- An operation on EE that needs no Configure before it: stuck where the block has faulted (R187, log 11). DESIGN
CHOICE: the stuck operation ends the whole run, so the host's later calls are not performed, those to the block that
has not faulted (R2) included (log 28). -/
def eeUnlessStuck (s : State) (k : Answer) : Answer :=
  match s.ee.fault with
  | some r => .fault (.eeStuck r)
  | none => k

/-- The same for FL, and the same DESIGN CHOICE: a stuck FL operation ends the whole run, the host's later calls to EE
included (log 28). -/
def flUnlessStuck (s : State) (k : Answer) : Answer :=
  match s.fl.fault with
  | some r => .fault (.flStuck r)
  | none => k

/-- Every EE operation other than Configure: NOT_CONFIGURED before the first Configure (R109). -/
def eeReady (s : State) (k : Answer) : Answer :=
  eeUnlessStuck s (if s.ee.configured then k else raiseModelFault .ee .notConfigured s)

/-- Every FL operation other than Configure (R160). -/
def flReady (s : State) (k : Answer) : Answer :=
  flUnlessStuck s (if s.fl.configured then k else raiseModelFault .fl .notConfigured s)

/-- The state with the EE block replaced: an EE operation touches nothing else (R2). -/
def State.withEe (s : State) (e : EE) : State := { s with ee := e }

/-- The state with the FL block replaced. -/
def State.withFl (s : State) (f : FL) : State := { s with fl := f }

/-- An action of the EE block, under the checks. -/
def onEe (s : State) (act : EE → Except Fault EE) : Answer :=
  eeReady s (match act s.ee with
    | .ok e => .next (s.withEe e)
    | .error x => .fault x)

/-- An action of the FL block, under the checks. -/
def onFl (s : State) (act : FL → Except Fault FL) : Answer :=
  flReady s (match act s.fl with
    | .ok f => .next (s.withFl f)
    | .error x => .fault x)

/-- `return v`: the query's value, recorded for the caller (R205, log 18). -/
def State.returns (s : State) (v : Returned) : State :=
  { s with caller := { s.caller with returned := v :: s.caller.returned } }

/-! ## The buffer a Configure binds (R99, R149) -/

/-- The `buf` argument of an EE.Configure: the offered buffer, else the one bound (log 14). -/
def eeBuffer (s : State) : Memory := s.caller.eeOffer.getD s.ee.mem

/-- The `buf` argument of an FL.Configure. -/
def flBuffer (s : State) : Memory := s.caller.flOffer.getD s.fl.mem

/-- The offer is used up. -/
def State.takeEeOffer (s : State) : State := { s with caller := { s.caller with eeOffer := none } }

/-- The offer is used up. -/
def State.takeFlOffer (s : State) : State := { s with caller := { s.caller with flOffer := none } }

end Sys2Proof.Machine
end

