-- ==== Sys2Proof/Machine/Flags.lean ====
section
/-! DEFINITION. The flags of R51 and the EE output level: the only rules that set or clear them. -/

namespace Sys2Proof.Machine

/-- `EE.newData <- 0`, the first effect of every EE.Write (R102). -/
def eeClearNewData (e : EE) : EE := { e with newData := false }

/-- `EE.newData <- 1`, by the commit alone (R143). -/
def eeSetNewData (e : EE) : EE := { e with newData := true }

/-- `FL.newData <- 0`, the first effect of every FL.Write (R152). -/
def flClearNewData (f : FL) : FL := { f with newData := false }

/-- `FL.newData <- 1`, by the byte program alone (R178, R182). -/
def flSetNewData (f : FL) : FL := { f with newData := true }

/-- `FL.idMode <- 1`, by ID entry alone (R169). -/
def flSetIdMode (f : FL) : FL := { f with idMode := true }

/-- `FL.idMode <- 0`, by the two exits (R162, R170). -/
def flClearIdMode (f : FL) : FL := { f with idMode := false }

/-- `EE.out <- 1`: released, which is also NACK (R35). -/
def eeRelease (e : EE) : EE := { e with out := true }

/-- `EE.out <- 0`: ACK (R11, R146). -/
def eeAck (e : EE) : EE := { e with out := false }

/-- `EE.out <- bit`: a read data slot (R131). -/
def eeDrive (bit : Bool) (e : EE) : EE := { e with out := bit }

/-- "if we == 0: EE.out <- 1" (R104). -/
def eeDefaultOut (we : Bool) (e : EE) : EE := if we then e else eeRelease e

end Sys2Proof.Machine
end

