-- ==== Sys2Proof/Machine/EeBytes.lean ====
section
/-! DEFINITION. 42_eeprom_bytes.md: the slots of a frame, the actions of a finalised byte, and the commit. -/

namespace Sys2Proof.Machine

/-- The page buffer emptied: `EE.pcnt <- 0 ; EE.pcur <- 0` (R113, R114, R138, R141). -/
def eeEmptyPage (e : EE) : EE := { e with pcnt := 0, pcur := 0 }

/-! ## Byte actions at slot 9 (R134 to R141) -/

/-- ControlMatch (R135); rw is `B[0]`. -/
def eeControlMatch (c : Config) (rw : Bool) (e : EE) : EE :=
  eeAck { e with dir := rwDir c rw, st := .address }

/-- ControlMismatch (R136). -/
def eeControlMismatch (e : EE) : EE := eeRelease { e with st := .standby }

/-- LatchAddress(B) (R138, R139). -/
def eeLatchAddress (c : Config) (b : Byte) (e : EE) : EE :=
  eeAck (eeEmptyPage { e with
    dir := if e.devMode = .noDeviceByte then nodevDir c b else e.dir
    addr := addressOf b e.addrMask
    st := .data })

/-- Detect(B) (R137): NONE mode, 128-byte masks, and the same byte as an address byte. -/
def eeDetectNoDevice (c : Config) (b : Byte) (e : EE) : EE :=
  eeLatchAddress c b { e with devMode := .noDeviceByte, addrMask := 127, blockMask := 127 }

/-- DataWrite(B) (R140). -/
def eeBufferData (b : Byte) (e : EE) : EE :=
  eeAck { e with
    pbuf := e.pbuf.setIfInBounds e.pcur b
    pcur := (e.pcur + 1) &&& e.pageMask
    pcnt := min (e.pcnt + 1) e.pageSize }

/-- QuirkAbort() (R141). -/
def eeQuirk (e : EE) : EE := eeRelease (eeEmptyPage { e with st := .standby })

/-- Finalise(B) (R134). In STANDBY no byte is finalised (R116). -/
def eeFinalise (c : Config) (b : Byte) (e : EE) : EE :=
  match e.st with
  | .standby => e
  | .control =>
    if selOf b = c.select7 then eeControlMatch c (rwOf b) e
    else if e.devMode = .detectNoDeviceByte then eeDetectNoDevice c b e
    else eeControlMismatch e
  | .address => eeLatchAddress c b e
  | .data => if e.pageSize = 2 ∧ e.pcnt = 2 then eeQuirk e else eeBufferData b e

/-! ## Slots (R127 to R133) -/

/-- ShiftIn(sda) (R129). -/
def eeShiftInBit (sda : Bool) (e : EE) : EE :=
  eeRelease { e with shreg := shiftInBit e.shreg sda, bitCnt := e.bitCnt + 1 }

/-- The byte slot 1 loads, `EE.MemRead(EE.addr, 1)` (R131, R132); the other slots send on. -/
def eeOutgoing (e : EE) : Except Fault Byte :=
  if e.bitCnt = 0 then
    match memRead e.mem e.addr with
    | some b => .ok b
    | none => .error .eeOutsideBuffer
  else .ok e.shreg

/-- ShiftOut() (R131). -/
def eeShiftOutBit (e : EE) : Except Fault EE :=
  match eeOutgoing e with
  | .ok b => .ok (eeDrive (b.getLsbD 7) { e with shreg := b <<< 1, bitCnt := e.bitCnt + 1 })
  | .error x => .error x

/-- Write-direction slot 9 (R130): `EE.bitCnt <- 0`, then Finalise(EE.shreg). -/
def eeWriteAckSlot (c : Config) (e : EE) : EE := eeFinalise c e.shreg { e with bitCnt := 0 }

/-- ReadAckSlot(sda) (R133): ACK (0) advances the address within the block, NACK (1) does not. -/
def eeReadAckSlot (sda : Bool) (e : EE) : EE :=
  eeRelease { e with addr := if sda then e.addr else wrapInc e.addr e.blockMask, bitCnt := 0 }

/-- RisingEdge(sda) (R127); in STANDBY a rising edge is ignored (R116). -/
def eeRisingEdge (c : Config) (sda : Bool) (e : EE) : Except Fault EE :=
  if e.st = .standby then .ok e
  else if e.st = .data ∧ e.dir = .read then
    if e.bitCnt < 8 then eeShiftOutBit e else .ok (eeReadAckSlot sda e)
  else if e.bitCnt < 8 then .ok (eeShiftInBit sda e)
  else .ok (eeWriteAckSlot c e)

/-! ## Commit (R143) -/

/-- The loop of R143: each byte at the address, the address advanced within the page. -/
def commitBytes (pageMask : Nat) : List Byte → Nat → Memory → Except Fault (Memory × Nat)
  | [], a, m => .ok (m, a)
  | b :: bs, a, m =>
    match memWrite m a b with
    | some m' => commitBytes pageMask bs (wrapInc a pageMask) m'
    | none => .error .eeOutsideBuffer

/-- Commit() (R143): `EE.pbuf[0 .. pcnt-1]` into memory from the latched address. -/
def eeCommit (e : EE) : Except Fault EE :=
  match commitBytes e.pageMask (e.pbuf.toList.take e.pcnt) e.addr e.mem with
  | .ok (m, a) => .ok (eeSetNewData { e with mem := m, addr := a })
  | .error x => .error x

/-! ## The rows -/

/-- EE.SHIFT_IN (R129). -/
def execEeShiftIn (sda : Bool) (s : State) : Answer := onEe s fun e => .ok (eeShiftInBit sda e)

/-- EE.SHIFT_OUT (R131). -/
def execEeShiftOut (s : State) : Answer := onEe s eeShiftOutBit

/-- EE.WACK_SLOT (R130). -/
def execEeWackSlot (s : State) : Answer := onEe s fun e => .ok (eeWriteAckSlot s.config e)

/-- EE.RACK_SLOT (R133). -/
def execEeRackSlot (sda : Bool) (s : State) : Answer := onEe s fun e => .ok (eeReadAckSlot sda e)

/-- EE.CTRL_MATCH (R135). -/
def execEeCtrlMatch (rw : Bool) (s : State) : Answer := onEe s fun e => .ok (eeControlMatch s.config rw e)

/-- EE.CTRL_MISMATCH (R136): the byte itself is not kept. -/
def execEeCtrlMismatch (_b : Byte) (s : State) : Answer := onEe s fun e => .ok (eeControlMismatch e)

/-- EE.DETECT (R137). -/
def execEeDetect (b : Byte) (s : State) : Answer := onEe s fun e => .ok (eeDetectNoDevice s.config b e)

/-- EE.ADDRESS (R138). -/
def execEeAddress (b : Byte) (s : State) : Answer := onEe s fun e => .ok (eeLatchAddress s.config b e)

/-- EE.QUIRK_ABORT (R141): the byte is discarded. -/
def execEeQuirkAbort (_b : Byte) (s : State) : Answer := onEe s fun e => .ok (eeQuirk e)

/-- EE.DATA_WRITE (R140). -/
def execEeDataWrite (b : Byte) (s : State) : Answer := onEe s fun e => .ok (eeBufferData b e)

end Sys2Proof.Machine
end

