-- ==== Sys2Proof/Machine/EeConditions.lean ====
section
/-! DEFINITION. 41_eeprom_conditions.md: the Start and Stop actions and the classes of a sample. -/

namespace Sys2Proof.Machine

/-- StartCond() (R113). -/
def eeStartCond (e : EE) : EE :=
  eeRelease (eeEmptyPage { e with
    st := if e.devMode = .noDeviceByte then .address else .control
    bitCnt := 0
    shreg := 0 })

/-- "if EE.st == DATA and EE.dir == WRITE and EE.pcnt > 0: Commit()" (R114). -/
def eeCommitIfDue (e : EE) : Except Fault EE :=
  if e.st = .data ∧ e.dir = .write ∧ 0 < e.pcnt then eeCommit e else .ok e

/-- StopCond() (R114). -/
def eeStopCond (e : EE) : Except Fault EE :=
  match eeCommitIfDue e with
  | .ok e' => .ok (eeRelease (eeEmptyPage { e' with st := .standby, bitCnt := 0 }))
  | .error x => .error x

/-- The action of the sample's class, by the index K (R101, R111). -/
def eeSampleAction (c : Config) (scl sda : Bool) (e : EE) : Except Fault EE :=
  let k := detectorIndex e.prevScl e.prevSda scl sda
  if k = 0b1110 then .ok (eeStartCond e)
  else if k = 0b1011 then eeStopCond e
  else if e.prevScl = false ∧ scl = true then eeRisingEdge c sda e
  else .ok e

/-! ## The rows -/

/-- EE.START (R113). -/
def execEeStart (s : State) : Answer := onEe s fun e => .ok (eeStartCond e)

/-- EE.STOP (R114). -/
def execEeStop (s : State) : Answer := onEe s eeStopCond

/-- EE.RISE (R127): the old data level takes no part (R117). -/
def execEeRise (_prevSda sda : Bool) (s : State) : Answer := onEe s (eeRisingEdge s.config sda)

/-- EE.HIGH_HOLD_LOW: no effect of its own (R112). -/
def execEeHighHoldLow (s : State) : Answer := onEe s fun e => .ok e

/-- EE.HIGH_HOLD_HIGH: no effect of its own (R112). -/
def execEeHighHoldHigh (s : State) : Answer := onEe s fun e => .ok e

/-- EE.LOW: no effect of its own; "the falling clock edge does nothing" (R112). -/
def execEeLow (_prevScl _prevSda _sda : Bool) (s : State) : Answer := onEe s fun e => .ok e

end Sys2Proof.Machine
end

