-- ==== Sys2Proof/Machine/EeInterface.lean ====
section
/-! DEFINITION. 40_eeprom_interface.md: the five host operations of the EEPROM block. -/

namespace Sys2Proof.Machine

/-- The contract checks of R99, in its order: the first reason that holds. -/
def eeConfigureFault (c : Config) (size pageSize : Nat) (mode : Option DevMode) (buf : Memory) : Option ModelFault :=
  if isSize size = false then some .eeSizeNotPow2
  else if isPageSize pageSize = false then some .eePageSize
  else if size < pageSize then some .eePageGtSize
  else if mode = none then some .eeMode
  else if mode = some .detectNoDeviceByte ∧ size < 128 then some .eeDetectSmall
  else if buf.len ≠ size then some .bufferSize
  else
    match c.eeMaxSize with
    | some n => if n < size then some .eeSizeLimit else none
    | none => none

/-- The register values of R99 (R207). The previous lines and the page buffer are draws (log 9). -/
def eeConfigured (size pageSize : Nat) (mode : DevMode) (buf : Memory) (e : EE) : EE where
  cfgSize := size
  pageSize := pageSize
  pageMask := pageSize - 1
  devMode := mode
  addrMask := size - 1
  blockMask := min 256 size - 1
  st := .standby
  dir := .write
  prevScl := Config.eeResetLine e.draws
  prevSda := Config.eeResetLine (e.draws + 1)
  shreg := 0
  bitCnt := 0
  addr := 0
  pbuf := Vector.ofFn fun i => Config.eePbufReset (e.draws + 2 + i.val)
  pcur := 0
  pcnt := 0
  out := true
  newData := false
  mem := buf
  configured := true
  fault := none
  draws := e.draws + 18

/-- ECFG: EE.Configure(buf, size, pageSize, mode) (R99, R100). -/
def execEcfg (size pageSize : Nat) (mode : Option DevMode) (s : State) : Answer :=
  eeUnlessStuck s
    (match eeConfigureFault s.config size pageSize mode (eeBuffer s), mode with
    | some r, _ => raiseModelFault .ee r s
    | none, some m => .next (s.takeEeOffer.withEe (eeConfigured size pageSize m (eeBuffer s) s.ee))
    | none, none => raiseModelFault .ee .eeMode s)

/-- `EE.prevScl <- scl ; EE.prevSda <- sda`, the last effect of every EE.Write (R103). -/
def eeLatchLines (scl sda : Bool) (e : EE) : EE := { e with prevScl := scl, prevSda := sda }

/-- EE.Write after its checks (R101): the flag clear, the output default, the sample's action, the lines. -/
def eeWrite (c : Config) (we sda scl : Bool) (e : EE) : Except Fault EE :=
  match eeSampleAction c scl sda (eeDefaultOut we (eeClearNewData e)) with
  | .ok e' => .ok (eeLatchLines scl sda e')
  | .error x => .error x

/-- S: EE.Write(we, sda, scl) (R101). -/
def execSample (we sda scl : Bool) (s : State) : Answer := onEe s (eeWrite s.config we sda scl)

/-- ERD: `return EE.out` (R106). -/
def execErd (s : State) : Answer := eeReady s (.next (s.returns (.level s.ee.out)))

/-- ENEW: `return EE.newData` (R107). -/
def execEnew (s : State) : Answer := eeReady s (.next (s.returns (.flag s.ee.newData)))

/-- ESIZE: `return EE.cfgSize` (R108). -/
def execEsize (s : State) : Answer := eeReady s (.next (s.returns (.size s.ee.cfgSize)))

end Sys2Proof.Machine
end

