-- ==== Sys2Proof/Machine/FlCommands.lean ====
section
/-! DEFINITION. 46_flash_commands.md: the command sequencer, one action per row of the table in R161. -/

namespace Sys2Proof.Machine

/-- `FL.cyc <- c`. -/
def flGoto (c : FlCycle) (f : FL) : FL := { f with cyc := c }

/-- An abort (R180): "A cycle that takes an otherwise row only sets FL.cyc <- C0". -/
def flAbort (f : FL) : FL := flGoto .c0 f

/-- The two ID exits: `FL.idMode <- 0 ; FL.cyc <- C0` (R162, R170). -/
def flLeaveId (f : FL) : FL := flGoto .c0 (flClearIdMode f)

/-- ID entry: `FL.idMode <- 1 ; FL.cyc <- C0` (R169). -/
def flEnterId (f : FL) : FL := flGoto .c0 (flSetIdMode f)

/-- An erase of n bytes from base: `FL.MemWrite(base + i, 1, 0xFF)` for each, then `FL.cyc <- C0`. -/
def flEraseRange (base n : Nat) (f : FL) : Except Fault FL :=
  match memErase f.mem base n with
  | some m => .ok (flGoto .c0 { f with mem := m })
  | none => .error .flOutsideBuffer

/-- Sector erase (R175). -/
def flEraseSector (a : Addr) (f : FL) : Except Fault FL :=
  flEraseRange (sectorBase (flTarget a f.addrMask)) 4096 f

/-- Chip erase (R176). -/
def flEraseChip (f : FL) : Except Fault FL := flEraseRange 0 f.capacity f

/-- Byte program (R178): `FL.MemWrite(T, 1, FL.MemRead(T, 1) & D)`, the flag, `FL.cyc <- C0`. -/
def flProgram (a : Addr) (d : Byte) (f : FL) : Except Fault FL :=
  match memRead f.mem (flTarget a f.addrMask) with
  | none => .error .flOutsideBuffer
  | some old =>
    match memWrite f.mem (flTarget a f.addrMask) (old &&& d) with
    | none => .error .flOutsideBuffer
    | some m => .ok (flGoto .c0 (flSetNewData { f with mem := m }))

/-- Sequence(A, D) (R161): the first row whose state and condition hold. -/
def flSequence (c : Config) (a : Addr) (d : Byte) (f : FL) : Except Fault FL :=
  match f.cyc with
  | .c0 =>
    if f.idMode && d == c.cmdIdExit then .ok (flLeaveId f)
    else if isUnlock c 0 a d then .ok (flGoto .c1 f)
    else .ok (flAbort f)
  | .c1 => if isUnlock c 1 a d then .ok (flGoto .c2 f) else .ok (flAbort f)
  | .c2 =>
    if isUnlock c 2 a d then .ok (flGoto .c3 f)
    else if isCommand c c.cmdProgram a d then .ok (flGoto .prog f)
    else if isCommand c c.cmdIdEntry a d then .ok (flEnterId f)
    else if isCommand c c.cmdIdExit a d then .ok (flLeaveId f)
    else .ok (flAbort f)
  | .c3 => if isUnlock c 3 a d then .ok (flGoto .c4 f) else .ok (flAbort f)
  | .c4 => if isUnlock c 4 a d then .ok (flGoto .erase f) else .ok (flAbort f)
  | .erase =>
    if d == 0x30 then flEraseSector a f
    else if isCommand c 0x10 a d then flEraseChip f
    else .ok (flAbort f)
  | .prog => flProgram a d f

/-! ## The rows -/

/-- FL.ID_EXIT1, row 1 (R162). -/
def execFlIdExit1 (_a : Addr) (s : State) : Answer := onFl s fun f => .ok (flLeaveId f)

/-- FL.UNLOCK1, row 2 (R163). -/
def execFlUnlock1 (_a : Addr) (s : State) : Answer := onFl s fun f => .ok (flGoto .c1 f)

/-- FL.C0_OTHER, row 3 (R164). -/
def execFlC0Other (_a : Addr) (_d : Byte) (s : State) : Answer := onFl s fun f => .ok (flAbort f)

/-- FL.UNLOCK2, row 4 (R165). -/
def execFlUnlock2 (_a : Addr) (s : State) : Answer := onFl s fun f => .ok (flGoto .c2 f)

/-- FL.C1_ABORT, row 5 (R166). -/
def execFlC1Abort (_a : Addr) (_d : Byte) (s : State) : Answer := onFl s fun f => .ok (flAbort f)

/-- FL.ERASE_SETUP, row 6 (R167). -/
def execFlEraseSetup (_a : Addr) (s : State) : Answer := onFl s fun f => .ok (flGoto .c3 f)

/-- FL.PROGRAM_SETUP, row 7 (R168). -/
def execFlProgramSetup (_a : Addr) (s : State) : Answer := onFl s fun f => .ok (flGoto .prog f)

/-- FL.ID_ENTRY, row 8 (R169). -/
def execFlIdEntry (_a : Addr) (s : State) : Answer := onFl s fun f => .ok (flEnterId f)

/-- FL.ID_EXIT3, row 9 (R170): clear, never set. -/
def execFlIdExit3 (_a : Addr) (s : State) : Answer := onFl s fun f => .ok (flLeaveId f)

/-- FL.C2_ABORT, row 10 (R171). -/
def execFlC2Abort (_a : Addr) (_d : Byte) (s : State) : Answer := onFl s fun f => .ok (flAbort f)

/-- FL.UNLOCK4, row 11 (R172). -/
def execFlUnlock4 (_a : Addr) (s : State) : Answer := onFl s fun f => .ok (flGoto .c4 f)

/-- FL.UNLOCK5, row 12 (R173). -/
def execFlUnlock5 (_a : Addr) (s : State) : Answer := onFl s fun f => .ok (flGoto .erase f)

/-- FL.C3C4_ABORT, row 13 (R174). -/
def execFlC3C4Abort (_a : Addr) (_d : Byte) (s : State) : Answer := onFl s fun f => .ok (flAbort f)

/-- FL.SECTOR_ERASE, row 14 (R175). -/
def execFlSectorErase (a : Addr) (s : State) : Answer := onFl s (flEraseSector a)

/-- FL.CHIP_ERASE, row 15 (R176). -/
def execFlChipErase (_a : Addr) (s : State) : Answer := onFl s flEraseChip

/-- FL.ERASE_ABORT, row 16 (R177). -/
def execFlEraseAbort (_a : Addr) (_d : Byte) (s : State) : Answer := onFl s fun f => .ok (flAbort f)

/-- FL.BYTE_PROGRAM, row 17 (R178). -/
def execFlByteProgram (a : Addr) (d : Byte) (s : State) : Answer := onFl s (flProgram a d)

end Sys2Proof.Machine
end

