-- ==== Sys2Proof/Machine/FlInterface.lean ====
section
/-! DEFINITION. 45_flash_interface.md: the five host operations of the Flash block, and the cases of FL.Read. -/

namespace Sys2Proof.Machine

/-- The contract checks of R149, in its order. -/
def flConfigureFault (variant : Option Variant) (buf : Memory) : Option ModelFault :=
  match variant with
  | none => some .flVariant
  | some v => if buf.len ≠ variantCapacity v then some .bufferSize else none

/-- The register values of R149 (R208). -/
def flConfigured (c : Config) (v : Variant) (buf : Memory) (f : FL) : FL where
  variant := v
  capacity := variantCapacity v
  addrMask := BitVec.ofNat 32 (variantCapacity v - 1)
  mfrId := c.mfrId
  devId := devIdOf c v
  cyc := .c0
  idMode := false
  newData := false
  mem := buf
  configured := true
  fault := none
  draws := f.draws

/-- FCFG: FL.Configure(buf, variant) (R149, R150). -/
def execFcfg (variant : Option Variant) (s : State) : Answer :=
  flUnlessStuck s
    (match flConfigureFault variant (flBuffer s), variant with
    | some r, _ => raiseModelFault .fl r s
    | none, some v => .next (s.takeFlOffer.withFl (flConfigured s.config v (flBuffer s) s.fl))
    | none, none => raiseModelFault .fl .flVariant s)

/-- FL.Write after its checks (R151): the flag clear, then the row of R161. -/
def flWrite (c : Config) (a : Addr) (d : Byte) (f : FL) : Except Fault FL := flSequence c a d (flClearNewData f)

/-- W: FL.Write(A, D) (R151). -/
def execBusWrite (a : Addr) (d : Byte) (s : State) : Answer := onFl s (flWrite s.config a d)

/-- `return FL.MemRead(A & FL.addrMask, 1)` (R155). -/
def flAnswerArray (a : Addr) (s : State) : Answer :=
  match memRead s.fl.mem (flTarget a s.fl.addrMask) with
  | some b => .next (s.returns (.byte b))
  | none => .fault .flOutsideBuffer

/-- `return FL.mfrId` (R156). -/
def flAnswerMfrId (s : State) : Answer := .next (s.returns (.byte s.fl.mfrId))

/-- `return FL.devId` (R156). -/
def flAnswerDevId (s : State) : Answer := .next (s.returns (.byte s.fl.devId))

/-- `return draw(ID_OTHER)` (R156), a fresh draw each time (R157, log 10). -/
def flAnswerIdOther (s : State) : Answer :=
  .next ((s.withFl { s.fl with draws := s.fl.draws + 1 }).returns (.byte (Config.idOther s.fl.draws)))

/-- FL.Read(A) after its checks (R155, R156): the ID addresses are compared unmasked. -/
def flAnswerRead (a : Addr) (s : State) : Answer :=
  if s.fl.idMode then
    if a = 0 then flAnswerMfrId s
    else if a = 1 then flAnswerDevId s
    else flAnswerIdOther s
  else flAnswerArray a s

/-- R: FL.Read(A) (R155, R156). -/
def execBusRead (a : Addr) (s : State) : Answer := flReady s (flAnswerRead a s)

/-- FNEW: `return FL.newData` (R158). -/
def execFnew (s : State) : Answer := flReady s (.next (s.returns (.flag s.fl.newData)))

/-- FSIZE: `return FL.capacity` (R159). -/
def execFsize (s : State) : Answer := flReady s (.next (s.returns (.size s.fl.capacity)))

/-! ## The rows of FL.Read -/

/-- FL.READ_ARRAY (R155). -/
def execFlReadArray (a : Addr) (s : State) : Answer := flReady s (flAnswerArray a s)

/-- FL.READ_MFR_ID (R156). -/
def execFlReadMfrId (s : State) : Answer := flReady s (flAnswerMfrId s)

/-- FL.READ_DEV_ID (R156). -/
def execFlReadDevId (s : State) : Answer := flReady s (flAnswerDevId s)

/-- FL.READ_ID_OTHER (R156, R157). -/
def execFlReadIdOther (_a : Addr) (s : State) : Answer := flReady s (flAnswerIdOther s)

end Sys2Proof.Machine
end

