-- ==== Sys2Proof/Machine/Dispatch.lean ====
section
/-! DEFINITION. One arm per constructor of Instr, each one call of its meaning. -/

namespace Sys2Proof.Machine

def exec (i : Instr) (s : State) : Host.Outcome State Fault Refusal :=
  match i with
  | .ecfg size pageSize mode => Sys2Proof.Machine.execEcfg size pageSize mode s
  | .sample we sda scl => Sys2Proof.Machine.execSample we sda scl s
  | .erd => Sys2Proof.Machine.execErd s
  | .enew => Sys2Proof.Machine.execEnew s
  | .esize => Sys2Proof.Machine.execEsize s
  | .fcfg variant => Sys2Proof.Machine.execFcfg variant s
  | .busWrite a d => Sys2Proof.Machine.execBusWrite a d s
  | .busRead a => Sys2Proof.Machine.execBusRead a s
  | .fnew => Sys2Proof.Machine.execFnew s
  | .fsize => Sys2Proof.Machine.execFsize s
  | .eeStart => Sys2Proof.Machine.execEeStart s
  | .eeStop => Sys2Proof.Machine.execEeStop s
  | .eeRise prevSda sda => Sys2Proof.Machine.execEeRise prevSda sda s
  | .eeHighHoldLow => Sys2Proof.Machine.execEeHighHoldLow s
  | .eeHighHoldHigh => Sys2Proof.Machine.execEeHighHoldHigh s
  | .eeLow prevScl prevSda sda => Sys2Proof.Machine.execEeLow prevScl prevSda sda s
  | .eeShiftIn sda => Sys2Proof.Machine.execEeShiftIn sda s
  | .eeShiftOut => Sys2Proof.Machine.execEeShiftOut s
  | .eeWackSlot => Sys2Proof.Machine.execEeWackSlot s
  | .eeRackSlot sda => Sys2Proof.Machine.execEeRackSlot sda s
  | .eeCtrlMatch rw => Sys2Proof.Machine.execEeCtrlMatch rw s
  | .eeCtrlMismatch b => Sys2Proof.Machine.execEeCtrlMismatch b s
  | .eeDetect b => Sys2Proof.Machine.execEeDetect b s
  | .eeAddress b => Sys2Proof.Machine.execEeAddress b s
  | .eeQuirkAbort b => Sys2Proof.Machine.execEeQuirkAbort b s
  | .eeDataWrite b => Sys2Proof.Machine.execEeDataWrite b s
  | .flIdExit1 a => Sys2Proof.Machine.execFlIdExit1 a s
  | .flUnlock1 a => Sys2Proof.Machine.execFlUnlock1 a s
  | .flC0Other a d => Sys2Proof.Machine.execFlC0Other a d s
  | .flUnlock2 a => Sys2Proof.Machine.execFlUnlock2 a s
  | .flC1Abort a d => Sys2Proof.Machine.execFlC1Abort a d s
  | .flEraseSetup a => Sys2Proof.Machine.execFlEraseSetup a s
  | .flProgramSetup a => Sys2Proof.Machine.execFlProgramSetup a s
  | .flIdEntry a => Sys2Proof.Machine.execFlIdEntry a s
  | .flIdExit3 a => Sys2Proof.Machine.execFlIdExit3 a s
  | .flC2Abort a d => Sys2Proof.Machine.execFlC2Abort a d s
  | .flUnlock4 a => Sys2Proof.Machine.execFlUnlock4 a s
  | .flUnlock5 a => Sys2Proof.Machine.execFlUnlock5 a s
  | .flC3C4Abort a d => Sys2Proof.Machine.execFlC3C4Abort a d s
  | .flSectorErase a => Sys2Proof.Machine.execFlSectorErase a s
  | .flChipErase a => Sys2Proof.Machine.execFlChipErase a s
  | .flEraseAbort a d => Sys2Proof.Machine.execFlEraseAbort a d s
  | .flByteProgram a d => Sys2Proof.Machine.execFlByteProgram a d s
  | .flReadArray a => Sys2Proof.Machine.execFlReadArray a s
  | .flReadMfrId => Sys2Proof.Machine.execFlReadMfrId s
  | .flReadDevId => Sys2Proof.Machine.execFlReadDevId s
  | .flReadIdOther a => Sys2Proof.Machine.execFlReadIdOther a s

end Sys2Proof.Machine
end

