-- ==== Sys2Proof/Machine/Fetch.lean ====
section
/-! DEFINITION. What a step does with one event of the caller (R201, R202), and where a bare word of the opcode table is
placed so that the next step runs it. -/

namespace Sys2Proof.Machine

/-- The state with the events still to come replaced. -/
def State.withPending (s : State) (evs : List CallerEvent) : State :=
  { s with caller := { s.caller with pending := evs } }

/-- A host transaction word: decoded, then performed (R71). A word that names no operation has no meaning (log 17). -/
def performCall (bytes : List Byte) (s : State) : Answer :=
  match decode s.config (.host bytes) with
  | .ok i => exec i s
  | .error e => .refused (.noOperation e)

/-- The host writes a byte of the EE buffer (R202): no register changes. -/
def pokeEe (a : Nat) (v : Byte) (s : State) : Answer :=
  match memWrite s.ee.mem a v with
  | some m => .next (s.withEe { s.ee with mem := m })
  | none => .fault .callerOutsideBuffer

/-- The host writes a byte of the FL buffer (R202): no register changes. -/
def pokeFl (a : Nat) (v : Byte) (s : State) : Answer :=
  match memWrite s.fl.mem a v with
  | some m => .next (s.withFl { s.fl with mem := m })
  | none => .fault .callerOutsideBuffer

/-- The host makes a buffer ready for the next EE.Configure (R212, log 14). -/
def offerEe (len : Nat) (bytes : List Host.Cell) (s : State) : Answer :=
  .next { s with caller := { s.caller with eeOffer := some (memLoad len bytes) } }

/-- The host makes a buffer ready for the next FL.Configure (R212, log 14). -/
def offerFl (len : Nat) (bytes : List Host.Cell) (s : State) : Answer :=
  .next { s with caller := { s.caller with flOffer := some (memLoad len bytes) } }

/-- One event of the caller. -/
def performEvent (ev : CallerEvent) (s : State) : Answer :=
  match ev with
  | .call bytes => performCall bytes s
  | .configureEe size pageSize mode => exec (.ecfg size pageSize mode) s
  | .offerEe len bytes => offerEe len bytes s
  | .offerFl len bytes => offerFl len bytes s
  | .pokeEe a v => pokeEe a v s
  | .pokeFl a v => pokeFl a v s

/-- The host's next event, in call order (R68). With none left nothing happens (R14, R205; log 16). -/
def fetchAndPerform (s : State) : Answer :=
  match s.caller.pending with
  | [] => .next s
  | ev :: rest => performEvent ev (s.withPending rest)

/-! ## A bare word of the opcode table, placed (log 4) -/

/-- The host call put before the events still to come. -/
def State.withCall (s : State) (bytes : List Byte) : State := s.withPending (.call bytes :: s.caller.pending)

/-- An EE block on which a row can be decoded: the block itself where it is configured, else one configured with a
blank 256-byte buffer and 4-byte pages in NEEDS mode; no fault. -/
def eeForRow (s : State) : EE :=
  if s.ee.configured then { s.ee with fault := none }
  else eeConfigured 256 4 .needsDeviceByte (memLoad 256 []) s.ee

/-- An FL block on which a row can be decoded: the block itself where it is configured, else a blank V128K; no
fault. -/
def flForRow (s : State) : FL :=
  if s.fl.configured then { s.fl with fault := none }
  else flConfigured s.config .v128K (memLoad (variantCapacity .v128K) []) s.fl

/-- The sample word of an EE.Write as a host transaction (R71, R72). -/
def sampleCall (sda scl : Bool) : List Byte := [0x1, sampleByte true sda scl]

/-- The state in which the next step's host call decodes to this input's row: the call is put first, and the state
fields the input names are set. -/
def place (code : Code) (s : State) : State :=
  match code with
  | .host bytes => s.withCall bytes
  | .detector k =>
    (s.withEe { eeForRow s with prevScl := k.getLsbD 3, prevSda := k.getLsbD 2 }).withCall
      (sampleCall (k.getLsbD 0) (k.getLsbD 1))
  | .slot st dir bitCnt sda =>
    (s.withEe { eeForRow s with prevScl := false, prevSda := sda, st := st, dir := dir, bitCnt := bitCnt }).withCall
      (sampleCall sda true)
  | .frameByte st mode pageSize pcnt b =>
    (s.withEe { eeForRow s with
      prevScl := false, prevSda := true, st := st, dir := .write, bitCnt := 8
      devMode := mode, pageSize := pageSize, pcnt := pcnt, shreg := b }).withCall (sampleCall true true)
  | .cycle cyc idMode w =>
    (s.withFl { flForRow s with cyc := cyc, idMode := idMode }).withCall
      [0x9, busData w, addrByte (busAddr w) 0, addrByte (busAddr w) 1, addrByte (busAddr w) 2, addrByte (busAddr w) 3]
  | .read idMode a =>
    (s.withFl { flForRow s with idMode := idMode }).withCall
      [0xA, addrByte a 0, addrByte a 1, addrByte a 2, addrByte a 3]

end Sys2Proof.Machine
end

