-- ==== Sys2Proof/Machine/Step.lean ====
section
/-! DEFINITION. One step of the machine: one event of the caller (R14). -/

namespace Sys2Proof.Machine

/-- One step: the next event of the caller is performed (R14, R68, R201, R202). -/
def step (s : State) : Host.Outcome State Fault Refusal := fetchAndPerform s

/-- s with the instruction of a bare opcode-table word placed where the next step fetches, and what its row's
qualifiers name selected (log 4). -/
def State.withFetchWord (s : State) (nbits w : Nat) : State := place (tableCode s.config nbits w) s

end Sys2Proof.Machine
end

