-- ==== Sys2Proof/Safety.lean ====
section
/-! DEFINITION. The terms claims are stated in: a live block, the invariants of R39, R41, R49, R57 and R60, the block an
instruction belongs to, sequences of instructions, rows in their order, the contents of an offered buffer, and the pseudo-instructions of R93 and R94. -/

namespace Sys2Proof.Machine

/-! ## Live blocks -/

/-- EE is configured and has not faulted: its operations execute normally (R109, R187). -/
abbrev EE.live (e : EE) : Prop := e.fault = none ∧ e.configured = true

/-- FL is configured and has not faulted (R160, R187). -/
abbrev FL.live (f : FL) : Prop := f.fault = none ∧ f.configured = true

/-! ## Invariants -/

/-- The configuration registers of EE: the contract of R99, and the masks as Configure or detection set them
(R21 to R25, R53, R137). -/
abbrev EE.legal (e : EE) : Prop :=
  isSize e.cfgSize = true ∧ isPageSize e.pageSize = true ∧ e.pageSize ≤ e.cfgSize ∧ e.pageMask = e.pageSize - 1 ∧
  e.mem.len = e.cfgSize ∧ (e.devMode = .detectNoDeviceByte → 128 ≤ e.cfgSize) ∧
  ((e.addrMask = e.cfgSize - 1 ∧ e.blockMask = min 256 e.cfgSize - 1) ∨
    (e.addrMask = 127 ∧ e.blockMask = 127 ∧ 128 ≤ e.cfgSize ∧ e.devMode = .noDeviceByte))

/-- The seven invariants of R39. -/
abbrev EE.r39 (e : EE) : Prop :=
  e.addr ≤ e.addrMask ∧ e.pcur ≤ e.pageMask ∧ e.pcnt ≤ e.pageSize ∧ e.bitCnt ≤ 8 ∧
  (e.blockMask ≤ e.addrMask ∧ e.addrMask < e.cfgSize) ∧ e.pageMask ≤ e.addrMask ∧
  (e.pcnt < e.pageSize → e.pcur = e.pcnt)

/-- The invariant of EE: its memory canonical, and once it is configured, the contract and R39. -/
abbrev EE.Inv (e : EE) : Prop := e.mem.wf ∧ (e.configured = true → e.legal ∧ e.r39)

/-- The invariant of FL: its memory canonical, and once it is configured, the registers Configure derives from the
variant (R40, R41, R42, R58). -/
abbrev FL.Inv (c : Config) (f : FL) : Prop :=
  f.mem.wf ∧ (f.configured = true →
    f.capacity = variantCapacity f.variant ∧ f.addrMask = BitVec.ofNat 32 (f.capacity - 1) ∧
    f.mem.len = f.capacity ∧ f.mfrId = c.mfrId ∧ f.devId = devIdOf c f.variant)

/-- A buffer the caller has ready is canonical. -/
abbrev offerWf (o : Option Memory) : Prop := (o.getD ⟨0, []⟩).wf

/-- The invariant of the machine. -/
abbrev State.Inv (s : State) : Prop :=
  s.ee.Inv ∧ FL.Inv s.config s.fl ∧ offerWf s.caller.eeOffer ∧ offerWf s.caller.flOffer

/-! ## Instructions -/

/-- The block an instruction acts on (R2). -/
def blockOf : Instr → Block
  | .ecfg _ _ _ => .ee
  | .sample _ _ _ => .ee
  | .erd => .ee
  | .enew => .ee
  | .esize => .ee
  | .fcfg _ => .fl
  | .busWrite _ _ => .fl
  | .busRead _ => .fl
  | .fnew => .fl
  | .fsize => .fl
  | .eeStart => .ee
  | .eeStop => .ee
  | .eeRise _ _ => .ee
  | .eeHighHoldLow => .ee
  | .eeHighHoldHigh => .ee
  | .eeLow _ _ _ => .ee
  | .eeShiftIn _ => .ee
  | .eeShiftOut => .ee
  | .eeWackSlot => .ee
  | .eeRackSlot _ => .ee
  | .eeCtrlMatch _ => .ee
  | .eeCtrlMismatch _ => .ee
  | .eeDetect _ => .ee
  | .eeAddress _ => .ee
  | .eeQuirkAbort _ => .ee
  | .eeDataWrite _ => .ee
  | .flIdExit1 _ => .fl
  | .flUnlock1 _ => .fl
  | .flC0Other _ _ => .fl
  | .flUnlock2 _ => .fl
  | .flC1Abort _ _ => .fl
  | .flEraseSetup _ => .fl
  | .flProgramSetup _ => .fl
  | .flIdEntry _ => .fl
  | .flIdExit3 _ => .fl
  | .flC2Abort _ _ => .fl
  | .flUnlock4 _ => .fl
  | .flUnlock5 _ => .fl
  | .flC3C4Abort _ _ => .fl
  | .flSectorErase _ => .fl
  | .flChipErase _ => .fl
  | .flEraseAbort _ _ => .fl
  | .flByteProgram _ _ => .fl
  | .flReadArray _ => .fl
  | .flReadMfrId => .fl
  | .flReadDevId => .fl
  | .flReadIdOther _ => .fl

/-- The two Configure operations (R206). -/
def isConfigure : Instr → Bool
  | .ecfg _ _ _ => true
  | .sample _ _ _ => false
  | .erd => false
  | .enew => false
  | .esize => false
  | .fcfg _ => true
  | .busWrite _ _ => false
  | .busRead _ => false
  | .fnew => false
  | .fsize => false
  | .eeStart => false
  | .eeStop => false
  | .eeRise _ _ => false
  | .eeHighHoldLow => false
  | .eeHighHoldHigh => false
  | .eeLow _ _ _ => false
  | .eeShiftIn _ => false
  | .eeShiftOut => false
  | .eeWackSlot => false
  | .eeRackSlot _ => false
  | .eeCtrlMatch _ => false
  | .eeCtrlMismatch _ => false
  | .eeDetect _ => false
  | .eeAddress _ => false
  | .eeQuirkAbort _ => false
  | .eeDataWrite _ => false
  | .flIdExit1 _ => false
  | .flUnlock1 _ => false
  | .flC0Other _ _ => false
  | .flUnlock2 _ => false
  | .flC1Abort _ _ => false
  | .flEraseSetup _ => false
  | .flProgramSetup _ => false
  | .flIdEntry _ => false
  | .flIdExit3 _ => false
  | .flC2Abort _ _ => false
  | .flUnlock4 _ => false
  | .flUnlock5 _ => false
  | .flC3C4Abort _ _ => false
  | .flSectorErase _ => false
  | .flChipErase _ => false
  | .flEraseAbort _ _ => false
  | .flByteProgram _ _ => false
  | .flReadArray _ => false
  | .flReadMfrId => false
  | .flReadDevId => false
  | .flReadIdOther _ => false

/-- The host operations of R15. -/
def isHostOperation : Instr → Bool
  | .ecfg _ _ _ => true
  | .sample _ _ _ => true
  | .erd => true
  | .enew => true
  | .esize => true
  | .fcfg _ => true
  | .busWrite _ _ => true
  | .busRead _ => true
  | .fnew => true
  | .fsize => true
  | .eeStart => false
  | .eeStop => false
  | .eeRise _ _ => false
  | .eeHighHoldLow => false
  | .eeHighHoldHigh => false
  | .eeLow _ _ _ => false
  | .eeShiftIn _ => false
  | .eeShiftOut => false
  | .eeWackSlot => false
  | .eeRackSlot _ => false
  | .eeCtrlMatch _ => false
  | .eeCtrlMismatch _ => false
  | .eeDetect _ => false
  | .eeAddress _ => false
  | .eeQuirkAbort _ => false
  | .eeDataWrite _ => false
  | .flIdExit1 _ => false
  | .flUnlock1 _ => false
  | .flC0Other _ _ => false
  | .flUnlock2 _ => false
  | .flC1Abort _ _ => false
  | .flEraseSetup _ => false
  | .flProgramSetup _ => false
  | .flIdEntry _ => false
  | .flIdExit3 _ => false
  | .flC2Abort _ _ => false
  | .flUnlock4 _ => false
  | .flUnlock5 _ => false
  | .flC3C4Abort _ _ => false
  | .flSectorErase _ => false
  | .flChipErase _ => false
  | .flEraseAbort _ _ => false
  | .flByteProgram _ _ => false
  | .flReadArray _ => false
  | .flReadMfrId => false
  | .flReadDevId => false
  | .flReadIdOther _ => false

/-- The operations that return a value (R106 to R108, R155, R156, R158, R159). -/
def isQuery : Instr → Bool
  | .ecfg _ _ _ => false
  | .sample _ _ _ => false
  | .erd => true
  | .enew => true
  | .esize => true
  | .fcfg _ => false
  | .busWrite _ _ => false
  | .busRead _ => true
  | .fnew => true
  | .fsize => true
  | .eeStart => false
  | .eeStop => false
  | .eeRise _ _ => false
  | .eeHighHoldLow => false
  | .eeHighHoldHigh => false
  | .eeLow _ _ _ => false
  | .eeShiftIn _ => false
  | .eeShiftOut => false
  | .eeWackSlot => false
  | .eeRackSlot _ => false
  | .eeCtrlMatch _ => false
  | .eeCtrlMismatch _ => false
  | .eeDetect _ => false
  | .eeAddress _ => false
  | .eeQuirkAbort _ => false
  | .eeDataWrite _ => false
  | .flIdExit1 _ => false
  | .flUnlock1 _ => false
  | .flC0Other _ _ => false
  | .flUnlock2 _ => false
  | .flC1Abort _ _ => false
  | .flEraseSetup _ => false
  | .flProgramSetup _ => false
  | .flIdEntry _ => false
  | .flIdExit3 _ => false
  | .flC2Abort _ _ => false
  | .flUnlock4 _ => false
  | .flUnlock5 _ => false
  | .flC3C4Abort _ _ => false
  | .flSectorErase _ => false
  | .flChipErase _ => false
  | .flEraseAbort _ _ => false
  | .flByteProgram _ _ => false
  | .flReadArray _ => false
  | .flReadMfrId => false
  | .flReadDevId => false
  | .flReadIdOther _ => false

/-- A sequence of instructions, one after the other, stopping at the first that answers no next state. -/
def execAll : List Instr → State → Answer
  | [], s => .next s
  | i :: is, s =>
    match exec i s with
    | .next t => execAll is t
    | .fault r => .fault r
    | .refused r => .refused r

/-! ## Rows in their order -/

/-- "The first row whose state and condition hold" (R161). -/
def firstRow : List (Bool × Instr) → Option Instr
  | [] => none
  | (holds, i) :: rows => if holds then some i else firstRow rows

/-- The rows of R134 for a finalised byte b, in their order. -/
def byteRows (c : Config) (st : EeState) (mode : DevMode) (pageSize pcnt : Nat) (b : Byte) : List (Bool × Instr) := [
  (decide (st = .control ∧ selOf b = c.select7), .eeCtrlMatch (rwOf b)),
  (decide (st = .control ∧ mode = .detectNoDeviceByte), .eeDetect b),
  (decide (st = .control), .eeCtrlMismatch b),
  (decide (st = .address), .eeAddress b),
  (decide (st = .data ∧ pageSize = 2 ∧ pcnt = 2), .eeQuirkAbort b),
  (decide (st = .data), .eeDataWrite b)]

/-- The seventeen rows of R161 for a bus cycle (A, D), in their order. -/
def cycleRows (c : Config) (cyc : FlCycle) (idMode : Bool) (a : Addr) (d : Byte) : List (Bool × Instr) :=
  let five := cmdAddr c a 0x5555
  let two := cmdAddr c a 0x2AAA
  [(decide (cyc = .c0 ∧ idMode ∧ d = c.cmdIdExit), .flIdExit1 a),
    (decide (cyc = .c0 ∧ five ∧ d = 0xAA), .flUnlock1 a),
    (decide (cyc = .c0), .flC0Other a d),
    (decide (cyc = .c1 ∧ two ∧ d = 0x55), .flUnlock2 a),
    (decide (cyc = .c1), .flC1Abort a d),
    (decide (cyc = .c2 ∧ five ∧ d = 0x80), .flEraseSetup a),
    (decide (cyc = .c2 ∧ five ∧ d = c.cmdProgram), .flProgramSetup a),
    (decide (cyc = .c2 ∧ five ∧ d = c.cmdIdEntry), .flIdEntry a),
    (decide (cyc = .c2 ∧ five ∧ d = c.cmdIdExit), .flIdExit3 a),
    (decide (cyc = .c2), .flC2Abort a d),
    (decide (cyc = .c3 ∧ five ∧ d = 0xAA), .flUnlock4 a),
    (decide (cyc = .c4 ∧ two ∧ d = 0x55), .flUnlock5 a),
    (decide (cyc = .c3 ∨ cyc = .c4), .flC3C4Abort a d),
    (decide (cyc = .erase ∧ d = 0x30), .flSectorErase a),
    (decide (cyc = .erase ∧ five ∧ d = 0x10), .flChipErase a),
    (decide (cyc = .erase), .flEraseAbort a d),
    (decide (cyc = .prog), .flByteProgram a d)]

/-! ## Buffers -/

/-- The byte a listing gives an address: its last entry for it, else what an unlisted address reads as (log 13). -/
def listedByte (bytes : List Host.Cell) (x : Nat) : Byte :=
  ((bytes.reverse.find? fun c => c.1 == x).map fun c => c.2).getD Config.unlistedByte

/-! ## Windows -/

/-- The address k bytes on from a in its aligned window of mask m: `(a & ~m) | ((a + k) & m)` (R144, R145). -/
def windowAddr (a m k : Nat) : Nat := clearBits a m ||| ((a + k) &&& m)

/-- The k-th address the commit stores to (R143): the latched address, advanced k times within the page. -/
def commitAddr (e : EE) (k : Nat) : Nat := (fun a => wrapInc a e.pageMask)^[k] e.addr

/-- The byte read at a is the same in both buffers. -/
abbrev sameByte (m m' : Memory) (a : Nat) : Prop := memRead m' a = memRead m a

/-! ## Pseudo-instructions (R93, R94) -/

/-- `S n`, the EE.Write with sample word n (R72). -/
def sampleOf (n : BitVec 3) : Instr := .sample (n.getLsbD 2) (n.getLsbD 1) (n.getLsbD 0)

/-- `S 6, S 7, S 6` for a 1, `S 4, S 5, S 4` for a 0 (R93). -/
def slotSeq (bit : Bool) : List Instr := if bit then [sampleOf 6, sampleOf 7, sampleOf 6] else [sampleOf 4, sampleOf 5, sampleOf 4]

/-- The bits of a byte, bit 7 first (R125). -/
def bitsMsbFirst (b : Byte) : List Bool := [7, 6, 5, 4, 3, 2, 1, 0].map fun i => b.getLsbD i

/-- `TX b`: eight slots and the released acknowledge slot (R93). -/
def txSeq (b : Byte) : List Instr := (bitsMsbFirst b).flatMap slotSeq ++ slotSeq true

/-- `UNLOCK` (R94). -/
def unlockSeq : List Instr := [.busWrite 0x5555 0xAA, .busWrite 0x2AAA 0x55]

/-- `PGM a, d` (R94), with the program code of the parameters. -/
def programSeq (c : Config) (a : Addr) (d : Byte) : List Instr := unlockSeq ++ [.busWrite 0x5555 c.cmdProgram, .busWrite a d]

/-- `UNLOCK; W 5555, 80; UNLOCK`: the five steps of the erase prefix (R43, R94). -/
def erasePrefixSeq : List Instr := unlockSeq ++ [.busWrite 0x5555 0x80] ++ unlockSeq

/-- `SERASE a` (R94). -/
def sectorEraseSeq (a : Addr) : List Instr := erasePrefixSeq ++ [.busWrite a 0x30]

/-- `CERASE` (R94). -/
def chipEraseSeq : List Instr := erasePrefixSeq ++ [.busWrite 0x5555 0x10]

/-- `IDENTER` (R94), with the entry code of the parameters. -/
def idEnterSeq (c : Config) : List Instr := unlockSeq ++ [.busWrite 0x5555 c.cmdIdEntry]

/-- `IDEXIT` (R94), with the exit code of the parameters. -/
def idExitSeq (c : Config) : List Instr := unlockSeq ++ [.busWrite 0x5555 c.cmdIdExit]

end Sys2Proof.Machine
end

