-- ==== Sys2Proof/Certificates/Slice0/Obligations.lean ====
section
/-! DEFINITION. The statements for the provers, each from a numbered rule of spec/. -/

open Sys2Proof
open Sys2Proof.Machine

/-! ## Encodings (30_encoding.md) -/

/-- Decoding the encoding of a well-formed instruction, of any row and level, gives it back with every operand, under
every parameter set that meets the constraint of R81. The byte packing of host words is the model's (log 2). -/
def Obligations.DecodeOfEncodeIsIdentity : Prop :=
  ∀ (c : Config) (i : Instr), c.wf → wellFormed c i = true → decode c (encode c i) = .ok i

/-- A host transaction word that decodes is the one word of its instruction: no bit of it is ignored (R71, R95). The
byte packing is the model's (log 2). -/
def Obligations.HostWordIsTheOnlyWord : Prop :=
  ∀ (c : Config) (bytes : List Byte) (i : Instr), decode c (.host bytes) = .ok i → encode c i = .host bytes

/-- Whatever decodes, at any level, is well-formed; a finalised byte decodes to the first row of R134 whose state and
condition hold, and a bus cycle to the first of R161, with the state fields each row is qualified by. -/
def Obligations.DecodedInstructionIsWellFormed : Prop :=
  ∀ (c : Config) (code : Code) (i : Instr), decode c code = .ok i →
    wellFormed c i = true ∧
    (∀ st mode pageSize pcnt b, code = .frameByte st mode pageSize pcnt b →
      firstRow (byteRows c st mode pageSize pcnt b) = some i) ∧
    ∀ cyc idMode w, code = .cycle cyc idMode w → firstRow (cycleRows c cyc idMode (busAddr w) (busData w)) = some i

/-- R73: the value of the detector index, and the six rows over its sixteen values. -/
def Obligations.DetectorRowsPartitionTheIndex : Prop :=
  (∀ prevScl prevSda scl sda : Bool, (detectorIndex prevScl prevSda scl sda).toNat =
    8 * prevScl.toNat + 4 * prevSda.toNat + 2 * scl.toNat + sda.toNat) ∧
  decodeDetector (detectorIndex true true true false) = .eeStart ∧
  decodeDetector (detectorIndex true false true true) = .eeStop ∧
  (∀ x y : Bool, decodeDetector (detectorIndex false x true y) = .eeRise x y) ∧
  decodeDetector (detectorIndex true false true false) = .eeHighHoldLow ∧
  decodeDetector (detectorIndex true true true true) = .eeHighHoldHigh ∧
  ∀ x y z : Bool, decodeDetector (detectorIndex x y false z) = .eeLow x y z

/-- Words written out from R71 to R82 decode to the instructions they stand for, under the spec's parameters. How a
host word is packed into bytes is the model's choice (log 2), and that 0xA1 is a matching control byte rests on the
value of SELECT7, which is PRESUMED (log 6). -/
def Obligations.SpecWordsDecode : Prop :=
  decode Config.spec (.host [0x00, 0x07, 0x01]) = .ok (.ecfg 128 4 (some .noDeviceByte)) ∧
  decode Config.spec (.host [0x01, 0x05]) = .ok (.sample true false true) ∧
  decode Config.spec (.host [0x09, 0xAA, 0x55, 0x55, 0x00, 0x00]) = .ok (.busWrite 0x5555 0xAA) ∧
  decode Config.spec (.frameByte .control .needsDeviceByte 4 0 0xA1) = .ok (.eeCtrlMatch true) ∧
  decode Config.spec (.cycle .c0 false 0x00005555AA) = .ok (.flUnlock1 0x5555) ∧
  decode Config.spec (.cycle .erase false 0x0000555510) = .ok (.flChipErase 0x5555) ∧
  decode Config.spec (.read true 1) = .ok .flReadDevId

/-! ## The step (R14, R68, R201, R202) -/

/-- A step runs the decoded operation: when the host's next call decodes to i, the step is exec of i with that call
taken off the pending ones; a word that names no operation has no meaning (R71). The pending list is the model's
(log 1). -/
def Obligations.StepRunsTheDecodedCall : Prop :=
  ∀ (s : State) (bytes : List Byte) (rest : List CallerEvent), s.caller.pending = .call bytes :: rest →
    (∀ i, decode s.config (.host bytes) = .ok i → wellFormed s.config i = true ∧ step s = exec i (s.withPending rest)) ∧
    (∀ e, decode s.config (.host bytes) = .error e → step s = .refused (.noOperation e))

/-- The other events of the caller: with none left nothing happens (R205); a Configure with any operands (R96); a
buffer made ready for the next Configure (R212), which leaves the offer with that length and at each of its addresses
the last byte listed for it (0xFF where none is, log 13), and changes nothing else; the host's write of one byte of a
bound buffer, which changes that byte and nothing else (R202). The events are the model's (log 1, 14, 15, 16, 21). -/
def Obligations.StepPerformsTheCallersOtherEvents : Prop :=
  ∀ (s : State) (rest : List CallerEvent),
    (s.caller.pending = [] → step s = .next s) ∧
    (∀ size pageSize mode, s.caller.pending = .configureEe size pageSize mode :: rest →
      step s = exec (.ecfg size pageSize mode) (s.withPending rest)) ∧
    (∀ len bytes, s.caller.pending = .offerEe len bytes :: rest →
      ∃ m, step s = .next { s with caller := { s.caller with pending := rest, eeOffer := some m } } ∧ m.wf ∧
        m.len = len ∧ ∀ x, memRead m x = if x < len then some (listedByte bytes x) else none) ∧
    (∀ len bytes, s.caller.pending = .offerFl len bytes :: rest →
      ∃ m, step s = .next { s with caller := { s.caller with pending := rest, flOffer := some m } } ∧ m.wf ∧
        m.len = len ∧ ∀ x, memRead m x = if x < len then some (listedByte bytes x) else none) ∧
    (∀ a v, s.caller.pending = .pokeEe a v :: rest → s.ee.mem.wf → a < s.ee.mem.len →
      ∃ m, step s = .next ((s.withPending rest).withEe { s.ee with mem := m }) ∧ m.len = s.ee.mem.len ∧
        ∀ x, memRead m x = if x = a then some v else memRead s.ee.mem x) ∧
    (∀ a v, s.caller.pending = .pokeFl a v :: rest → s.fl.mem.wf → a < s.fl.mem.len →
      ∃ m, step s = .next ((s.withPending rest).withFl { s.fl with mem := m }) ∧ m.len = s.fl.mem.len ∧
        ∀ x, memRead m x = if x = a then some v else memRead s.fl.mem x)

/-- No step writes a parameter of R7. -/
def Obligations.StepKeepsTheParameters : Prop :=
  ∀ s t : State, step s = .next t → t.config = s.config

/-! ## Before the first Configure, and the invariant -/

/-- R209: before its first Configure a block has `configured == 0` and `fault == none`. -/
def Obligations.ResetBlocksAreUnconfigured : Prop :=
  State.reset.ee.configured = false ∧ State.reset.ee.fault = none ∧
  State.reset.fl.configured = false ∧ State.reset.fl.fault = none

/-- The invariant of R39, R41 and the canonical memories holds before the first Configure. -/
def Obligations.ResetMeetsTheInvariant : Prop := State.reset.Inv

/-- From every state that meets it, every step that answers a next state keeps the invariant: the registers stay in
the ranges of R39, the derived registers of Configure stay as R40 to R42 give them, and both memories stay
canonical. -/
def Obligations.StepKeepsTheInvariant : Prop :=
  ∀ s t : State, s.Inv → step s = .next t → t.Inv

/-- R189, R57 and R60: on live blocks that meet the invariant no host operation but a Configure stops or raises a model
fault, whatever its operands: every memory access is in bounds. -/
def Obligations.NoHostOperationFaultsOnLiveBlocks : Prop :=
  ∀ (s : State) (i : Instr), s.Inv → s.ee.live → s.fl.live → isHostOperation i = true → isConfigure i = false →
    ∃ t, exec i s = .next t ∧ t.ee.live ∧ t.fl.live

/-! ## Configure and the model fault -/

/-- EE.Configure, whole (R99): stuck on a faulted block; the contract checks in their order, each raising its reason
with every other effect discarded; otherwise every register at its reset value, the buffer bound with its contents
unchanged. How `buf` is given (an offered buffer, else the one bound) is the model's (log 14); the drawn values are
free (log 9). -/
def Obligations.EeConfigureFollowsItsContract : Prop :=
  ∀ (s : State) (size pageSize : Nat) (mode : Option DevMode),
    let raised (r : ModelFault) : Prop :=
      exec (.ecfg size pageSize mode) s = .next { s with ee := { s.ee with fault := some r } }
    let buf := s.caller.eeOffer.getD s.ee.mem
    (∀ r, s.ee.fault = some r → exec (.ecfg size pageSize mode) s = .fault (.eeStuck r)) ∧
    (s.ee.fault = none →
      ((¬∃ k, 1 ≤ k ∧ size = 2 ^ k) → raised .eeSizeNotPow2) ∧
      ((∃ k, 1 ≤ k ∧ size = 2 ^ k) →
        (pageSize ∉ [2, 4, 8, 16] → raised .eePageSize) ∧
        (pageSize ∈ [2, 4, 8, 16] →
          (size < pageSize → raised .eePageGtSize) ∧
          (pageSize ≤ size → mode = none → raised .eeMode) ∧
          ∀ m, pageSize ≤ size → mode = some m →
            (m = .detectNoDeviceByte → size < 128 → raised .eeDetectSmall) ∧
            ((m = .detectNoDeviceByte → 128 ≤ size) →
              (buf.len ≠ size → raised .bufferSize) ∧
              (buf.len = size → ∀ n, s.config.eeMaxSize = some n → n < size → raised .eeSizeLimit) ∧
              (buf.len = size → (∀ n, s.config.eeMaxSize = some n → size ≤ n) →
                ∃ e : EE, exec (.ecfg size pageSize mode) s =
                    .next { s with ee := e, caller := { s.caller with eeOffer := none } } ∧
                  e.mem = buf ∧ e.cfgSize = size ∧ e.pageSize = pageSize ∧ e.pageMask = pageSize - 1 ∧
                  e.devMode = m ∧ e.addrMask = size - 1 ∧ e.blockMask = min 256 size - 1 ∧ e.st = .standby ∧
                  e.dir = .write ∧ e.prevScl = Config.eeResetLine s.ee.draws ∧
                  e.prevSda = Config.eeResetLine (s.ee.draws + 1) ∧ e.shreg = 0 ∧ e.bitCnt = 0 ∧ e.addr = 0 ∧
                  (∀ i : Fin 16, e.pbuf[i] = Config.eePbufReset (s.ee.draws + 2 + i)) ∧ e.pcur = 0 ∧ e.pcnt = 0 ∧
                  e.out = true ∧ e.newData = false ∧ e.configured = true ∧ e.fault = none ∧
                  e.draws = s.ee.draws + 18)))))

/-- FL.Configure, whole (R149): stuck on a faulted block; the two contract checks; otherwise every register at its
reset value, the buffer bound with its contents unchanged. How `buf` is given is the model's (log 14). -/
def Obligations.FlConfigureFollowsItsContract : Prop :=
  ∀ (s : State) (variant : Option Variant),
    let raised (r : ModelFault) : Prop :=
      exec (.fcfg variant) s = .next { s with fl := { s.fl with fault := some r } }
    let buf := s.caller.flOffer.getD s.fl.mem
    (∀ r, s.fl.fault = some r → exec (.fcfg variant) s = .fault (.flStuck r)) ∧
    (s.fl.fault = none →
      (variant = none → raised .flVariant) ∧
      ∀ v, variant = some v →
        (buf.len ≠ 4096 * sectors v → raised .bufferSize) ∧
        (buf.len = 4096 * sectors v →
          exec (.fcfg variant) s = .next { s with
            caller := { s.caller with flOffer := none }
            fl := {
              mem := buf, variant := v, capacity := 4096 * sectors v
              addrMask := BitVec.ofNat 32 (4096 * sectors v - 1)
              mfrId := s.config.mfrId, devId := devIdOf s.config v
              cyc := .c0, idMode := false, newData := false, configured := true, fault := none
              draws := s.fl.draws } }))

/-- R109 and R160: every row of a block but its Configure, met before the block's first Configure, raises
NOT_CONFIGURED and does nothing else. That a row below the host operations is under the check too is the model's
(log 3). -/
def Obligations.UnconfiguredBlockRaisesNotConfigured : Prop :=
  ∀ (s : State) (i : Instr), isConfigure i = false →
    (blockOf i = .ee → s.ee.fault = none → s.ee.configured = false →
      exec i s = .next { s with ee := { s.ee with fault := some .notConfigured } }) ∧
    (blockOf i = .fl → s.fl.fault = none → s.fl.configured = false →
      exec i s = .next { s with fl := { s.fl with fault := some .notConfigured } })

/-- R187: on a block whose fault register is set every instruction is stuck. That "takes no step" is a fault outcome is
the model's reading (log 11), and that this outcome ends the whole run, the host's later calls to the other block with
it, is the model's choice (log 28). -/
def Obligations.FaultedBlockIsStuck : Prop :=
  ∀ (s : State) (i : Instr) (r : ModelFault),
    (blockOf i = .ee → s.ee.fault = some r → exec i s = .fault (.eeStuck r)) ∧
    (blockOf i = .fl → s.fl.fault = some r → exec i s = .fault (.flStuck r))

/-- R2: an instruction of one block leaves the other block as it was, and its answer does not depend on it. -/
def Obligations.BlocksAreIndependent : Prop :=
  ∀ (s : State) (i : Instr),
    (blockOf i = .ee → ∀ f : FL, exec i (s.withFl f) =
      (match exec i s with
        | .next t => .next (t.withFl f)
        | .fault r => .fault r
        | .refused r => .refused r) ∧ ∀ t, exec i s = .next t → t.fl = s.fl) ∧
    (blockOf i = .fl → ∀ e : EE, exec i (s.withEe e) =
      (match exec i s with
        | .next t => .next (t.withEe e)
        | .fault r => .fault r
        | .refused r => .refused r) ∧ ∀ t, exec i s = .next t → t.ee = s.ee)

/-! ## EE: queries and the sample (40_eeprom_interface.md) -/

/-- R106, R107, R108: each EE query returns its register and changes nothing. That the value is recorded in the
caller's list is the model's (log 18). -/
def Obligations.EeQueriesReturnTheirRegister : Prop :=
  ∀ s : State, s.ee.live →
    exec .erd s = .next { s with caller := { s.caller with returned := .level s.ee.out :: s.caller.returned } } ∧
    exec .enew s = .next { s with caller := { s.caller with returned := .flag s.ee.newData :: s.caller.returned } } ∧
    exec .esize s = .next { s with caller := { s.caller with returned := .size s.ee.cfgSize :: s.caller.returned } }

/-- R101: on a live block an EE.Write is the newData clear, the output default of we = 0, the row its detector index
selects, and the update of the previous lines, in that order. -/
def Obligations.SampleRunsItsDetectorRow : Prop :=
  ∀ (s : State) (we sda scl : Bool), s.ee.live →
    exec (.sample we sda scl) s =
      match exec (decodeDetector (detectorIndex s.ee.prevScl s.ee.prevSda scl sda))
          (s.withEe { s.ee with newData := false, out := if we then s.ee.out else true }) with
      | .next t => .next (t.withEe { t.ee with prevScl := scl, prevSda := sda })
      | .fault r => .fault r
      | .refused r => .refused r

/-- R112 and R116: a sample of class NONE, and a rising edge in STANDBY, have no effect beyond R102, R104 and R103;
the rows LOW and HIGH-HOLD have none of their own. -/
def Obligations.SampleWithoutConditionOnlyUpdatesTheLines : Prop :=
  ∀ (s : State), s.ee.live →
    exec .eeHighHoldLow s = .next s ∧ exec .eeHighHoldHigh s = .next s ∧
    (∀ x y z, exec (.eeLow x y z) s = .next s) ∧
    ∀ we sda scl : Bool,
      (scl = false ∨ (s.ee.prevScl = true ∧ scl = true ∧ sda = s.ee.prevSda) ∨
        (s.ee.prevScl = false ∧ scl = true ∧ s.ee.st = .standby)) →
      exec (.sample we sda scl) s = .next (s.withEe { s.ee with
        newData := false, out := if we then s.ee.out else true, prevScl := scl, prevSda := sda })

/-- R211: one idle sample in STANDBY leaves STANDBY, with both previous lines high, whatever the lines were, and writes
no memory. -/
def Obligations.IdleSampleDefinesTheLines : Prop :=
  ∀ (s : State) (we : Bool), s.ee.live → s.ee.st = .standby →
    ∃ t, exec (.sample we true true) s = .next t ∧ t.ee.st = .standby ∧ t.ee.prevScl = true ∧ t.ee.prevSda = true ∧
      t.ee.mem = s.ee.mem ∧ t.ee.newData = false

/-! ## EE: conditions (41_eeprom_conditions.md) -/

/-- R113: the Start action, accepted in every state; nothing else changes, the buffered bytes are lost. -/
def Obligations.StartEntersTheFirstFrame : Prop :=
  ∀ s : State, s.ee.live →
    exec .eeStart s = .next (s.withEe { s.ee with
      st := if s.ee.devMode = .noDeviceByte then .address else .control
      bitCnt := 0, shreg := 0, pcnt := 0, pcur := 0, out := true })

/-- R114, R121: a Stop outside DATA with WRITE, or with an empty page buffer, only returns to STANDBY. -/
def Obligations.StopWithoutPageDataOnlyReturnsToStandby : Prop :=
  ∀ s : State, s.ee.live → (s.ee.st ≠ .data ∨ s.ee.dir ≠ .write ∨ s.ee.pcnt = 0) →
    exec .eeStop s = .next (s.withEe { s.ee with st := .standby, bitCnt := 0, pcnt := 0, pcur := 0, out := true })

/-- R143, run by the Stop of R114: the buffered bytes are stored from the latched address, wrapping within the page;
every other byte of memory and every other register is unchanged but those the Stop and the commit write. -/
def Obligations.StopCommitsThePage : Prop :=
  ∀ s : State, s.Inv → s.ee.live → s.ee.st = .data → s.ee.dir = .write → 0 < s.ee.pcnt →
    ∃ m : Memory,
      exec .eeStop s = .next (s.withEe { s.ee with
        mem := m, addr := commitAddr s.ee s.ee.pcnt, newData := true
        st := .standby, bitCnt := 0, pcnt := 0, pcur := 0, out := true }) ∧
      m.len = s.ee.mem.len ∧
      (∀ k, k < s.ee.pcnt → memRead m (commitAddr s.ee k) = s.ee.pbuf[k]? ∧ commitAddr s.ee k ≤ s.ee.addrMask ∧
        clearBits (commitAddr s.ee k) s.ee.pageMask = clearBits s.ee.addr s.ee.pageMask) ∧
      ∀ a, (∀ k, k < s.ee.pcnt → a ≠ commitAddr s.ee k) → sameByte s.ee.mem m a

/-- R56 and R36: an EE.Write changes a byte of memory only at a Stop that ends a write transaction in DATA with at
least one buffered byte, and that is exactly when it leaves newData set. -/
def Obligations.MemoryAndNewDataChangeOnlyAtACommittingStop : Prop :=
  ∀ (s t : State) (we sda scl : Bool), s.ee.live → exec (.sample we sda scl) s = .next t →
    let committing := s.ee.prevScl = true ∧ s.ee.prevSda = false ∧ scl = true ∧ sda = true ∧
      s.ee.st = .data ∧ s.ee.dir = .write ∧ 0 < s.ee.pcnt
    (t.ee.mem ≠ s.ee.mem → committing) ∧ (t.ee.newData = true ↔ committing)

/-- R122: the protocol state after an EE.Write, by the class of the sample: the complete table. -/
def Obligations.ProtocolStateFollowsTheTable : Prop :=
  ∀ (s t : State) (we sda scl : Bool), s.ee.live → exec (.sample we sda scl) s = .next t →
    let k := detectorIndex s.ee.prevScl s.ee.prevSda scl sda
    let start := k = 0b1110
    let stop := k = 0b1011
    let slot9 := s.ee.prevScl = false ∧ scl = true ∧ 8 ≤ s.ee.bitCnt ∧ ¬(s.ee.st = .data ∧ s.ee.dir = .read)
    let selected := selOf s.ee.shreg = s.config.select7
    (start → t.ee.st = if s.ee.devMode = .noDeviceByte then .address else .control) ∧
    (stop → t.ee.st = .standby) ∧
    (slot9 → s.ee.st = .control → selected → t.ee.st = .address) ∧
    (slot9 → s.ee.st = .control → ¬selected → s.ee.devMode ≠ .detectNoDeviceByte → t.ee.st = .standby) ∧
    (slot9 → s.ee.st = .control → ¬selected → s.ee.devMode = .detectNoDeviceByte →
      t.ee.st = .data ∧ t.ee.devMode = .noDeviceByte) ∧
    (slot9 → s.ee.st = .address → t.ee.st = .data) ∧
    (slot9 → s.ee.st = .data → t.ee.st = if s.ee.pageSize = 2 ∧ s.ee.pcnt = 2 then .standby else .data) ∧
    (¬start → ¬stop → (slot9 → s.ee.st = .standby) → t.ee.st = s.ee.st)

/-! ## EE: slots and bytes (42_eeprom_bytes.md) -/

/-- R127: a rising edge outside STANDBY runs the slot row that (EE.st, EE.dir, EE.bitCnt) select; in STANDBY it does
nothing (R116). -/
def Obligations.RisingEdgeRunsItsSlotRow : Prop :=
  ∀ (s : State) (prevSda sda : Bool), s.ee.live →
    (s.ee.st = .standby → exec (.eeRise prevSda sda) s = .next s) ∧
    (s.ee.st = .data → s.ee.dir = .read → s.ee.bitCnt < 8 → exec (.eeRise prevSda sda) s = exec .eeShiftOut s) ∧
    (s.ee.st = .data → s.ee.dir = .read → 8 ≤ s.ee.bitCnt →
      exec (.eeRise prevSda sda) s = exec (.eeRackSlot sda) s) ∧
    (s.ee.st ≠ .standby → ¬(s.ee.st = .data ∧ s.ee.dir = .read) → s.ee.bitCnt < 8 →
      exec (.eeRise prevSda sda) s = exec (.eeShiftIn sda) s) ∧
    (s.ee.st ≠ .standby → ¬(s.ee.st = .data ∧ s.ee.dir = .read) → 8 ≤ s.ee.bitCnt →
      exec (.eeRise prevSda sda) s = exec .eeWackSlot s)

/-- R129: a write-direction slot shifts the line level in at the low end and releases the line. -/
def Obligations.ShiftInTakesOneBit : Prop :=
  ∀ (s : State) (sda : Bool), s.ee.live →
    ∃ b : Byte, b.toNat = (2 * s.ee.shreg.toNat + sda.toNat) % 256 ∧
      exec (.eeShiftIn sda) s = .next (s.withEe { s.ee with shreg := b, bitCnt := s.ee.bitCnt + 1, out := true })

/-- R131: a read-direction slot loads the addressed byte at slot 1, drives bit 7 and shifts it out. -/
def Obligations.ShiftOutDrivesOneBit : Prop :=
  ∀ s : State, s.Inv → s.ee.live →
    ∃ b : Byte, (s.ee.bitCnt = 0 → memRead s.ee.mem s.ee.addr = some b) ∧ (s.ee.bitCnt ≠ 0 → b = s.ee.shreg) ∧
      exec .eeShiftOut s = .next (s.withEe { s.ee with
        out := b.getLsbD 7, shreg := b <<< 1, bitCnt := s.ee.bitCnt + 1 })

/-- R133: at slot 9 of a read frame the device releases the line; an ACK (0) advances the address within its block, a
NACK (1) leaves it. -/
def Obligations.ReadAckSlotAdvancesOnAck : Prop :=
  ∀ s : State, s.ee.live →
    exec (.eeRackSlot false) s = .next (s.withEe { s.ee with
      out := true, addr := wrapInc s.ee.addr s.ee.blockMask, bitCnt := 0 }) ∧
    exec (.eeRackSlot true) s = .next (s.withEe { s.ee with out := true, bitCnt := 0 })

/-- R130 and R134: slot 9 of a write frame sets bitCnt to 0 and runs the byte row that the state and the byte select. -/
def Obligations.WriteAckSlotRunsItsByteRow : Prop :=
  ∀ s : State, s.ee.live →
    let b := s.ee.shreg
    let s0 := s.withEe { s.ee with bitCnt := 0 }
    (s.ee.st = .control → selOf b = s.config.select7 → exec .eeWackSlot s = exec (.eeCtrlMatch (rwOf b)) s0) ∧
    (s.ee.st = .control → selOf b ≠ s.config.select7 → s.ee.devMode = .detectNoDeviceByte →
      exec .eeWackSlot s = exec (.eeDetect b) s0) ∧
    (s.ee.st = .control → selOf b ≠ s.config.select7 → s.ee.devMode ≠ .detectNoDeviceByte →
      exec .eeWackSlot s = exec (.eeCtrlMismatch b) s0) ∧
    (s.ee.st = .address → exec .eeWackSlot s = exec (.eeAddress b) s0) ∧
    (s.ee.st = .data → s.ee.pageSize = 2 → s.ee.pcnt = 2 → exec .eeWackSlot s = exec (.eeQuirkAbort b) s0) ∧
    (s.ee.st = .data → ¬(s.ee.pageSize = 2 ∧ s.ee.pcnt = 2) → exec .eeWackSlot s = exec (.eeDataWrite b) s0)

/-- R135: a matched control byte sets the direction from its low bit, goes to ADDRESS and is acknowledged. -/
def Obligations.ControlMatchSetsTheDirection : Prop :=
  ∀ (s : State) (rw : Bool), s.ee.live →
    exec (.eeCtrlMatch rw) s = .next (s.withEe { s.ee with
      dir := if rw = s.config.rwRead then .read else .write, st := .address, out := false })

/-- R136: a mismatching control byte in NEEDS mode returns to STANDBY with NACK. -/
def Obligations.ControlMismatchReturnsToStandby : Prop :=
  ∀ (s : State) (b : Byte), s.ee.live →
    exec (.eeCtrlMismatch b) s = .next (s.withEe { s.ee with st := .standby, out := true })

/-- R137: detection: NONE mode, 128-byte masks, and the same byte latched as the address of the transaction, in the
direction NODEV_DIR gives it (R139). -/
def Obligations.DetectionReprocessesTheByte : Prop :=
  ∀ (s : State) (b : Byte), s.ee.live →
    exec (.eeDetect b) s = .next (s.withEe { s.ee with
      devMode := .noDeviceByte, addrMask := 127, blockMask := 127
      dir := nodevDir s.config b, addr := b.toNat % 128, st := .data, pcnt := 0, pcur := 0, out := false })

/-- R138 and R139: the address byte is masked and latched; in NONE mode NODEV_DIR gives the direction, which is WRITE
for 0x00. -/
def Obligations.AddressByteIsLatched : Prop :=
  ∀ (s : State) (b : Byte), s.ee.live →
    exec (.eeAddress b) s = .next (s.withEe { s.ee with
      dir := if s.ee.devMode = .noDeviceByte then nodevDir s.config b else s.ee.dir
      addr := b.toNat &&& s.ee.addrMask, st := .data, pcnt := 0, pcur := 0, out := false }) ∧
    nodevDir s.config 0 = .write

/-- R140: an accepted data byte goes into the page buffer at the cursor, which wraps within the page, and is
acknowledged; no memory is written. -/
def Obligations.DataByteIsBuffered : Prop :=
  ∀ (s : State) (b : Byte), s.Inv → s.ee.live →
    ∃ p : Vector Byte 16,
      exec (.eeDataWrite b) s = .next (s.withEe { s.ee with
        pbuf := p, pcur := (s.ee.pcur + 1) % s.ee.pageSize, pcnt := min (s.ee.pcnt + 1) s.ee.pageSize
        out := false }) ∧
      p[s.ee.pcur]? = some b ∧ ∀ k, k ≠ s.ee.pcur → p[k]? = s.ee.pbuf[k]?

/-- R141: the third data byte of a 2-byte page aborts the transaction with NACK and discards the two buffered ones;
with any other page size slot 9 in DATA with WRITE stays in DATA. -/
def Obligations.ThirdByteOfTwoBytePageAborts : Prop :=
  ∀ (s : State), s.ee.live →
    (∀ b, exec (.eeQuirkAbort b) s = .next (s.withEe { s.ee with st := .standby, pcnt := 0, pcur := 0, out := true })) ∧
    (s.ee.st = .data → s.ee.pageSize = 2 → s.ee.pcnt = 2 →
      exec .eeWackSlot s = .next (s.withEe { s.ee with
        bitCnt := 0, st := .standby, pcnt := 0, pcur := 0, out := true })) ∧
    (s.ee.st = .data → s.ee.pageSize ≠ 2 → ∃ t, exec .eeWackSlot s = .next t ∧ t.ee.st = .data ∧ t.ee.out = false)

/-- R147: detection is one-shot: in NONE mode no EE instruction but Configure leaves NONE mode. -/
def Obligations.NoDeviceModeLastsUntilConfigure : Prop :=
  ∀ (s t : State) (i : Instr), blockOf i = .ee → isConfigure i = false → s.ee.devMode = .noDeviceByte →
    exec i s = .next t → t.ee.devMode = .noDeviceByte

/-- R10: wrapInc advances by one and keeps every bit above the window. -/
def Obligations.WrapIncStaysInItsWindow : Prop :=
  ∀ a k : Nat, wrapInc a (2 ^ k - 1) = a / 2 ^ k * 2 ^ k + (a + 1) % 2 ^ k ∧
    wrapInc a (2 ^ k - 1) / 2 ^ k = a / 2 ^ k

/-- R142: after n accepted data bytes of one transaction the cursor is n mod pageSize and the count min(n, pageSize);
only the page buffer, the cursor, the count and the output have changed. -/
def Obligations.PageCursorCountsModuloThePage : Prop :=
  ∀ (s : State) (bs : List Byte), s.Inv → s.ee.live → s.ee.pcur = 0 → s.ee.pcnt = 0 →
    ∃ p : Vector Byte 16, ∃ o : Bool,
      execAll (bs.map .eeDataWrite) s = .next (s.withEe { s.ee with
        pbuf := p, pcur := bs.length % s.ee.pageSize, pcnt := min bs.length s.ee.pageSize, out := o })

/-- R144, the write-transaction law: after the accepted bytes b_0 .. b_(n-1) and the Stop, memory holds at each
`a_k = (s & ~pageMask) | ((s + k) & pageMask)` the last byte sent for that address, every other byte is unchanged,
and newData is set. The bytes are rows run alone (log 3): with pageSize 2 no transaction accepts more than 2 bytes,
since the third aborts it (R141; R144 asks for no quirk abort), so for longer lists of a 2-byte page the statement is
about the rows and not about a transaction. -/
def Obligations.WriteTransactionStoresItsBytes : Prop :=
  ∀ (s : State) (bs : List Byte), s.Inv → s.ee.live → s.ee.st = .data → s.ee.dir = .write →
    s.ee.pcur = 0 → s.ee.pcnt = 0 → bs ≠ [] →
    ∃ t, execAll (bs.map .eeDataWrite ++ [.eeStop]) s = .next t ∧ t.ee.newData = true ∧ t.ee.st = .standby ∧
      (∀ k, k < bs.length →
        (∀ j, k < j → j < bs.length →
          windowAddr s.ee.addr s.ee.pageMask j ≠ windowAddr s.ee.addr s.ee.pageMask k) →
        memRead t.ee.mem (windowAddr s.ee.addr s.ee.pageMask k) = bs[k]?) ∧
      ∀ a, (∀ k, k < bs.length → a ≠ windowAddr s.ee.addr s.ee.pageMask k) → sameByte s.ee.mem t.ee.mem a

/-- R125, R131: the eight slots of a read frame drive the addressed byte, most significant bit first, as EE.Read
shows it after each. -/
def Obligations.ReadFrameSendsTheByteMsbFirst : Prop :=
  ∀ s : State, s.Inv → s.ee.live → s.ee.bitCnt = 0 →
    ∃ (b : Byte) (t : State), memRead s.ee.mem s.ee.addr = some b ∧
      execAll ((List.replicate 8 [Instr.eeShiftOut, Instr.erd]).flatten) s = .next t ∧
      t.caller.returned = ((bitsMsbFirst b).map Returned.level).reverse ++ s.caller.returned ∧
      t.ee = { s.ee with out := b.getLsbD 0, shreg := 0, bitCnt := 8 }

/-- R145, the sequential-read law: after r acknowledged read frames the address is r on within its block, memory is
unchanged, and the next frame starts. -/
def Obligations.SequentialReadStaysInItsBlock : Prop :=
  ∀ (s : State) (r : Nat), s.Inv → s.ee.live → s.ee.bitCnt = 0 →
    ∃ t, execAll ((List.replicate r (List.replicate 8 Instr.eeShiftOut ++ [.eeRackSlot false])).flatten) s = .next t ∧
      t.ee.addr = windowAddr s.ee.addr s.ee.blockMask r ∧ t.ee.mem = s.ee.mem ∧ t.ee.bitCnt = 0 ∧
      t.ee.st = s.ee.st ∧ t.ee.dir = s.ee.dir

/-- R93, R129, R130: the 27 samples of TX b in a write-direction frame, sent most significant bit first, are one slot
9 with b in the shift register, whatever the register held before. -/
def Obligations.TransmittedByteIsFinalised : Prop :=
  ∀ (s : State) (b : Byte), s.ee.live → s.ee.st ≠ .standby → ¬(s.ee.st = .data ∧ s.ee.dir = .read) →
    s.ee.bitCnt = 0 →
    execAll (txSeq b) s = exec .eeWackSlot (s.withEe { s.ee with
      shreg := b, bitCnt := 8, newData := false, out := true, prevScl := false, prevSda := true })

/-! ## FL: the host interface (45_flash_interface.md) -/

/-- R158, R159: each FL query returns its register and changes nothing. That the value is recorded in the caller's
list is the model's (log 18). -/
def Obligations.FlQueriesReturnTheirRegister : Prop :=
  ∀ s : State, s.fl.live →
    exec .fnew s = .next { s with caller := { s.caller with returned := .flag s.fl.newData :: s.caller.returned } } ∧
    exec .fsize s = .next { s with caller := { s.caller with returned := .size s.fl.capacity :: s.caller.returned } }

/-- R155, R156: FL.Read outside ID mode returns the byte at A & addrMask; in ID mode addresses 0 and 1, unmasked,
return the identifiers and any other address a fresh free value (log 10). The rows of the opcode table say the same.
The number of draws is the model's own field. -/
def Obligations.FlReadReturnsTheByteOrTheIdentifier : Prop :=
  ∀ (s : State) (a : Addr), s.Inv → s.fl.live →
    let answers (i : Instr) (b : Byte) : Prop :=
      exec i s = .next { s with caller := { s.caller with returned := .byte b :: s.caller.returned } }
    (s.fl.idMode = false → ∃ b, memRead s.fl.mem (a &&& s.fl.addrMask).toNat = some b ∧
      answers (.flReadArray a) b ∧ answers (.busRead a) b) ∧
    answers .flReadMfrId s.fl.mfrId ∧ answers .flReadDevId s.fl.devId ∧
    (s.fl.idMode = true → answers (.busRead 0) s.fl.mfrId ∧ answers (.busRead 1) s.fl.devId) ∧
    (s.fl.idMode = true → a ≠ 0 → a ≠ 1 → exec (.busRead a) s = exec (.flReadIdOther a) s) ∧
    exec (.flReadIdOther a) s = .next { s with
      fl := { s.fl with draws := s.fl.draws + 1 }
      caller := { s.caller with returned := .byte (Config.idOther s.fl.draws) :: s.caller.returned } }

/-- R154, R185: a sequence of bus writes with FL.Reads and FL queries inserted anywhere has the same effect as without
them. The two end states differ in two fields of the model's own only: the count of draws (log 10) and the list of
returned values (log 18). From a state that meets the invariant the whole sequence completes. -/
def Obligations.FlReadsDoNotDisturbASequence : Prop :=
  ∀ (s : State) (l : List Instr), s.fl.live →
    (∀ i ∈ l, blockOf i = .fl ∧ isHostOperation i = true ∧ isConfigure i = false) →
    (∀ t, execAll l s = .next t → ∃ u, execAll (l.filter fun i => !isQuery i) s = .next u ∧
      t = { u with
        fl := { u.fl with draws := t.fl.draws }
        caller := { u.caller with returned := t.caller.returned } }) ∧
    (s.Inv → ∃ t, execAll l s = .next t)

/-- R151, R152, R161: an FL.Write clears newData and runs the first row of the table that holds. -/
def Obligations.BusWriteRunsItsCycleRow : Prop :=
  ∀ (s : State) (a : Addr) (d : Byte), s.fl.live →
    exec (.busWrite a d) s =
      exec (decodeCycle s.config s.fl.cyc s.fl.idMode a d) (s.withFl { s.fl with newData := false })

/-! ## FL: the command sequencer (46_flash_commands.md) -/

/-- R59, R181, R182: over every FL.Write, memory changes only by a program at PROG or an erase command at ERASE, newData
is left set exactly by a program, and idMode changes only by ID entry and the two exits. -/
def Obligations.FlashStateChangesOnlyByItsCommands : Prop :=
  ∀ (s t : State) (a : Addr) (d : Byte), s.fl.live → exec (.busWrite a d) s = .next t →
    (t.fl.mem ≠ s.fl.mem →
      s.fl.cyc = .prog ∨ (s.fl.cyc = .erase ∧ (d = 0x30 ∨ (cmdAddr s.config a 0x5555 = true ∧ d = 0x10)))) ∧
    (t.fl.newData = true ↔ s.fl.cyc = .prog) ∧
    (t.fl.idMode ≠ s.fl.idMode →
      (s.fl.cyc = .c2 ∧ cmdAddr s.config a 0x5555 = true ∧
        ((t.fl.idMode = true ∧ d = s.config.cmdIdEntry) ∨ (t.fl.idMode = false ∧ d = s.config.cmdIdExit))) ∨
      (s.fl.cyc = .c0 ∧ s.fl.idMode = true ∧ t.fl.idMode = false ∧ d = s.config.cmdIdExit))

/-- R163, R165, R167, R172, R173: each step of the prefix, met where it is expected, moves the cycle counter on and,
beyond the entry clear of newData, does nothing else, in and out of ID mode. -/
def Obligations.UnlockStepsAdvanceTheCycle : Prop :=
  ∀ (s : State) (a : Addr), s.fl.live → s.config.wf →
    let moves (d : Byte) (c : FlCycle) : Prop :=
      exec (.busWrite a d) s = .next (s.withFl { s.fl with newData := false, cyc := c })
    (s.fl.cyc = .c0 → cmdAddr s.config a 0x5555 = true → moves 0xAA .c1) ∧
    (s.fl.cyc = .c1 → cmdAddr s.config a 0x2AAA = true → moves 0x55 .c2) ∧
    (s.fl.cyc = .c2 → cmdAddr s.config a 0x5555 = true → moves 0x80 .c3) ∧
    (s.fl.cyc = .c3 → cmdAddr s.config a 0x5555 = true → moves 0xAA .c4) ∧
    (s.fl.cyc = .c4 → cmdAddr s.config a 0x2AAA = true → moves 0x55 .erase)

/-- R168, R169, R170, R162: the setup and identifier commands, whose codes are parameters. -/
def Obligations.SetupAndIdCommandsAct : Prop :=
  ∀ (s : State) (a : Addr), s.fl.live → s.config.wf →
    (s.fl.cyc = .c2 → cmdAddr s.config a 0x5555 = true →
      exec (.busWrite a s.config.cmdProgram) s = .next (s.withFl { s.fl with newData := false, cyc := .prog }) ∧
      exec (.busWrite a s.config.cmdIdEntry) s =
        .next (s.withFl { s.fl with newData := false, idMode := true, cyc := .c0 }) ∧
      exec (.busWrite a s.config.cmdIdExit) s =
        .next (s.withFl { s.fl with newData := false, idMode := false, cyc := .c0 })) ∧
    (s.fl.cyc = .c0 → s.fl.idMode = true →
      exec (.busWrite a s.config.cmdIdExit) s =
        .next (s.withFl { s.fl with newData := false, idMode := false, cyc := .c0 }))

/-- The actions of the rows that touch no memory: the prefix and setup rows move the counter, the identifier rows set
or clear idMode, the abort rows return to C0; nothing else changes (R162 to R174, R177, R180, R181). -/
def Obligations.CycleRowsWithoutMemoryAct : Prop :=
  ∀ (s : State) (a : Addr) (d : Byte), s.fl.live →
    let goes (i : Instr) (c : FlCycle) : Prop := exec i s = .next (s.withFl { s.fl with cyc := c })
    goes (.flUnlock1 a) .c1 ∧ goes (.flUnlock2 a) .c2 ∧ goes (.flEraseSetup a) .c3 ∧ goes (.flUnlock4 a) .c4 ∧
    goes (.flUnlock5 a) .erase ∧ goes (.flProgramSetup a) .prog ∧
    goes (.flC0Other a d) .c0 ∧ goes (.flC1Abort a d) .c0 ∧ goes (.flC2Abort a d) .c0 ∧
    goes (.flC3C4Abort a d) .c0 ∧ goes (.flEraseAbort a d) .c0 ∧
    exec (.flIdEntry a) s = .next (s.withFl { s.fl with idMode := true, cyc := .c0 }) ∧
    exec (.flIdExit1 a) s = .next (s.withFl { s.fl with idMode := false, cyc := .c0 }) ∧
    exec (.flIdExit3 a) s = .next (s.withFl { s.fl with idMode := false, cyc := .c0 })

/-- R164, R166, R171, R174, R177: any other cycle at C0 to C4 or ERASE returns to C0 and does nothing else, beyond
the entry clear of newData. -/
def Obligations.AnyOtherCycleAborts : Prop :=
  ∀ (s : State) (a : Addr) (d : Byte), s.fl.live →
    let five := cmdAddr s.config a 0x5555 = true
    let two := cmdAddr s.config a 0x2AAA = true
    ((s.fl.cyc = .c0 ∧ ¬(s.fl.idMode = true ∧ d = s.config.cmdIdExit) ∧ ¬(five ∧ d = 0xAA)) ∨
      (s.fl.cyc = .c1 ∧ ¬(two ∧ d = 0x55)) ∨
      (s.fl.cyc = .c2 ∧ ¬(five ∧ (d = 0x80 ∨ d = s.config.cmdProgram ∨ d = s.config.cmdIdEntry ∨
        d = s.config.cmdIdExit))) ∨
      (s.fl.cyc = .c3 ∧ ¬(five ∧ d = 0xAA)) ∨
      (s.fl.cyc = .c4 ∧ ¬(two ∧ d = 0x55)) ∨
      (s.fl.cyc = .erase ∧ d ≠ 0x30 ∧ ¬(five ∧ d = 0x10))) →
    exec (.busWrite a d) s = .next (s.withFl { s.fl with newData := false, cyc := .c0 })

/-- R175: sector erase fills the aligned 4096 bytes of the sector of A & addrMask with 0xFF and returns to C0; every
other byte and register is unchanged. The bus write that selects it does the same and clears newData. -/
def Obligations.SectorEraseFillsOneSector : Prop :=
  ∀ (s : State) (a : Addr), s.Inv → s.fl.live →
    ∃ m : Memory, exec (.flSectorErase a) s = .next (s.withFl { s.fl with mem := m, cyc := .c0 }) ∧
      (s.fl.cyc = .erase → exec (.busWrite a 0x30) s =
        .next (s.withFl { s.fl with mem := m, cyc := .c0, newData := false })) ∧
      m.len = s.fl.mem.len ∧
      ∀ x, memRead m x =
        if sectorBase (flTarget a s.fl.addrMask) ≤ x ∧ x < sectorBase (flTarget a s.fl.addrMask) + 4096
        then some 0xFF else memRead s.fl.mem x

/-- R176: chip erase fills every byte of the device with 0xFF and returns to C0; every other register is unchanged. The
bus write that selects it does the same and clears newData. -/
def Obligations.ChipEraseFillsTheDevice : Prop :=
  ∀ (s : State) (a : Addr), s.Inv → s.fl.live →
    ∃ m : Memory, exec (.flChipErase a) s = .next (s.withFl { s.fl with mem := m, cyc := .c0 }) ∧
      (s.fl.cyc = .erase → cmdAddr s.config a 0x5555 = true → exec (.busWrite a 0x10) s =
        .next (s.withFl { s.fl with mem := m, cyc := .c0, newData := false })) ∧
      m.len = s.fl.mem.len ∧ ∀ x, x < s.fl.capacity → memRead m x = some 0xFF

/-- R178: a byte program ANDs the data into the byte at A & addrMask, sets newData and returns to C0; every other byte
and register is unchanged. At PROG every bus write is one. -/
def Obligations.ByteProgramAndsTheByte : Prop :=
  ∀ (s : State) (a : Addr) (d : Byte), s.Inv → s.fl.live →
    ∃ (m : Memory) (old : Byte), memRead s.fl.mem (flTarget a s.fl.addrMask) = some old ∧
      exec (.flByteProgram a d) s = .next (s.withFl { s.fl with mem := m, newData := true, cyc := .c0 }) ∧
      (s.fl.cyc = .prog → exec (.busWrite a d) s =
        .next (s.withFl { s.fl with mem := m, newData := true, cyc := .c0 })) ∧
      m.len = s.fl.mem.len ∧
      ∀ x, memRead m x = if x = flTarget a s.fl.addrMask then some (old &&& d) else memRead s.fl.mem x

/-- R179, the monotone-AND law: programming a byte with v1 and then v2 stores original & v1 & v2 and changes no other
byte, from C0 in or out of ID mode. -/
def Obligations.ProgrammingTwiceAndsBoth : Prop :=
  ∀ (s : State) (a : Addr) (v1 v2 : Byte), s.Inv → s.fl.live → s.config.wf → s.fl.cyc = .c0 →
    ∃ (t : State) (old : Byte), memRead s.fl.mem (flTarget a s.fl.addrMask) = some old ∧
      execAll (programSeq s.config a v1 ++ programSeq s.config a v2) s = .next t ∧
      t.fl.newData = true ∧ t.fl.cyc = .c0 ∧ t.fl.idMode = s.fl.idMode ∧
      ∀ x, memRead t.fl.mem x =
        if x = flTarget a s.fl.addrMask then some (old &&& v1 &&& v2) else memRead s.fl.mem x

/-- R183, the sector-erase law, with R182: after SERASE a every address of a's sector reads 0xFF outside ID mode, every
other byte is unchanged, and newData is not set. -/
def Obligations.SectorEraseSequenceErasesOneSector : Prop :=
  ∀ (s : State) (a : Addr), s.Inv → s.fl.live → s.config.wf → s.fl.cyc = .c0 →
    ∃ t, execAll (sectorEraseSeq a) s = .next t ∧ t.fl.newData = false ∧ t.fl.cyc = .c0 ∧
      t.fl.idMode = s.fl.idMode ∧
      (∀ x, sectorOf x ≠ sectorOf (flTarget a s.fl.addrMask) → sameByte s.fl.mem t.fl.mem x) ∧
      ∀ y : Addr, sectorOf (flTarget y s.fl.addrMask) = sectorOf (flTarget a s.fl.addrMask) → s.fl.idMode = false →
        exec (.busRead y) t = .next (t.returns (.byte 0xFF))

/-- R184, the chip-erase law: after CERASE every byte of the device is 0xFF, and newData is not set. -/
def Obligations.ChipEraseSequenceErasesTheDevice : Prop :=
  ∀ s : State, s.Inv → s.fl.live → s.config.wf → s.fl.cyc = .c0 →
    ∃ t, execAll chipEraseSeq s = .next t ∧ t.fl.newData = false ∧ t.fl.cyc = .c0 ∧ t.fl.idMode = s.fl.idMode ∧
      ∀ x, x < s.fl.capacity → memRead t.fl.mem x = some 0xFF

/-! ## EE: completion of a rising edge -/

/-- R127: on a live block that meets the invariant every rising edge completes, whatever its slot and its line levels,
and no rising edge writes memory, newData or the previous lines, or changes the other block. That the slot-1 load has
a byte is R57, by the invariant. -/
def Obligations.RisingEdgeCompletes : Prop :=
  ∀ (s : State) (prevSda sda : Bool), s.Inv → s.ee.live →
    ∃ e : EE, exec (.eeRise prevSda sda) s = .next (s.withEe e) ∧ e.live ∧ e.mem = s.ee.mem ∧
      e.newData = s.ee.newData ∧ e.prevScl = s.ee.prevScl ∧ e.prevSda = s.ee.prevSda
end

