-- ==== Sys2Proof/Laws/State.lean ====
section
/-! SUPPORT. One lemma per field per update of the state, true by rfl, and the spec lemmas of the shared checks. -/

namespace Sys2Proof.Machine

variable (s : State) (e : EE) (f : FL) (v : Returned) (evs : List CallerEvent)

@[simp] theorem withEe_ee : (s.withEe e).ee = e := rfl
@[simp] theorem withEe_fl : (s.withEe e).fl = s.fl := rfl
@[simp] theorem withEe_config : (s.withEe e).config = s.config := rfl
@[simp] theorem withEe_caller : (s.withEe e).caller = s.caller := rfl
@[simp] theorem withEe_withEe (e' : EE) : (s.withEe e).withEe e' = s.withEe e' := rfl
@[simp] theorem withEe_self : s.withEe s.ee = s := rfl
@[simp] theorem withFl_fl : (s.withFl f).fl = f := rfl
@[simp] theorem withFl_ee : (s.withFl f).ee = s.ee := rfl
@[simp] theorem withFl_config : (s.withFl f).config = s.config := rfl
@[simp] theorem withFl_caller : (s.withFl f).caller = s.caller := rfl
@[simp] theorem withFl_withFl (f' : FL) : (s.withFl f).withFl f' = s.withFl f' := rfl
@[simp] theorem withFl_self : s.withFl s.fl = s := rfl
@[simp] theorem returns_ee : (s.returns v).ee = s.ee := rfl
@[simp] theorem returns_fl : (s.returns v).fl = s.fl := rfl
@[simp] theorem returns_config : (s.returns v).config = s.config := rfl
@[simp] theorem returns_returned : (s.returns v).caller.returned = v :: s.caller.returned := rfl
@[simp] theorem returns_pending : (s.returns v).caller.pending = s.caller.pending := rfl
@[simp] theorem returns_eeOffer : (s.returns v).caller.eeOffer = s.caller.eeOffer := rfl
@[simp] theorem returns_flOffer : (s.returns v).caller.flOffer = s.caller.flOffer := rfl
@[simp] theorem withPending_ee : (s.withPending evs).ee = s.ee := rfl
@[simp] theorem withPending_fl : (s.withPending evs).fl = s.fl := rfl
@[simp] theorem withPending_config : (s.withPending evs).config = s.config := rfl
@[simp] theorem withPending_pending : (s.withPending evs).caller.pending = evs := rfl
@[simp] theorem withPending_returned : (s.withPending evs).caller.returned = s.caller.returned := rfl
@[simp] theorem withPending_eeOffer : (s.withPending evs).caller.eeOffer = s.caller.eeOffer := rfl
@[simp] theorem withPending_flOffer : (s.withPending evs).caller.flOffer = s.caller.flOffer := rfl
@[simp] theorem takeEeOffer_ee : s.takeEeOffer.ee = s.ee := rfl
@[simp] theorem takeEeOffer_fl : s.takeEeOffer.fl = s.fl := rfl
@[simp] theorem takeEeOffer_config : s.takeEeOffer.config = s.config := rfl
@[simp] theorem takeEeOffer_eeOffer : s.takeEeOffer.caller.eeOffer = none := rfl
@[simp] theorem takeEeOffer_flOffer : s.takeEeOffer.caller.flOffer = s.caller.flOffer := rfl
@[simp] theorem takeFlOffer_ee : s.takeFlOffer.ee = s.ee := rfl
@[simp] theorem takeFlOffer_fl : s.takeFlOffer.fl = s.fl := rfl
@[simp] theorem takeFlOffer_config : s.takeFlOffer.config = s.config := rfl
@[simp] theorem takeFlOffer_eeOffer : s.takeFlOffer.caller.eeOffer = s.caller.eeOffer := rfl
@[simp] theorem takeFlOffer_flOffer : s.takeFlOffer.caller.flOffer = none := rfl
@[simp] theorem setFault_config (b : Block) (r : ModelFault) : (setFault b r s).config = s.config := by cases b <;> rfl
@[simp] theorem setFault_caller (b : Block) (r : ModelFault) : (setFault b r s).caller = s.caller := by cases b <;> rfl
@[simp] theorem setFault_ee_fl (r : ModelFault) : (setFault .ee r s).fl = s.fl := rfl
@[simp] theorem setFault_fl_ee (r : ModelFault) : (setFault .fl r s).ee = s.ee := rfl
@[simp] theorem setFault_ee_ee (r : ModelFault) : (setFault .ee r s).ee = { s.ee with fault := some r } := rfl
@[simp] theorem setFault_fl_fl (r : ModelFault) : (setFault .fl r s).fl = { s.fl with fault := some r } := rfl

/-! ## The checks -/

variable {s e f}

/-- On a live block an operation runs its action. -/
theorem eeReady_live (h : s.ee.live) (k : Answer) : eeReady s k = k := by
  simp [eeReady, eeUnlessStuck, h.1, h.2]

theorem flReady_live (h : s.fl.live) (k : Answer) : flReady s k = k := by
  simp [flReady, flUnlessStuck, h.1, h.2]

/-- A faulted block is stuck (R187). -/
theorem eeReady_stuck {r : ModelFault} (h : s.ee.fault = some r) (k : Answer) : eeReady s k = .fault (.eeStuck r) := by
  simp [eeReady, eeUnlessStuck, h]

theorem flReady_stuck {r : ModelFault} (h : s.fl.fault = some r) (k : Answer) : flReady s k = .fault (.flStuck r) := by
  simp [flReady, flUnlessStuck, h]

/-- Before the first Configure an operation raises NOT_CONFIGURED (R109). -/
theorem eeReady_unconfigured (h : s.ee.fault = none) (h' : s.ee.configured = false) (k : Answer) :
    eeReady s k = .next (setFault .ee .notConfigured s) := by
  simp [eeReady, eeUnlessStuck, raiseModelFault, h, h']

theorem flReady_unconfigured (h : s.fl.fault = none) (h' : s.fl.configured = false) (k : Answer) :
    flReady s k = .next (setFault .fl .notConfigured s) := by
  simp [flReady, flUnlessStuck, raiseModelFault, h, h']

/-- What an action of EE can answer: the new block, or NOT_CONFIGURED. -/
theorem onEe_next {act : EE → Except Fault EE} {t : State} (h : onEe s act = .next t) :
    (s.ee.live ∧ ∃ e, act s.ee = .ok e ∧ t = s.withEe e) ∨
    (s.ee.fault = none ∧ s.ee.configured = false ∧ t = setFault .ee .notConfigured s) := by
  unfold onEe eeReady eeUnlessStuck raiseModelFault at h
  split at h
  · cases h
  · rename_i hf
    split at h
    · rename_i hc
      split at h
      · rename_i e he; cases h; exact .inl ⟨⟨hf, hc⟩, e, he, rfl⟩
      · cases h
    · rename_i hc; cases h; exact .inr ⟨hf, by simpa using hc, rfl⟩

theorem onFl_next {act : FL → Except Fault FL} {t : State} (h : onFl s act = .next t) :
    (s.fl.live ∧ ∃ f, act s.fl = .ok f ∧ t = s.withFl f) ∨
    (s.fl.fault = none ∧ s.fl.configured = false ∧ t = setFault .fl .notConfigured s) := by
  unfold onFl flReady flUnlessStuck raiseModelFault at h
  split at h
  · cases h
  · rename_i hf
    split at h
    · rename_i hc
      split at h
      · rename_i f he; cases h; exact .inl ⟨⟨hf, hc⟩, f, he, rfl⟩
      · cases h
    · rename_i hc; cases h; exact .inr ⟨hf, by simpa using hc, rfl⟩

/-- An action that answers a block, on a live block. -/
theorem onEe_ok {act : EE → Except Fault EE} (h : s.ee.live) (ha : act s.ee = .ok e) :
    onEe s act = .next (s.withEe e) := by simp [onEe, eeReady_live h, ha]

theorem onFl_ok {act : FL → Except Fault FL} (h : s.fl.live) (ha : act s.fl = .ok f) :
    onFl s act = .next (s.withFl f) := by simp [onFl, flReady_live h, ha]

end Sys2Proof.Machine
end

