-- ==== Sys2Proof/Laws/Memory.lean ====
section
/-! SUPPORT. The laws of the memory primitives: read after write, everything else unchanged, the canonical form kept,
and the range erase equal to the byte writes of R175 and R176. -/

namespace Sys2Proof.Machine

/-- The canonical form of a cell list, without the buffer's length. -/
abbrev cellsWf (n : Nat) (l : List Host.Cell) : Prop :=
  l.Pairwise (fun x y => x.1 < y.1) ∧ ∀ c ∈ l, c.1 < n ∧ c.2 ≠ Config.unlistedByte

theorem cellsWf_cons {n : Nat} {k : Nat} {v : Byte} {t : List Host.Cell} :
    cellsWf n ((k, v) :: t) ↔
      (∀ c ∈ t, k < c.1) ∧ (k < n ∧ v ≠ Config.unlistedByte) ∧ cellsWf n t := by
  simp only [cellsWf, List.pairwise_cons, List.forall_mem_cons]; tauto

/-- An address below every listed one is unlisted. -/
theorem cellsRead_below {l : List Host.Cell} {a : Nat} (h : ∀ c ∈ l, a < c.1) :
    cellsRead l a = Config.unlistedByte := by
  induction l with
  | nil => rfl
  | cons c t ih =>
    have h1 := h c (by simp)
    simp only [cellsRead]
    rw [if_neg (by omega)]
    exact ih fun c' hc' => h c' (by simp [hc'])

theorem cellsRead_cellsCons {t : List Host.Cell} {a b : Nat} {v : Byte} (h : ∀ c ∈ t, a < c.1) :
    cellsRead (cellsCons a v t) b = if b = a then v else cellsRead t b := by
  unfold cellsCons
  split
  · rename_i hv
    split
    · rename_i hb; rw [hb, cellsRead_below h, hv]
    · rfl
  · simp only [cellsRead]
    by_cases hb : b = a
    · simp [hb]
    · rw [if_neg hb, if_neg (fun h' => hb h'.symm)]

/-- Read after write, at the same place and at every other. -/
theorem cellsRead_cellsWrite {l : List Host.Cell} {a b : Nat} {v : Byte}
    (h : l.Pairwise fun x y => x.1 < y.1) :
    cellsRead (cellsWrite l a v) b = if b = a then v else cellsRead l b := by
  induction l with
  | nil => simp only [cellsWrite]; rw [cellsRead_cellsCons (by simp)]
  | cons c t ih =>
    obtain ⟨k, w⟩ := c
    rw [List.pairwise_cons] at h
    simp only [cellsWrite]
    split
    · rename_i hak
      exact cellsRead_cellsCons (by
        intro c hc
        rcases List.mem_cons.1 hc with rfl | hc
        · exact hak
        · exact hak.trans (h.1 c hc))
    · split
      · rename_i hak hk
        subst hk
        rw [cellsRead_cellsCons h.1]
        simp only [cellsRead]
        by_cases hb : b = a
        · simp [hb]
        · simp [hb, Ne.symm hb]
      · rename_i hak hk
        simp only [cellsRead]
        rw [ih h.2]
        by_cases hb : b = a
        · simp [hb, Ne.symm hk]
        · simp [hb]

theorem mem_cellsCons {t : List Host.Cell} {a : Nat} {v : Byte} {c : Host.Cell} (h : c ∈ cellsCons a v t) :
    (c = (a, v) ∧ v ≠ Config.unlistedByte) ∨ c ∈ t := by
  unfold cellsCons at h
  split at h
  · exact .inr h
  · rename_i hv
    rcases List.mem_cons.1 h with rfl | h
    · exact .inl ⟨rfl, hv⟩
    · exact .inr h

theorem mem_cellsWrite {l : List Host.Cell} {a : Nat} {v : Byte} {c : Host.Cell} (h : c ∈ cellsWrite l a v) :
    (c = (a, v) ∧ v ≠ Config.unlistedByte) ∨ c ∈ l := by
  induction l with
  | nil => exact mem_cellsCons h
  | cons x t ih =>
    obtain ⟨k, w⟩ := x
    simp only [cellsWrite] at h
    split at h
    · exact mem_cellsCons h
    · split at h
      · rcases mem_cellsCons h with h | h
        · exact .inl h
        · exact .inr (List.mem_cons_of_mem _ h)
      · rcases List.mem_cons.1 h with rfl | h
        · exact .inr (List.mem_cons_self ..)
        · rcases ih h with h | h
          · exact .inl h
          · exact .inr (List.mem_cons_of_mem _ h)

theorem cellsCons_wf {n : Nat} {t : List Host.Cell} {a : Nat} {v : Byte} (ha : a < n) (h : ∀ c ∈ t, a < c.1)
    (ht : cellsWf n t) : cellsWf n (cellsCons a v t) := by
  unfold cellsCons
  split
  · exact ht
  · rename_i hv; exact cellsWf_cons.2 ⟨h, ⟨ha, hv⟩, ht⟩

theorem cellsWrite_wf {n : Nat} {l : List Host.Cell} {a : Nat} {v : Byte} (ha : a < n) (h : cellsWf n l) :
    cellsWf n (cellsWrite l a v) := by
  induction l with
  | nil => exact cellsCons_wf ha (by simp) h
  | cons x t ih =>
    obtain ⟨k, w⟩ := x
    have h' := cellsWf_cons.1 h
    simp only [cellsWrite]
    split
    · rename_i hak
      refine cellsCons_wf ha ?_ h
      intro c hc
      rcases List.mem_cons.1 hc with rfl | hc
      · exact hak
      · exact hak.trans (h'.1 c hc)
    · split
      · rename_i hk; subst hk; exact cellsCons_wf ha h'.1 h'.2.2
      · rename_i hak hk
        refine cellsWf_cons.2 ⟨?_, h'.2.1, ih h'.2.2⟩
        intro c hc
        rcases mem_cellsWrite hc with ⟨rfl, -⟩ | hc
        · show k < a; omega
        · exact h'.1 c hc

theorem cellsRead_filter {l : List Host.Cell} {p : Nat → Bool} {a : Nat}
    (h : l.Pairwise fun x y => x.1 < y.1) :
    cellsRead (l.filter fun c => p c.1) a = if p a then cellsRead l a else Config.unlistedByte := by
  induction l with
  | nil => simp [cellsRead]
  | cons c t ih =>
    obtain ⟨k, v⟩ := c
    rw [List.pairwise_cons] at h
    have ih := ih h.2
    by_cases hk : k = a
    · subst hk
      by_cases hp : p k
      · simp [hp, cellsRead]
      · simp only [Bool.not_eq_true] at hp
        simp only [List.filter_cons, hp] at ih ⊢
        simpa using ih
    · by_cases hp : p k
      · simp [hp, cellsRead, hk, ih]
      · simp [hp, cellsRead, hk, ih]

/-! ## The primitives -/

theorem memRead_some {m : Memory} {a : Nat} (h : a < m.len) : memRead m a = some (m.get a) := by simp [memRead, h]

theorem memRead_none {m : Memory} {a : Nat} (h : ¬a < m.len) : memRead m a = none := by simp [memRead, h]

/-- Everything a write that answers can do. -/
theorem memWrite_spec {m m' : Memory} {a : Nat} {v : Byte} (h : memWrite m a v = some m') (hw : m.wf) :
    a < m.len ∧ m'.len = m.len ∧ m'.wf ∧ ∀ b, m'.get b = if b = a then v else m.get b := by
  unfold memWrite at h
  split at h
  · rename_i ha
    cases h
    exact ⟨ha, rfl, cellsWrite_wf ha hw, fun b => cellsRead_cellsWrite hw.1⟩
  · cases h

theorem memWrite_isSome {m : Memory} {a : Nat} {v : Byte} (h : a < m.len) :
    memWrite m a v = some { m with cells := cellsWrite m.cells a v } := by simp [memWrite, h]

/-- A write seen through memRead. -/
theorem memRead_memWrite {m m' : Memory} {a : Nat} {v : Byte} (h : memWrite m a v = some m') (hw : m.wf) (b : Nat) :
    memRead m' b = if b = a then some v else memRead m b := by
  obtain ⟨ha, hl, -, hg⟩ := memWrite_spec h hw
  unfold memRead
  rw [hl, hg]
  by_cases hb : b = a
  · simp [hb, ha]
  · simp [hb]

/-- Everything a range erase that answers can do. -/
theorem memErase_spec {m m' : Memory} {base n : Nat} (h : memErase m base n = some m') (hw : m.wf) :
    base + n ≤ m.len ∧ m'.len = m.len ∧ m'.wf ∧
      ∀ b, m'.get b = if base ≤ b ∧ b < base + n then 0xFF else m.get b := by
  unfold memErase at h
  split at h
  · rename_i hb
    cases h
    refine ⟨hb, rfl, ⟨hw.1.filter _, ?_⟩, ?_⟩
    · intro c hc; exact hw.2 c (List.mem_of_mem_filter hc)
    · intro b
      have := cellsRead_filter (p := fun k => decide (k < base) || decide (base + n ≤ k)) (a := b) hw.1
      simp only [Memory.get]
      rw [this]
      by_cases h1 : base ≤ b ∧ b < base + n
      · rw [if_pos h1, if_neg]
        · rfl
        · simp; omega
      · rw [if_neg h1, if_pos]
        simp; omega
  · cases h

theorem memErase_isSome {m : Memory} {base n : Nat} (h : base + n ≤ m.len) :
    ∃ m', memErase m base n = some m' := ⟨_, if_pos h⟩

/-- Two canonical cell lists that read alike are equal: equal contents are equal data. -/
theorem cells_ext {n : Nat} {l l' : List Host.Cell} (h : cellsWf n l) (h' : cellsWf n l')
    (hr : ∀ a, cellsRead l a = cellsRead l' a) : l = l' := by
  induction l generalizing l' with
  | nil =>
    cases l' with
    | nil => rfl
    | cons c t =>
      obtain ⟨k, v⟩ := c
      have h1 := cellsWf_cons.1 h'
      have := hr k
      simp only [cellsRead, if_pos] at this
      exact absurd this.symm h1.2.1.2
  | cons c t ih =>
    obtain ⟨k, v⟩ := c
    have h1 := cellsWf_cons.1 h
    cases l' with
    | nil =>
      have := hr k
      simp only [cellsRead, if_pos] at this
      exact absurd this h1.2.1.2
    | cons c' t' =>
      obtain ⟨k', v'⟩ := c'
      have h2 := cellsWf_cons.1 h'
      have hk : k = k' := by
        rcases Nat.lt_trichotomy k k' with hlt | heq | hgt
        · have h3 := hr k
          rw [cellsRead_below (l := (k', v') :: t') (a := k)] at h3
          · simp only [cellsRead, if_pos] at h3; exact absurd h3 h1.2.1.2
          · intro c hc
            rcases List.mem_cons.1 hc with rfl | hc
            · exact hlt
            · exact hlt.trans (h2.1 c hc)
        · exact heq
        · have h3 := hr k'
          rw [cellsRead_below (l := (k, v) :: t) (a := k')] at h3
          · simp only [cellsRead, if_pos] at h3; exact absurd h3.symm h2.2.1.2
          · intro c hc
            rcases List.mem_cons.1 hc with rfl | hc
            · exact hgt
            · exact hgt.trans (h1.1 c hc)
      subst hk
      have hv : v = v' := by simpa [cellsRead] using hr k
      subst hv
      rw [ih h1.2.2 h2.2.2]
      intro a
      by_cases ha : k = a
      · subst ha; rw [cellsRead_below h1.1, cellsRead_below h2.1]
      · simpa [cellsRead, ha] using hr a

/-- The byte writes of R175 and R176: 0xFF at base + i for i in 0 .. n-1. -/
def eraseWrites (base : Nat) : Nat → Memory → Option Memory
  | 0, m => some m
  | n + 1, m => (eraseWrites base n m).bind fun m' => memWrite m' (base + n) 0xFF

theorem eraseWrites_spec {base : Nat} (n : Nat) {m m' : Memory} (h : eraseWrites base n m = some m') (hw : m.wf) :
    m'.len = m.len ∧ m'.wf ∧ ∀ b, m'.get b = if base ≤ b ∧ b < base + n then 0xFF else m.get b := by
  induction n generalizing m' with
  | zero =>
    simp only [eraseWrites, Option.some.injEq] at h; subst h
    refine ⟨rfl, hw, fun b => ?_⟩
    rw [if_neg]; omega
  | succ n ih =>
    simp only [eraseWrites, Option.bind_eq_some_iff] at h
    obtain ⟨m1, h1, h2⟩ := h
    obtain ⟨hl, hw1, hg⟩ := ih h1
    obtain ⟨-, hl2, hw2, hg2⟩ := memWrite_spec h2 hw1
    refine ⟨hl2.trans hl, hw2, fun b => ?_⟩
    rw [hg2, hg]
    by_cases hb : b = base + n
    · rw [if_pos hb, if_pos]; omega
    · rw [if_neg hb]
      by_cases hb2 : base ≤ b ∧ b < base + n
      · rw [if_pos hb2, if_pos]; omega
      · rw [if_neg hb2, if_neg]; omega

/-- The range erase is the loop of byte writes the spec gives (log 19). -/
theorem memErase_eq_writes {m m1 m2 : Memory} {base n : Nat} (hw : m.wf) (h1 : memErase m base n = some m1)
    (h2 : eraseWrites base n m = some m2) : m1 = m2 := by
  obtain ⟨-, hl1, hw1, hg1⟩ := memErase_spec h1 hw
  obtain ⟨hl2, hw2, hg2⟩ := eraseWrites_spec n h2 hw
  obtain ⟨l1, c1⟩ := m1
  obtain ⟨l2, c2⟩ := m2
  simp only at hl1 hl2
  subst hl1
  subst hl2
  congr 1
  exact cells_ext hw1 hw2 fun a => by have := (hg1 a).trans (hg2 a).symm; exact this

/-- The loop of byte writes answers wherever the range erase does. -/
theorem eraseWrites_isSome {m : Memory} {base n : Nat} (h : base + n ≤ m.len) :
    ∃ m', eraseWrites base n m = some m' ∧ m'.len = m.len := by
  induction n with
  | zero => exact ⟨m, rfl, rfl⟩
  | succ n ih =>
    obtain ⟨m', h1, h2⟩ := ih (by omega)
    have hb : base + n < m'.len := by omega
    exact ⟨{ m' with cells := cellsWrite m'.cells (base + n) 0xFF },
      by simp only [eraseWrites, h1, Option.bind_some]; exact memWrite_isSome hb, h2⟩

/-- One more listed byte: it stands over the earlier ones. -/
theorem listedByte_append (l : List Host.Cell) (c : Host.Cell) (x : Nat) :
    listedByte (l ++ [c]) x = if x = c.1 then c.2 else listedByte l x := by
  by_cases hx : x = c.1
  · simp [listedByte, hx]
  · simp [listedByte, hx, Ne.symm hx]

/-- A loaded buffer has its length, is canonical, and holds at each of its addresses the last byte listed for it. -/
theorem memLoad_spec (len : Nat) (bytes : List Host.Cell) :
    (memLoad len bytes).len = len ∧ (memLoad len bytes).wf ∧
      ∀ x, memRead (memLoad len bytes) x = if x < len then some (listedByte bytes x) else none := by
  induction bytes using List.reverseRecOn with
  | nil => exact ⟨rfl, ⟨List.Pairwise.nil, by simp [memLoad]⟩, fun x => rfl⟩
  | append_singleton l c ih =>
    obtain ⟨hl, hw, hr⟩ := ih
    have hstep : memLoad len (l ++ [c]) = (memWrite (memLoad len l) c.1 c.2).getD (memLoad len l) := by
      simp [memLoad, List.foldl_append]
    rw [hstep]
    by_cases hc : c.1 < len
    · have hm := memWrite_isSome (v := c.2) (hl.symm ▸ hc)
      obtain ⟨-, hl', hw', -⟩ := memWrite_spec hm hw
      rw [hm, Option.getD_some]
      refine ⟨hl'.trans hl, hw', fun x => ?_⟩
      rw [memRead_memWrite hm hw, hr, listedByte_append]
      by_cases hx : x = c.1
      · simp [hx, hc]
      · simp [hx]
    · have hm : memWrite (memLoad len l) c.1 c.2 = none := by simp [memWrite, hl, hc]
      rw [hm, Option.getD_none]
      refine ⟨hl, hw, fun x => ?_⟩
      rw [hr, listedByte_append]
      by_cases hx : x < len
      · rw [if_pos hx, if_pos hx, if_neg (by omega)]
      · rw [if_neg hx, if_neg hx]

end Sys2Proof.Machine
end

