-- ==== Sys2Proof/Laws/Operands.lean ====
section
/-! SUPPORT. The laws of the operand forms: fields of bytes and bus words, and the aligned windows of R10 and R63. -/

namespace Sys2Proof

/-! ## Fields -/

theorem addrOfBytes_addrByte (a : Addr) :
    addrOfBytes (addrByte a 0) (addrByte a 1) (addrByte a 2) (addrByte a 3) = a := by
  apply BitVec.eq_of_getLsbD_eq
  intro i hi
  simp only [addrOfBytes, addrByte, BitVec.getLsbD_append, BitVec.getLsbD_extractLsb']
  by_cases h1 : i < 8
  · simp [h1]
  · by_cases h2 : i - 8 < 8
    · simp [h1, h2]; congr 1; omega
    · by_cases h3 : i - 8 - 8 < 8
      · simp [h1, h2, h3]; congr 1; omega
      · have h4 : i - 8 - 8 - 8 < 8 := by omega
        simp [h1, h2, h3, h4]; congr 1; omega

theorem busAddr_busWord (a : Addr) (d : Byte) : busAddr (busWord a d) = a := by
  apply BitVec.eq_of_getLsbD_eq
  intro i hi
  simp only [busAddr, busWord, BitVec.getLsbD_extractLsb', hi, decide_true, Bool.true_and]
  rw [BitVec.getLsbD_append, if_neg (by omega)]
  congr 1; omega

theorem busData_busWord (a : Addr) (d : Byte) : busData (busWord a d) = d := by
  apply BitVec.eq_of_getLsbD_eq
  intro i hi
  simp only [busData, busWord, BitVec.getLsbD_extractLsb', hi, decide_true, Bool.true_and]
  rw [BitVec.getLsbD_append, if_pos (by omega)]
  congr 1; omega

theorem selOf_controlByte (sel : BitVec 7) (rw : Bool) : selOf (controlByte sel rw) = sel := by
  apply BitVec.eq_of_getLsbD_eq
  intro i hi
  simp only [selOf, controlByte, BitVec.getLsbD_extractLsb', hi, decide_true, Bool.true_and]
  rw [BitVec.getLsbD_append, if_neg (by omega)]
  congr 1; omega

theorem rwOf_controlByte (sel : BitVec 7) (rw : Bool) : rwOf (controlByte sel rw) = rw := by
  simp only [rwOf, controlByte]
  rw [BitVec.getLsbD_append, if_pos (by omega)]
  simp

/-- The unlock prefix, step by step (R43). -/
theorem isUnlock_eq (c : Config) (n : Fin 5) (a : Addr) (d : Byte) :
    isUnlock c n a d = (match n with
      | 0 => at5555 c a && d == 0xAA
      | 1 => at2AAA c a && d == 0x55
      | 2 => at5555 c a && d == 0x80
      | 3 => at5555 c a && d == 0xAA
      | 4 => at2AAA c a && d == 0x55) := by
  fin_cases n <;> rfl

/-! ## Windows -/

theorem and_mask (a k : Nat) : a &&& (2 ^ k - 1) = a % 2 ^ k := Nat.and_two_pow_sub_one_eq_mod a k

/-- The window of a: the multiple of its size at or below a. -/
theorem clearBits_mask (a k : Nat) : clearBits a (2 ^ k - 1) = 2 ^ k * (a / 2 ^ k) := by
  rw [clearBits, and_mask]
  have := Nat.div_add_mod a (2 ^ k)
  omega

/-- Joining a window base and an offset is adding them. -/
theorem window_or (q k r : Nat) (h : r < 2 ^ k) : 2 ^ k * q ||| r = 2 ^ k * q + r :=
  (Nat.two_pow_add_eq_or_of_lt h q).symm

theorem windowAddr_mask (a k n : Nat) :
    Machine.windowAddr a (2 ^ k - 1) n = 2 ^ k * (a / 2 ^ k) + (a + n) % 2 ^ k := by
  rw [Machine.windowAddr, clearBits_mask, and_mask, window_or _ _ _ (Nat.mod_lt _ (Nat.two_pow_pos k))]

/-- wrapInc is the window address one on (R10). -/
theorem wrapInc_eq_windowAddr (a m : Nat) : wrapInc a m = Machine.windowAddr a m 1 := rfl

theorem windowAddr_zero (a k : Nat) : Machine.windowAddr a (2 ^ k - 1) 0 = a := by
  rw [windowAddr_mask]; exact Nat.div_add_mod a (2 ^ k)

/-- Stepping inside a window counts modulo its size (R144, R145). -/
theorem wrapInc_windowAddr (a k n : Nat) :
    wrapInc (Machine.windowAddr a (2 ^ k - 1) n) (2 ^ k - 1) = Machine.windowAddr a (2 ^ k - 1) (n + 1) := by
  have hp := Nat.two_pow_pos k
  have hdiv : (2 ^ k * (a / 2 ^ k) + (a + n) % 2 ^ k) / 2 ^ k = a / 2 ^ k := by
    rw [Nat.mul_add_div hp, Nat.div_eq_of_lt (Nat.mod_lt _ hp), Nat.add_zero]
  have hmod : (2 ^ k * (a / 2 ^ k) + (a + n) % 2 ^ k + 1) % 2 ^ k = (a + (n + 1)) % 2 ^ k := by
    rw [Nat.add_assoc, Nat.mul_add_mod, Nat.mod_add_mod]; congr 1
  rw [wrapInc_eq_windowAddr, windowAddr_mask, windowAddr_mask, windowAddr_mask, hdiv, hmod]

/-- The k-th stored address of a commit, in closed form. -/
theorem iterate_wrapInc (a k n : Nat) :
    (fun x => wrapInc x (2 ^ k - 1))^[n] a = Machine.windowAddr a (2 ^ k - 1) n := by
  induction n with
  | zero => exact (windowAddr_zero a k).symm
  | succ n ih => rw [Function.iterate_succ_apply', ih, wrapInc_windowAddr]

/-- A window inside `[0, 2^j - 1]` is never left (R39, R57). -/
theorem windowAddr_le {a j k : Nat} (hk : k ≤ j) (ha : a ≤ 2 ^ j - 1) (n : Nat) :
    Machine.windowAddr a (2 ^ k - 1) n ≤ 2 ^ j - 1 := by
  have hp := Nat.two_pow_pos k
  have hj := Nat.two_pow_pos j
  rw [windowAddr_mask]
  have h1 : (a + n) % 2 ^ k < 2 ^ k := Nat.mod_lt _ hp
  have h2 : a / 2 ^ k < 2 ^ j / 2 ^ k := by
    apply Nat.div_lt_div_of_lt_of_dvd (Nat.pow_dvd_pow 2 hk); omega
  have h3 : 2 ^ k * (a / 2 ^ k) + 2 ^ k ≤ 2 ^ j := by
    calc 2 ^ k * (a / 2 ^ k) + 2 ^ k = 2 ^ k * (a / 2 ^ k + 1) := by ring
      _ ≤ 2 ^ k * (2 ^ j / 2 ^ k) := Nat.mul_le_mul_left _ h2
      _ ≤ 2 ^ j := Nat.mul_div_le _ _
  omega

/-- A legal size is a power of two, 2 or more (R21). -/
theorem isSize_iff (n : Nat) : isSize n = true ↔ ∃ k, 1 ≤ k ∧ n = 2 ^ k := by
  constructor
  · intro h
    have h' : 2 ≤ n ∧ 2 ^ Nat.log2 n = n := by simpa [isSize] using h
    refine ⟨Nat.log2 n, ?_, h'.2.symm⟩
    by_contra hk
    have : Nat.log2 n = 0 := by omega
    rw [this] at h'
    omega
  · rintro ⟨k, hk, rfl⟩
    have h2 : 2 ≤ 2 ^ k := by
      calc 2 = 2 ^ 1 := rfl
        _ ≤ 2 ^ k := Nat.pow_le_pow_right (by omega) hk
    simp [isSize, h2, Nat.log2_two_pow]

/-- A legal page size is 2, 4, 8 or 16 (R22). -/
theorem isPageSize_iff (p : Nat) : isPageSize p = true ↔ p = 2 ∨ p = 4 ∨ p = 8 ∨ p = 16 := by
  simp [isPageSize, or_assoc]

end Sys2Proof
end

