-- ==== Sys2Proof/Laws/Ee.lean ====
section
/-! SUPPORT. What the shared operations of the EEPROM block can do: the windows of a legal block, the commit loop, the
slots and the sample's action. -/

namespace Sys2Proof.Machine

/-! ## The masks of a legal block -/

/-- The three masks are windows, the page and the block inside the address space, which is inside the buffer
(R22, R24, R25, R39). -/
theorem EE.legal_windows {e : EE} (h : e.legal) :
    ∃ p j b : Nat, 1 ≤ p ∧ p ≤ 4 ∧ p ≤ j ∧ b ≤ j ∧ e.pageSize = 2 ^ p ∧ e.pageMask = 2 ^ p - 1 ∧
      e.addrMask = 2 ^ j - 1 ∧ e.blockMask = 2 ^ b - 1 ∧ 2 ^ j ≤ e.mem.len := by
  obtain ⟨hs, hp, hle, hpm, hlen, -, hm⟩ := h
  obtain ⟨k, hk, hk2⟩ := (isSize_iff _).1 hs
  have hp' : ∃ p, 1 ≤ p ∧ p ≤ 4 ∧ e.pageSize = 2 ^ p := by
    rcases (isPageSize_iff _).1 hp with h | h | h | h
    · exact ⟨1, by omega, by omega, h⟩
    · exact ⟨2, by omega, by omega, h⟩
    · exact ⟨3, by omega, by omega, h⟩
    · exact ⟨4, by omega, by omega, h⟩
  obtain ⟨p, hp1, hp4, hpe⟩ := hp'
  have hpk : p ≤ k := by
    rw [hpe, hk2] at hle; exact (Nat.pow_le_pow_iff_right (by omega)).1 hle
  rcases hm with ⟨ha, hb⟩ | ⟨ha, hb, h128, -⟩
  · refine ⟨p, k, min 8 k, hp1, hp4, hpk, Nat.min_le_right _ _, hpe, by rw [hpm, hpe], by rw [ha, hk2], ?_, ?_⟩
    · rw [hb, hk2]
      rcases Nat.le_total 8 k with h8 | h8
      · have : 2 ^ 8 ≤ 2 ^ k := Nat.pow_le_pow_right (by omega) h8
        rw [Nat.min_eq_left h8, Nat.min_eq_left (a := 256) this]
        norm_num
      · have : 2 ^ k ≤ 2 ^ 8 := Nat.pow_le_pow_right (by omega) h8
        rw [Nat.min_eq_right h8, Nat.min_eq_right (a := 256) this]
    · rw [hlen, hk2]
  · exact ⟨p, 7, 7, hp1, hp4, by omega, by omega, hpe, by rw [hpm, hpe], ha, hb, by rw [hlen]; exact h128⟩

/-- Every EE memory access is in bounds (R57). -/
theorem EE.addr_in_bounds {e : EE} (h : e.Inv) (hc : e.configured = true) : e.addr < e.mem.len := by
  obtain ⟨hl, hr⟩ := h.2 hc
  obtain ⟨p, j, b, -, -, -, -, -, -, ha, -, hlen⟩ := EE.legal_windows hl
  have := hr.1
  have := Nat.two_pow_pos j
  omega

/-! ## Slots -/

/-- Slot 1 of a read frame loads a byte that is there (R57, R131). -/
theorem eeOutgoing_spec {e : EE} (h : e.Inv) (hc : e.configured = true) :
    eeOutgoing e = .ok (if e.bitCnt = 0 then e.mem.get e.addr else e.shreg) := by
  unfold eeOutgoing
  split
  · rw [memRead_some (EE.addr_in_bounds h hc)]
  · rfl

theorem eeShiftOutBit_spec {e : EE} (h : e.Inv) (hc : e.configured = true) :
    eeShiftOutBit e = .ok { e with
      out := (if e.bitCnt = 0 then e.mem.get e.addr else e.shreg).getLsbD 7
      shreg := (if e.bitCnt = 0 then e.mem.get e.addr else e.shreg) <<< 1, bitCnt := e.bitCnt + 1 } := by
  simp only [eeShiftOutBit, eeOutgoing_spec h hc, eeDrive]

/-! ## The commit -/

/-- Two of the first 2^p addresses of a window are different. -/
theorem windowAddr_injective {a p i j : Nat} (hi : i < 2 ^ p) (hj : j < 2 ^ p)
    (h : windowAddr a (2 ^ p - 1) i = windowAddr a (2 ^ p - 1) j) : i = j := by
  rw [windowAddr_mask, windowAddr_mask] at h
  have h2 : (a + i) % 2 ^ p = (a + j) % 2 ^ p := by omega
  have h3 : i ≡ j [MOD 2 ^ p] := Nat.ModEq.add_left_cancel' a h2
  exact Nat.ModEq.eq_of_lt_of_lt h3 hi hj

/-- Starting one byte on in the window is counting from one. -/
theorem windowAddr_shift (a p n : Nat) :
    windowAddr (windowAddr a (2 ^ p - 1) 1) (2 ^ p - 1) n = windowAddr a (2 ^ p - 1) (n + 1) := by
  rw [← iterate_wrapInc, ← wrapInc_eq_windowAddr, ← iterate_wrapInc]
  exact (Function.iterate_succ_apply (fun x => wrapInc x (2 ^ p - 1)) n a).symm

/-- Everything the commit loop can do (R143): it answers, keeps the memory canonical, stores each byte at its address
of the page and leaves every other byte. -/
theorem commitBytes_spec {p j : Nat} (hpj : p ≤ j) (l : List Byte) {a : Nat} {m : Memory} (hw : m.wf)
    (ha : a ≤ 2 ^ j - 1) (hj : 2 ^ j ≤ m.len) (hl : l.length ≤ 2 ^ p) :
    ∃ m', commitBytes (2 ^ p - 1) l a m = .ok (m', windowAddr a (2 ^ p - 1) l.length) ∧ m'.len = m.len ∧ m'.wf ∧
      (∀ k (hk : k < l.length), m'.get (windowAddr a (2 ^ p - 1) k) = l[k]) ∧
      ∀ x, (∀ k, k < l.length → x ≠ windowAddr a (2 ^ p - 1) k) → m'.get x = m.get x := by
  induction l generalizing a m with
  | nil => exact ⟨m, by simp [commitBytes, windowAddr_zero], rfl, hw, by simp, fun _ _ => rfl⟩
  | cons b bs ih =>
    have hjp := Nat.two_pow_pos j
    have hlt : a < m.len := by omega
    obtain ⟨-, hlen1, hw1, hg1⟩ := memWrite_spec (memWrite_isSome (v := b) hlt) hw
    have ha' : windowAddr a (2 ^ p - 1) 1 ≤ 2 ^ j - 1 := windowAddr_le hpj ha 1
    simp only [List.length_cons] at hl
    obtain ⟨m', h1, h2, h3, h4, h5⟩ := ih hw1 ha' (by rw [hlen1]; exact hj) (by omega)
    refine ⟨m', ?_, by rw [h2, hlen1], h3, ?_, ?_⟩
    · simp only [commitBytes, memWrite_isSome hlt, wrapInc_eq_windowAddr, h1, windowAddr_shift, List.length_cons]
    · intro k hk
      simp only [List.length_cons] at hk
      rcases k with _ | k
      · rw [windowAddr_zero, h5, hg1, if_pos rfl]
        · rfl
        intro k hk
        rw [windowAddr_shift]
        intro heq
        have := windowAddr_injective (a := a) (p := p) (i := 0) (j := k + 1) (by omega) (by omega)
          (by rw [windowAddr_zero]; exact heq)
        omega
      · have := h4 k (by omega)
        rw [windowAddr_shift] at this
        rw [this]; rfl
    · intro x hx
      rw [h5, hg1, if_neg]
      · have := hx 0 (by simp)
        rwa [windowAddr_zero] at this
      · intro k hk
        rw [windowAddr_shift]
        exact hx (k + 1) (by simp; omega)

/-- The commit of a legal block (R143). -/
theorem eeCommit_spec {e : EE} (h : e.Inv) (hc : e.configured = true) :
    ∃ m, eeCommit e = .ok { e with mem := m, addr := windowAddr e.addr e.pageMask e.pcnt, newData := true } ∧
      m.len = e.mem.len ∧ m.wf ∧ windowAddr e.addr e.pageMask e.pcnt ≤ e.addrMask ∧
      (∀ k, k < e.pcnt → windowAddr e.addr e.pageMask k ≤ e.addrMask ∧
        memRead m (windowAddr e.addr e.pageMask k) = e.pbuf[k]?) ∧
      ∀ x, (∀ k, k < e.pcnt → x ≠ windowAddr e.addr e.pageMask k) → memRead m x = memRead e.mem x := by
  obtain ⟨hl, hr⟩ := h.2 hc
  obtain ⟨p, j, b, -, hp4, hpj, -, hps, hpm, ham, -, hlen⟩ := EE.legal_windows hl
  have hcnt : e.pcnt ≤ 2 ^ p := by rw [← hps]; exact hr.2.2.1
  have hp16 : 2 ^ p ≤ 16 := by
    calc 2 ^ p ≤ 2 ^ 4 := Nat.pow_le_pow_right (by omega) hp4
      _ = 16 := rfl
  have hjp := Nat.two_pow_pos j
  have hll : (e.pbuf.toList.take e.pcnt).length = e.pcnt := by simp; omega
  obtain ⟨m, h1, h2, h3, h4, h5⟩ := commitBytes_spec hpj (e.pbuf.toList.take e.pcnt) (a := e.addr) h.1
    (by rw [← ham]; exact hr.1) hlen (by rw [hll]; exact hcnt)
  rw [hll] at h1
  rw [hll] at h5
  have hb : ∀ k, windowAddr e.addr (2 ^ p - 1) k ≤ 2 ^ j - 1 := windowAddr_le hpj (by rw [← ham]; exact hr.1)
  rw [← hpm] at h1 h4 h5 hb
  rw [← ham] at hb
  refine ⟨m, by simp only [eeCommit, h1, eeSetNewData], h2, h3, hb _, ?_, ?_⟩
  · intro k hk
    refine ⟨hb k, ?_⟩
    rw [memRead_some (by have := hb k; omega), h4 k (by omega)]
    simp only [List.getElem_take, Vector.getElem_toList]
    exact (Vector.getElem?_eq_getElem _).symm
  · intro x hx
    unfold memRead
    rw [h2, h5 x hx]

end Sys2Proof.Machine
end

