-- ==== Sys2Proof/Laws/Fl.lean ====
section
/-! SUPPORT. What the shared operations of the Flash block can do: the target of an access, the erases, the byte
program, and the rows of the sequencer. -/

namespace Sys2Proof.Machine

/-! ## The target (R40, R41, R60, R61) -/

/-- A capacity is a power of two of whole sectors, below 2^32. -/
theorem variantCapacity_pow (v : Variant) : ∃ k, 12 ≤ k ∧ k < 32 ∧ variantCapacity v = 2 ^ k := by
  cases v
  · exact ⟨17, by decide⟩
  · exact ⟨18, by decide⟩
  · exact ⟨19, by decide⟩

/-- Masking with `capacity - 1` is counting modulo the capacity. -/
theorem flTarget_mask {k : Nat} (hk : k < 32) (a : Addr) : flTarget a (BitVec.ofNat 32 (2 ^ k - 1)) = a.toNat % 2 ^ k := by
  have h32 : 2 ^ k < 2 ^ 32 := Nat.pow_lt_pow_right (by omega) hk
  have hpos := Nat.two_pow_pos k
  rw [flTarget, BitVec.toNat_and, BitVec.toNat_ofNat, Nat.mod_eq_of_lt (by omega), and_mask]

/-- The sector base is the multiple of 4096 at or below the target (R61). -/
theorem sectorBase_eq (t : Nat) : sectorBase t = 4096 * (t / 4096) := by
  rw [sectorBase, show (0xFFF : Nat) = 2 ^ 12 - 1 from rfl, clearBits_mask]; norm_num

/-- The sector number is the target over 4096 (R61). -/
theorem sectorOf_eq (t : Nat) : sectorOf t = t / 4096 := by rw [sectorOf, Nat.shiftRight_eq_div_pow]

/-- An address is in the sector of t exactly when their sector numbers agree. -/
theorem mem_sector_iff (t x : Nat) : (sectorBase t ≤ x ∧ x < sectorBase t + 4096) ↔ sectorOf x = sectorOf t := by
  rw [sectorBase_eq, sectorOf_eq, sectorOf_eq]; omega

/-- Every FL memory access is in bounds: the target, its whole sector, and the capacity (R60, R175, R176). -/
theorem FL.target_in_bounds {c : Config} {f : FL} (h : FL.Inv c f) (hc : f.configured = true) (a : Addr) :
    flTarget a f.addrMask < f.mem.len ∧ sectorBase (flTarget a f.addrMask) + 4096 ≤ f.mem.len ∧
      f.mem.len = f.capacity := by
  obtain ⟨h1, h2, h3, -⟩ := h.2 hc
  obtain ⟨k, hk, hk2, hv⟩ := variantCapacity_pow f.variant
  rw [h3, h2, h1, hv, flTarget_mask hk2, sectorBase_eq]
  have hm : a.toNat % 2 ^ k < 2 ^ k := Nat.mod_lt _ (Nat.two_pow_pos k)
  obtain ⟨d, rfl⟩ := Nat.exists_eq_add_of_le hk
  have : 2 ^ (12 + d) = 4096 * 2 ^ d := by rw [Nat.pow_add]
  exact ⟨hm, by omega, rfl⟩

/-! ## The commands that write memory -/

/-- Sector erase: what it stores and what it keeps (R175). -/
theorem flEraseSector_spec {c : Config} {f : FL} (h : FL.Inv c f) (hc : f.configured = true) (a : Addr) :
    ∃ m, flEraseSector a f = .ok { f with mem := m, cyc := .c0 } ∧ m.len = f.mem.len ∧ m.wf ∧
      ∀ x, memRead m x = if sectorBase (flTarget a f.addrMask) ≤ x ∧ x < sectorBase (flTarget a f.addrMask) + 4096
        then some 0xFF else memRead f.mem x := by
  obtain ⟨-, h2, -⟩ := FL.target_in_bounds h hc a
  obtain ⟨m, hm⟩ := memErase_isSome (m := f.mem) h2
  obtain ⟨-, hl, hw, hg⟩ := memErase_spec hm h.1
  refine ⟨m, by simp only [flEraseSector, flEraseRange, hm, flGoto], hl, hw, fun x => ?_⟩
  unfold memRead
  rw [hl, hg]
  by_cases hx : sectorBase (flTarget a f.addrMask) ≤ x ∧ x < sectorBase (flTarget a f.addrMask) + 4096
  · rw [if_pos hx, if_pos hx, if_pos (by omega)]
  · rw [if_neg hx, if_neg hx]

/-- Chip erase (R176). -/
theorem flEraseChip_spec {c : Config} {f : FL} (h : FL.Inv c f) (hc : f.configured = true) :
    ∃ m, flEraseChip f = .ok { f with mem := m, cyc := .c0 } ∧ m.len = f.mem.len ∧ m.wf ∧
      ∀ x, x < f.capacity → memRead m x = some 0xFF := by
  obtain ⟨-, -, h3⟩ := FL.target_in_bounds h hc 0
  obtain ⟨m, hm⟩ := memErase_isSome (m := f.mem) (base := 0) (n := f.capacity) (by omega)
  obtain ⟨-, hl, hw, hg⟩ := memErase_spec hm h.1
  refine ⟨m, by simp only [flEraseChip, flEraseRange, hm, flGoto], hl, hw, fun x hx => ?_⟩
  rw [memRead_some (by omega), hg, if_pos (by omega)]

/-- Byte program (R178): the old byte AND the data. -/
theorem flProgram_spec {c : Config} {f : FL} (h : FL.Inv c f) (hc : f.configured = true) (a : Addr) (d : Byte) :
    ∃ m, flProgram a d f = .ok { f with mem := m, newData := true, cyc := .c0 } ∧ m.len = f.mem.len ∧ m.wf ∧
      ∀ x, memRead m x = if x = flTarget a f.addrMask then some (f.mem.get (flTarget a f.addrMask) &&& d)
        else memRead f.mem x := by
  obtain ⟨h1, -⟩ := FL.target_in_bounds h hc a
  have hm := memWrite_isSome (v := f.mem.get (flTarget a f.addrMask) &&& d) h1
  obtain ⟨-, hl, hw, -⟩ := memWrite_spec hm h.1
  exact ⟨_, by simp only [flProgram, memRead_some h1, hm, flSetNewData, flGoto], hl, hw, memRead_memWrite hm h.1⟩

end Sys2Proof.Machine
end

