-- ==== Sys2Proof/Laws/PerInstr.lean ====
section
/-! SUPPORT. Per instruction: the word the encoder gives a well-formed instruction decodes to it, every operand kept. -/

namespace Sys2Proof.Laws.RoundTrip

/-- Decoding the encoding of i gives i, under every parameter set that meets R81. -/
def Statement (i : Instr) : Prop := ∀ p : Config, p.wf → wellFormed p i = true → decode p (encode p i) = .ok i

theorem ecfg (size pageSize : Nat) (mode : Option DevMode) : Statement (.ecfg size pageSize mode) := by
  intro p _ h
  obtain ⟨⟨hs, hk⟩, hp⟩ : (2 ^ Nat.log2 size = size ∧ Nat.log2 size < 64) ∧ isPageSize pageSize = true := by
    simpa [wellFormed, wfEcfg] using h
  have hk' : (BitVec.ofNat 8 (Nat.log2 size)).toNat = Nat.log2 size := by
    simp only [BitVec.toNat_ofNat]; omega
  have hm : ((codeOfMode mode ++ codeOfPage pageSize).setWidth 8).toNat < 16 ∧
      pageOfCode (((codeOfMode mode ++ codeOfPage pageSize).setWidth 8).extractLsb' 0 2) = pageSize ∧
      modeOfCode (((codeOfMode mode ++ codeOfPage pageSize).setWidth 8).extractLsb' 2 2) = mode := by
    have hp' : pageSize = 2 ∨ pageSize = 4 ∨ pageSize = 8 ∨ pageSize = 16 := by
      simpa [isPageSize, or_assoc] using hp
    rcases mode with _ | m
    · rcases hp' with rfl | rfl | rfl | rfl <;> decide
    · cases m <;> rcases hp' with rfl | rfl | rfl | rfl <;> decide
  show decodeEcfg [BitVec.ofNat 8 (Nat.log2 size), (codeOfMode mode ++ codeOfPage pageSize).setWidth 8] = _
  simp only [decodeEcfg, hk', hm.1, hm.2.1, hm.2.2, hk, hs, decide_true, Bool.and_self, if_true, endOf]

theorem sample (we sda scl : Bool) : Statement (.sample we sda scl) := by
  intro p _ _
  cases we <;> cases sda <;> cases scl <;> rfl

theorem erd : Statement (.erd) := by
  intro p _ _; rfl

theorem enew : Statement (.enew) := by
  intro p _ _; rfl

theorem esize : Statement (.esize) := by
  intro p _ _; rfl

theorem fcfg (variant : Option Variant) : Statement (.fcfg variant) := by
  intro p _ _
  cases variant with
  | none => rfl
  | some v => cases v <;> rfl

theorem busWrite (a : Addr) (d : Byte) : Statement (.busWrite a d) := by
  intro p _ _
  show Except.ok _ = _
  rw [addrOfBytes_addrByte]

theorem busRead (a : Addr) : Statement (.busRead a) := by
  intro p _ _
  show Except.ok _ = _
  rw [addrOfBytes_addrByte]

theorem fnew : Statement (.fnew) := by
  intro p _ _; rfl

theorem fsize : Statement (.fsize) := by
  intro p _ _; rfl

theorem eeStart : Statement (.eeStart) := by
  intro p _ _; rfl

theorem eeStop : Statement (.eeStop) := by
  intro p _ _; rfl

theorem eeRise (prevSda sda : Bool) : Statement (.eeRise prevSda sda) := by
  intro p _ _
  cases prevSda <;> cases sda <;> rfl

theorem eeHighHoldLow : Statement (.eeHighHoldLow) := by
  intro p _ _; rfl

theorem eeHighHoldHigh : Statement (.eeHighHoldHigh) := by
  intro p _ _; rfl

theorem eeLow (prevScl prevSda sda : Bool) : Statement (.eeLow prevScl prevSda sda) := by
  intro p _ _
  cases prevScl <;> cases prevSda <;> cases sda <;> rfl

theorem eeShiftIn (sda : Bool) : Statement (.eeShiftIn sda) := by
  intro p _ _; rfl

theorem eeShiftOut : Statement (.eeShiftOut) := by
  intro p _ _; rfl

theorem eeWackSlot : Statement (.eeWackSlot) := by
  intro p _ _; rfl

theorem eeRackSlot (sda : Bool) : Statement (.eeRackSlot sda) := by
  intro p _ _; rfl

theorem eeCtrlMatch (rw : Bool) : Statement (.eeCtrlMatch rw) := by
  intro p _ _
  show decodeByte p .control .needsDeviceByte 4 0 (controlByte p.select7 rw) = _
  simp [decodeByte, selOf_controlByte, rwOf_controlByte]

theorem eeCtrlMismatch (b : Byte) : Statement (.eeCtrlMismatch b) := by
  intro p _ h
  have h' : selOf b ≠ p.select7 := by simpa [wellFormed, wfMismatch] using h
  simp [encode, decode, decodeByte, h']

theorem eeDetect (b : Byte) : Statement (.eeDetect b) := by
  intro p _ h
  have h' : selOf b ≠ p.select7 := by simpa [wellFormed, wfMismatch] using h
  simp [encode, decode, decodeByte, h']

theorem eeAddress (b : Byte) : Statement (.eeAddress b) := by
  intro p _ _; rfl

theorem eeQuirkAbort (b : Byte) : Statement (.eeQuirkAbort b) := by
  intro p _ _; rfl

theorem eeDataWrite (b : Byte) : Statement (.eeDataWrite b) := by
  intro p _ _; rfl

theorem flIdExit1 (a : Addr) : Statement (.flIdExit1 a) := by
  intro p hp h
  obtain ⟨h1, h2, h3, h4, h5, h6, h7, h8, h9⟩ := hp
  simp only [encode, decode, busAddr_busWord, busData_busWord]
  simp [decodeCycle]

theorem flUnlock1 (a : Addr) : Statement (.flUnlock1 a) := by
  intro p hp h
  obtain ⟨h1, h2, h3, h4, h5, h6, h7, h8, h9⟩ := hp
  simp only [encode, decode, busAddr_busWord, busData_busWord]
  have hu : isUnlock p 0 a 0xAA = true := by simpa [isUnlock_eq, wellFormed] using h
  simp only [decodeCycle, hu, Bool.false_and, Bool.false_eq_true, if_true, if_false]

theorem flC0Other (a : Addr) (d : Byte) : Statement (.flC0Other a d) := by
  intro p hp h
  obtain ⟨h1, h2, h3, h4, h5, h6, h7, h8, h9⟩ := hp
  simp only [encode, decode, busAddr_busWord, busData_busWord]
  have hu : isUnlock p 0 a d = false := by simpa [wellFormed] using h
  simp only [decodeCycle, hu, Bool.false_and, Bool.false_eq_true, if_true, if_false]

theorem flUnlock2 (a : Addr) : Statement (.flUnlock2 a) := by
  intro p hp h
  obtain ⟨h1, h2, h3, h4, h5, h6, h7, h8, h9⟩ := hp
  simp only [encode, decode, busAddr_busWord, busData_busWord]
  have hu : isUnlock p 1 a 0x55 = true := by simpa [isUnlock_eq, wellFormed] using h
  simp only [decodeCycle, hu, Bool.false_and, Bool.false_eq_true, if_true, if_false]

theorem flC1Abort (a : Addr) (d : Byte) : Statement (.flC1Abort a d) := by
  intro p hp h
  obtain ⟨h1, h2, h3, h4, h5, h6, h7, h8, h9⟩ := hp
  simp only [encode, decode, busAddr_busWord, busData_busWord]
  have hu : isUnlock p 1 a d = false := by simpa [wellFormed] using h
  simp only [decodeCycle, hu, Bool.false_and, Bool.false_eq_true, if_true, if_false]

theorem flEraseSetup (a : Addr) : Statement (.flEraseSetup a) := by
  intro p hp h
  obtain ⟨h1, h2, h3, h4, h5, h6, h7, h8, h9⟩ := hp
  simp only [encode, decode, busAddr_busWord, busData_busWord]
  have hu : isUnlock p 2 a 0x80 = true := by simpa [isUnlock_eq, wellFormed] using h
  simp only [decodeCycle, hu, Bool.false_and, Bool.false_eq_true, if_true, if_false]

theorem flProgramSetup (a : Addr) : Statement (.flProgramSetup a) := by
  intro p hp h
  obtain ⟨h1, h2, h3, h4, h5, h6, h7, h8, h9⟩ := hp
  simp only [encode, decode, busAddr_busWord, busData_busWord]
  have ha : at5555 p a = true := by simpa [wellFormed] using h
  have hu : isUnlock p 2 a p.cmdProgram = false := by
    simp only [isUnlock_eq, beq_eq_false_iff_ne.2 h4, Bool.and_false]
  simp [decodeCycle, hu, isCommand, ha]

theorem flIdEntry (a : Addr) : Statement (.flIdEntry a) := by
  intro p hp h
  obtain ⟨h1, h2, h3, h4, h5, h6, h7, h8, h9⟩ := hp
  simp only [encode, decode, busAddr_busWord, busData_busWord]
  have ha : at5555 p a = true := by simpa [wellFormed] using h
  have hu : isUnlock p 2 a p.cmdIdEntry = false := by
    simp only [isUnlock_eq, beq_eq_false_iff_ne.2 h5, Bool.and_false]
  simp [decodeCycle, hu, isCommand, ha, h1.symm]

theorem flIdExit3 (a : Addr) : Statement (.flIdExit3 a) := by
  intro p hp h
  obtain ⟨h1, h2, h3, h4, h5, h6, h7, h8, h9⟩ := hp
  simp only [encode, decode, busAddr_busWord, busData_busWord]
  have ha : at5555 p a = true := by simpa [wellFormed] using h
  have hu : isUnlock p 2 a p.cmdIdExit = false := by
    simp only [isUnlock_eq, beq_eq_false_iff_ne.2 h6, Bool.and_false]
  simp [decodeCycle, hu, isCommand, ha, h2.symm, h3.symm]

theorem flC2Abort (a : Addr) (d : Byte) : Statement (.flC2Abort a d) := by
  intro p hp h
  obtain ⟨h1, h2, h3, h4, h5, h6, h7, h8, h9⟩ := hp
  simp only [encode, decode, busAddr_busWord, busData_busWord]
  have hu : ((isUnlock p 2 a d = false ∧ isCommand p p.cmdProgram a d = false) ∧
      isCommand p p.cmdIdEntry a d = false) ∧ isCommand p p.cmdIdExit a d = false := by
    simpa [wellFormed, isC2Command] using h
  simp [decodeCycle, hu.1.1.1, hu.1.1.2, hu.1.2, hu.2]

theorem flUnlock4 (a : Addr) : Statement (.flUnlock4 a) := by
  intro p hp h
  obtain ⟨h1, h2, h3, h4, h5, h6, h7, h8, h9⟩ := hp
  simp only [encode, decode, busAddr_busWord, busData_busWord]
  have hu : isUnlock p 3 a 0xAA = true := by simpa [isUnlock_eq, wellFormed] using h
  simp only [decodeCycle, hu, Bool.false_and, Bool.false_eq_true, if_true, if_false]

theorem flUnlock5 (a : Addr) : Statement (.flUnlock5 a) := by
  intro p hp h
  obtain ⟨h1, h2, h3, h4, h5, h6, h7, h8, h9⟩ := hp
  simp only [encode, decode, busAddr_busWord, busData_busWord]
  have hu : isUnlock p 4 a 0x55 = true := by simpa [isUnlock_eq, wellFormed] using h
  simp only [decodeCycle, hu, Bool.false_and, Bool.false_eq_true, if_true, if_false]

theorem flC3C4Abort (a : Addr) (d : Byte) : Statement (.flC3C4Abort a d) := by
  intro p _ _
  by_cases h : isUnlock p 3 a d
  · have h' : isUnlock p 4 a d = false := by
      simp only [isUnlock, flUnlock, Bool.and_eq_true, beq_iff_eq] at h ⊢
      have hd := h.2
      simp_all
    simp [encode, decode, decodeCycle, busAddr_busWord, busData_busWord, h, h']
  · simp [encode, decode, decodeCycle, busAddr_busWord, busData_busWord, h]

theorem flSectorErase (a : Addr) : Statement (.flSectorErase a) := by
  intro p hp h
  obtain ⟨h1, h2, h3, h4, h5, h6, h7, h8, h9⟩ := hp
  simp only [encode, decode, busAddr_busWord, busData_busWord]
  simp [decodeCycle]

theorem flChipErase (a : Addr) : Statement (.flChipErase a) := by
  intro p hp h
  obtain ⟨h1, h2, h3, h4, h5, h6, h7, h8, h9⟩ := hp
  simp only [encode, decode, busAddr_busWord, busData_busWord]
  have ha : at5555 p a = true := by simpa [wellFormed] using h
  simp [decodeCycle, isCommand, ha]

theorem flEraseAbort (a : Addr) (d : Byte) : Statement (.flEraseAbort a d) := by
  intro p hp h
  obtain ⟨h1, h2, h3, h4, h5, h6, h7, h8, h9⟩ := hp
  simp only [encode, decode, busAddr_busWord, busData_busWord]
  have hu : d ≠ 0x30 ∧ isCommand p 0x10 a d = false := by simpa [wellFormed] using h
  have hd : (d == 0x30) = false := by simpa using hu.1
  simp only [decodeCycle, hd, hu.2, Bool.false_eq_true, if_false]

theorem flByteProgram (a : Addr) (d : Byte) : Statement (.flByteProgram a d) := by
  intro p hp h
  obtain ⟨h1, h2, h3, h4, h5, h6, h7, h8, h9⟩ := hp
  simp only [encode, decode, busAddr_busWord, busData_busWord]
  simp [decodeCycle]

theorem flReadArray (a : Addr) : Statement (.flReadArray a) := by
  intro p _ _; rfl

theorem flReadMfrId : Statement (.flReadMfrId) := by
  intro p _ _; rfl

theorem flReadDevId : Statement (.flReadDevId) := by
  intro p _ _; rfl

theorem flReadIdOther (a : Addr) : Statement (.flReadIdOther a) := by
  intro p _ h
  have h' : a ≠ 0 ∧ a ≠ 1 := by simpa [wellFormed] using h
  show Except.ok (decodeRead true a) = _
  rw [decodeRead, if_pos rfl, if_neg h'.1, if_neg h'.2]

end Sys2Proof.Laws.RoundTrip
end

