-- ==== Sys2Proof/Tests/Slice0.lean ====
section
/-! SUPPORT. The model's own tests: ill-formed terms, one written-out word for every constructor (30_encoding.md), one
step per case of spec/95_test_vectors.md, and for every obligation with hypotheses a state that meets them. -/

namespace Sys2Proof.Tests

open Sys2Proof.Machine

/-! ## Small states -/

/-- The spec's parameters, with a NODEV_DIR table that reads for 0x06 and 0xFF only. -/
def cfg : Config := { Config.spec with nodevTable := BitVec.ofNat 256 (2 ^ 6 + 2 ^ 255) }

/-- EE after `ECFG 256, 4, NEEDS` and an IDLE sample. -/
def ee0 : EE := { EE.reset with
  cfgSize := 256, pageSize := 4, pageMask := 3, addrMask := 255, blockMask := 255
  prevScl := true, prevSda := true, mem := ⟨256, []⟩, configured := true }

/-- FL after `FCFG V128K`. -/
def fl0 : FL := { FL.reset with
  capacity := 131072, addrMask := 0x1FFFF, mfrId := 0xBF, devId := 0xB5, mem := ⟨131072, []⟩, configured := true }

def st0 : State := ⟨cfg, ee0, fl0, ⟨[], none, none, []⟩⟩

/-- st0 with its EE block changed. -/
def ee (f : EE → EE) : State := st0.withEe (f ee0)

/-- st0 with its FL block changed. -/
def fl (f : FL → FL) : State := st0.withFl (f fl0)

/-- At slot 9 of a frame in this protocol state, the clock low and the data line high. -/
def slot9 (st : EeState) (b : Byte) (e : EE) : EE :=
  { e with st := st, shreg := b, bitCnt := 8, prevScl := false, prevSda := true }

/-- In DATA with WRITE, three bytes buffered for page 0x0C, latched at 0x0E; the next sample can be a Stop. -/
def dataWrite (e : EE) : EE := { e with
  st := .data, addr := 0x0E, pbuf := (Vector.replicate 16 0).setIfInBounds 0 1 |>.setIfInBounds 1 2 |>.setIfInBounds 2 3
  pcur := 3, pcnt := 3, prevSda := false }

/-- In DATA with READ at slot 1, `mem[5] = 0x96` addressed. -/
def dataRead (e : EE) : EE := { e with st := .data, dir := .read, addr := 5, mem := ⟨256, [(5, 0x96)]⟩ }

/-- In DATA with WRITE, latched at 0x0E, nothing buffered. -/
def latched (e : EE) : EE := { e with st := .data, addr := 0x0E }

/-- A page of two bytes, both buffered. -/
def page2 (e : EE) : EE := { e with pageSize := 2, pageMask := 1, pcnt := 2 }

/-- A fresh buffer of DETECT mode. -/
def detect (e : EE) : EE := { e with devMode := .detectNoDeviceByte }

/-- NONE mode. -/
def noDevice (e : EE) : EE := { e with devMode := .noDeviceByte }

/-- The next state, `none` where the step stops. -/
def nextOf : Answer → Option State
  | .next s => some s
  | .fault _ => none
  | .refused _ => none

/-- The fault, `none` where there is none. -/
def faultOf : Answer → Option Fault
  | .next _ => none
  | .fault r => some r
  | .refused _ => none

/-- A field of the EE block after an instruction. -/
def eeAfter {α : Type} (i : Instr) (s : State) (f : EE → α) : Option α := (nextOf (exec i s)).map fun t => f t.ee

/-- A field of the FL block after an instruction. -/
def flAfter {α : Type} (i : Instr) (s : State) (f : FL → α) : Option α := (nextOf (exec i s)).map fun t => f t.fl

/-- The newest returned value after an instruction. -/
def answerOf (i : Instr) (s : State) : Option Returned := (nextOf (exec i s)).bind fun t => t.caller.returned.head?

/-- The instruction an input decodes to under the spec's parameters. -/
def dec (code : Code) : Option Instr :=
  match decode Config.spec code with
  | .ok i => some i
  | .error _ => none

/-- A DATA WRITE byte input. -/
def dataByte (pageSize pcnt : Nat) (b : Byte) : Code := .frameByte .data .needsDeviceByte pageSize pcnt b

/-! ## Ill-formed terms -/

theorem test_wf_ecfg :
    wellFormed Config.spec (.ecfg 96 4 none) = false ∧ wellFormed Config.spec (.ecfg (2 ^ 64) 4 none) = false ∧
    wellFormed Config.spec (.ecfg 128 1 none) = false ∧ wellFormed Config.spec (.ecfg 128 32 none) = false := by decide

theorem test_wf_control :
    wellFormed Config.spec (.eeCtrlMismatch 0xA1) = false ∧ wellFormed Config.spec (.eeDetect 0xA0) = false := by decide

theorem test_wf_commands :
    wellFormed Config.spec (.flUnlock1 0x5554) = false ∧ wellFormed Config.spec (.flUnlock2 0x5555) = false ∧
    wellFormed Config.spec (.flEraseSetup 0x2AAA) = false ∧ wellFormed Config.spec (.flProgramSetup 0x15555) = false ∧
    wellFormed Config.spec (.flIdEntry 0) = false ∧ wellFormed Config.spec (.flIdExit3 0x1234) = false ∧
    wellFormed Config.spec (.flUnlock4 0xD555) = false ∧ wellFormed Config.spec (.flUnlock5 0x2AAB) = false ∧
    wellFormed Config.spec (.flChipErase 0) = false := by decide

theorem test_wf_otherwise_rows :
    wellFormed Config.spec (.flC0Other 0x5555 0xAA) = false ∧ wellFormed Config.spec (.flC1Abort 0x2AAA 0x55) = false ∧
    wellFormed Config.spec (.flC2Abort 0x5555 0x80) = false ∧ wellFormed Config.spec (.flC2Abort 0x5555 0xA0) = false ∧
    wellFormed Config.spec (.flC2Abort 0x5555 0x90) = false ∧ wellFormed Config.spec (.flC2Abort 0x5555 0xF0) = false ∧
    wellFormed Config.spec (.flEraseAbort 0 0x30) = false ∧ wellFormed Config.spec (.flEraseAbort 0x5555 0x10) = false ∧
    wellFormed Config.spec (.flReadIdOther 0) = false ∧ wellFormed Config.spec (.flReadIdOther 1) = false := by decide

/-! ## Decoding: words written out from 30_encoding.md -/

/-- R71 and R72: `selector`, then the operands. ECFG 128, 4, NONE has k = 7, pg = 1, md = 0. -/
theorem test_decode_host :
    dec (.host [0b00000000, 0b00000111, 0b00000001]) = some (.ecfg 128 4 (some .noDeviceByte)) ∧
    dec (.host [0b00000000, 0b00001000, 0b00001110]) = some (.ecfg 256 8 none) ∧
    dec (.host [0b00000001, 0b00000101]) = some (.sample true false true) ∧
    dec (.host [0b00000010]) = some .erd ∧ dec (.host [0b00000011]) = some .enew ∧
    dec (.host [0b00000100]) = some .esize ∧
    dec (.host [0b00001000, 0b00000010]) = some (.fcfg (some .v512K)) ∧
    dec (.host [0b00001000, 0b00000011]) = some (.fcfg none) ∧
    dec (.host [0b00001001, 0xAA, 0x55, 0x55, 0x00, 0x00]) = some (.busWrite 0x5555 0xAA) ∧
    dec (.host [0b00001010, 0x34, 0x12, 0x00, 0x80]) = some (.busRead 0x80001234) ∧
    dec (.host [0b00001011]) = some .fnew ∧ dec (.host [0b00001100]) = some .fsize := by decide

/-- Selectors 5, 6, 7, D, E, F name no operation; missing, further and unused bits are rejected. -/
theorem test_decode_host_rejects :
    dec (.host [0x05]) = none ∧ dec (.host [0x07]) = none ∧ dec (.host [0x0D]) = none ∧ dec (.host [0x0F]) = none ∧
    dec (.host []) = none ∧ dec (.host [0x01]) = none ∧ dec (.host [0x01, 0x08]) = none ∧
    dec (.host [0x02, 0x00]) = none ∧ dec (.host [0x00, 0x40, 0x00]) = none ∧ dec (.host [0x08, 0x04]) = none := by decide

/-- R73: K = prevScl prevSda scl sda. -/
theorem test_decode_detector :
    dec (.detector 0b1110) = some .eeStart ∧ dec (.detector 0b1011) = some .eeStop ∧
    dec (.detector 0b0111) = some (.eeRise true true) ∧ dec (.detector 0b0010) = some (.eeRise false false) ∧
    dec (.detector 0b1010) = some .eeHighHoldLow ∧ dec (.detector 0b1111) = some .eeHighHoldHigh ∧
    dec (.detector 0b1101) = some (.eeLow true true true) ∧ dec (.detector 0b0000) = some (.eeLow false false false) := by
  decide

/-- R127: the slot rows by (EE.st, EE.dir, EE.bitCnt). -/
theorem test_decode_slots :
    dec (.slot .address .read 7 true) = some (.eeShiftIn true) ∧ dec (.slot .data .read 7 true) = some .eeShiftOut ∧
    dec (.slot .data .write 8 true) = some .eeWackSlot ∧ dec (.slot .control .read 8 true) = some .eeWackSlot ∧
    dec (.slot .data .read 8 false) = some (.eeRackSlot false) ∧ dec (.slot .standby .write 0 true) = none := by decide

/-- R75, R134: control bytes `1010000 rw`, and the byte rows. -/
theorem test_decode_bytes :
    dec (.frameByte .control .needsDeviceByte 4 0 0b10100001) = some (.eeCtrlMatch true) ∧
    dec (.frameByte .control .detectNoDeviceByte 4 0 0b10100000) = some (.eeCtrlMatch false) ∧
    dec (.frameByte .control .needsDeviceByte 4 0 0b01010000) = some (.eeCtrlMismatch 0x50) ∧
    dec (.frameByte .control .detectNoDeviceByte 4 0 0b00000110) = some (.eeDetect 0x06) ∧
    dec (.frameByte .address .noDeviceByte 4 0 0b10100000) = some (.eeAddress 0xA0) ∧
    dec (dataByte 2 2 0b00000011) = some (.eeQuirkAbort 0x03) ∧
    dec (dataByte 2 1 0b00000011) = some (.eeDataWrite 0x03) ∧ dec (dataByte 4 2 0x03) = some (.eeDataWrite 0x03) ∧
    dec (.frameByte .standby .needsDeviceByte 4 0 0xA0) = none := by decide

/-- R79, R161: rows 1 to 17, w = A ++ D. -/
theorem test_decode_cycles :
    dec (.cycle .c0 true 0x00001234F0) = some (.flIdExit1 0x1234) ∧
    dec (.cycle .c0 true 0x00005555AA) = some (.flUnlock1 0x5555) ∧
    dec (.cycle .c0 false 0x00001234F0) = some (.flC0Other 0x1234 0xF0) ∧
    dec (.cycle .c1 false 0x00002AAA55) = some (.flUnlock2 0x2AAA) ∧
    dec (.cycle .c1 true 0x00001234F0) = some (.flC1Abort 0x1234 0xF0) ∧
    dec (.cycle .c2 false 0x0000555580) = some (.flEraseSetup 0x5555) ∧
    dec (.cycle .c2 false 0x00005555A0) = some (.flProgramSetup 0x5555) ∧
    dec (.cycle .c2 false 0x0000555590) = some (.flIdEntry 0x5555) ∧
    dec (.cycle .c2 false 0x00005555F0) = some (.flIdExit3 0x5555) := by decide

theorem test_decode_cycles_last :
    dec (.cycle .c2 false 0x0000555480) = some (.flC2Abort 0x5554 0x80) ∧
    dec (.cycle .c3 false 0x00005555AA) = some (.flUnlock4 0x5555) ∧
    dec (.cycle .c4 false 0x00002AAA55) = some (.flUnlock5 0x2AAA) ∧
    dec (.cycle .c3 false 0x00002AAA55) = some (.flC3C4Abort 0x2AAA 0x55) ∧
    dec (.cycle .c4 false 0x00005555AA) = some (.flC3C4Abort 0x5555 0xAA) ∧
    dec (.cycle .erase false 0x0002123430) = some (.flSectorErase 0x21234) ∧
    dec (.cycle .erase false 0x0000555510) = some (.flChipErase 0x5555) ∧
    dec (.cycle .erase false 0x0000123410) = some (.flEraseAbort 0x1234 0x10) ∧
    dec (.cycle .prog true 0x00005555AA) = some (.flByteProgram 0x5555 0xAA) := by decide

/-- R155, R156: the identifier addresses are not masked. -/
theorem test_decode_reads :
    dec (.read false 0x00000000) = some (.flReadArray 0) ∧ dec (.read true 0x00000000) = some .flReadMfrId ∧
    dec (.read true 0x00000001) = some .flReadDevId ∧ dec (.read true 0x00020000) = some (.flReadIdOther 0x20000) := by
  decide

/-! ## One step each: 95_test_vectors.md -/

/-- E1. -/
theorem test_ecfg : eeAfter (.ecfg 128 4 (some .noDeviceByte)) (ee fun e => { e with mem := ⟨128, []⟩ })
    (fun e => (e.addrMask, e.blockMask, e.pageMask, e.st, e.out, e.newData)) =
    some (127, 127, 3, .standby, true, false) := by decide

/-- E3. -/
theorem test_ecfg_not_a_power : eeAfter (.ecfg 96 4 (some .noDeviceByte)) st0 (fun e => (e.fault, e.cfgSize)) =
    some (some .eeSizeNotPow2, 256) := by decide

/-- E12: the ACK drives over the we = 0 default. -/
theorem test_sample_ack : eeAfter (.sample false true true) (ee (slot9 .control 0xA0)) (fun e => (e.out, e.st)) =
    some (false, .address) := by decide

/-- E14. -/
theorem test_sample_start : eeAfter (.sample true false true) st0
    (fun e => (e.st, e.bitCnt, e.prevScl, e.prevSda)) = some (.control, 0, true, false) := by decide

/-- E11. -/
theorem test_erd : answerOf .erd (ee fun e => { e with out := false }) = some (.level false) := by decide

/-- E10. -/
theorem test_enew : answerOf .enew (ee fun e => { e with newData := true }) = some (.flag true) := by decide

/-- B8: ESIZE is the configured size in NONE mode too. -/
theorem test_esize : answerOf .esize (ee fun e => { e with devMode := .noDeviceByte, addrMask := 127 }) =
    some (.size 256) := by decide

/-- H2. -/
theorem test_fcfg : flAfter (.fcfg (some .v256K)) (fl fun f => { f with mem := ⟨262144, []⟩, idMode := true })
    (fun f => (f.capacity, f.addrMask, f.devId, f.idMode)) = some (262144, 0x3FFFF, 0xB6, false) := by decide

/-- H4. -/
theorem test_fcfg_buffer : flAfter (.fcfg (some .v128K)) (fl fun f => { f with mem := ⟨4096, []⟩ }) (·.fault) =
    some (some .bufferSize) := by decide

/-- Q8: the one-cycle exit is at C0 only. -/
theorem test_bus_write : flAfter (.busWrite 0x1234 0xF0) (fl fun f => { f with cyc := .c1, idMode := true })
    (fun f => (f.cyc, f.idMode)) = some (.c0, true) := by decide

/-- H10: a bus write clears the flag. -/
theorem test_bus_write_clears : flAfter (.busWrite 0 0) (fl fun f => { f with newData := true }) (·.newData) =
    some false := by decide

/-- H7: an aliased address. -/
theorem test_bus_read : answerOf (.busRead 0x20000) (fl fun f => { f with mem := ⟨131072, [(0, 0x12)]⟩ }) =
    some (.byte 0x12) := by decide

/-- H8. -/
theorem test_bus_read_id : answerOf (.busRead 1) (fl fun f => { f with idMode := true }) = some (.byte 0xB5) := by decide

/-- H10. -/
theorem test_fnew : answerOf .fnew (fl fun f => { f with newData := true }) = some (.flag true) := by decide

/-- H1. -/
theorem test_fsize : answerOf .fsize st0 = some (.size 131072) := by decide

/-- D7, and D4: the buffered bytes are lost. -/
theorem test_start : eeAfter .eeStart (ee fun e => noDevice (dataWrite e)) (fun e => (e.st, e.pcnt, e.mem.cells)) =
    some (.address, 0, []) := by decide

/-- L1.5 with three bytes: stored at 0E, 0F and, wrapping in the page, 0C. -/
theorem test_stop : eeAfter .eeStop (ee dataWrite) (fun e => (e.mem.cells, e.newData, e.addr, e.st)) =
    some ([(0x0C, 3), (0x0E, 1), (0x0F, 2)], true, 0x0D, .standby) := by decide

/-- D5: nothing is buffered. -/
theorem test_stop_empty : eeAfter .eeStop (ee fun e => { e with st := .data }) (fun e => (e.newData, e.st)) =
    some (false, .standby) := by decide

/-- B1. -/
theorem test_rise : eeAfter (.eeRise false true) (ee fun e => { e with st := .control, shreg := 0x50, out := false })
    (fun e => (e.shreg, e.bitCnt, e.out)) = some (0xA1, 1, true) := by decide

/-- D1: ignored in STANDBY. -/
theorem test_rise_standby : eeAfter (.eeRise true true) st0 (fun e => (e.st, e.bitCnt, e.shreg)) =
    some (.standby, 0, 0) := by decide

/-- R112. -/
theorem test_no_condition : eeAfter .eeHighHoldLow (ee dataRead) (fun e => e) = some (dataRead ee0) ∧
    eeAfter .eeHighHoldHigh (ee dataRead) (fun e => e) = some (dataRead ee0) ∧
    eeAfter (.eeLow true true false) (ee dataRead) (fun e => e) = some (dataRead ee0) := by decide

/-- D3. -/
theorem test_shift_in : eeAfter (.eeShiftIn true) (ee fun e => { e with st := .control }) (fun e => (e.shreg, e.bitCnt)) =
    some (0x01, 1) := by decide

/-- B2, slot 1 of 0x96 = 10010110. -/
theorem test_shift_out : eeAfter .eeShiftOut (ee dataRead) (fun e => (e.out, e.shreg, e.bitCnt)) =
    some (true, 0b00101100, 1) := by decide

/-- B2, slot 4: the register, not memory. -/
theorem test_shift_out_later : eeAfter .eeShiftOut (ee fun e => { dataRead e with bitCnt := 3, shreg := 0b10110000 })
    (fun e => (e.out, e.shreg)) = some (true, 0b01100000) := by decide

/-- B13, the last byte. -/
theorem test_wack_quirk : eeAfter .eeWackSlot (ee fun e => slot9 .data 0x03 (page2 e))
    (fun e => (e.st, e.out, e.pcnt)) = some (.standby, true, 0) := by decide

/-- B10: the latched address is masked. -/
theorem test_wack_address : eeAfter .eeWackSlot (ee fun e => slot9 .address 0xFF { e with addrMask := 0x3F })
    (fun e => (e.addr, e.st, e.bitCnt)) = some (0x3F, .data, 0) := by decide

/-- B3. -/
theorem test_rack_ack : eeAfter (.eeRackSlot false) (ee fun e => { e with addr := 0x7F, blockMask := 127, bitCnt := 8 })
    (fun e => (e.addr, e.out, e.bitCnt)) = some (0, true, 0) := by decide

/-- B4: a NACK does not advance. -/
theorem test_rack_nack : eeAfter (.eeRackSlot true) (ee fun e => { e with addr := 5 }) (·.addr) = some 5 := by decide

/-- B5. -/
theorem test_control_match : eeAfter (.eeCtrlMatch true) (ee (slot9 .control 0xA1)) (fun e => (e.out, e.dir, e.st)) =
    some (false, .read, .address) := by decide

/-- B6. -/
theorem test_control_mismatch : eeAfter (.eeCtrlMismatch 0x50) (ee (slot9 .control 0x50)) (fun e => (e.out, e.st)) =
    some (true, .standby) := by decide

/-- B8. -/
theorem test_detect : eeAfter (.eeDetect 0x00) (ee fun e => slot9 .control 0 (detect e))
    (fun e => (e.devMode, e.addrMask, e.blockMask, e.addr, e.st, e.dir)) =
    some (.noDeviceByte, 127, 127, 0, .data, .write) := by decide

/-- B9, with a table that reads for 0x06. -/
theorem test_detect_read : eeAfter (.eeDetect 0x06) (ee fun e => slot9 .control 6 (detect e)) (fun e => (e.addr, e.dir)) =
    some (6, .read) := by decide

/-- R138: in NEEDS mode the direction is kept; the page buffer is emptied. -/
theorem test_address : eeAfter (.eeAddress 0xFF) (ee fun e => { dataWrite e with dir := .read })
    (fun e => (e.addr, e.dir, e.pcnt, e.out)) = some (0xFF, .read, 0, false) := by decide

theorem test_quirk : eeAfter (.eeQuirkAbort 3) (ee fun e => page2 (dataWrite e)) (fun e => (e.st, e.out, e.pcur)) =
    some (.standby, true, 0) := by decide

/-- B11. -/
theorem test_data_write : eeAfter (.eeDataWrite 0x77) (ee dataWrite) (fun e => (e.pbuf.toList.take 4, e.pcur, e.pcnt, e.out)) =
    some ([1, 2, 3, 0x77], 0, 4, false) := by decide

/-- B12, the fifth byte. -/
theorem test_data_write_wraps : eeAfter (.eeDataWrite 5) (ee fun e => { dataWrite e with pcur := 0, pcnt := 4 })
    (fun e => (e.pbuf.toList.take 2, e.pcur, e.pcnt)) = some ([5, 2], 1, 4) := by decide

/-- Q1 to Q5, Q23: the cycle after each prefix row and each abort row. -/
theorem test_cycle_rows :
    flAfter (.flUnlock1 0x5555) st0 (·.cyc) = some .c1 ∧ flAfter (.flUnlock2 0x2AAA) st0 (·.cyc) = some .c2 ∧
    flAfter (.flEraseSetup 0x5555) st0 (·.cyc) = some .c3 ∧ flAfter (.flUnlock4 0x5555) st0 (·.cyc) = some .c4 ∧
    flAfter (.flUnlock5 0x2AAA) st0 (·.cyc) = some .erase ∧ flAfter (.flProgramSetup 0x5555) st0 (·.cyc) = some .prog ∧
    flAfter (.flC0Other 0 0) (fl fun f => { f with cyc := .c1 }) (·.cyc) = some .c0 ∧
    flAfter (.flC1Abort 0 0) (fl fun f => { f with cyc := .c1 }) (·.cyc) = some .c0 ∧
    flAfter (.flC2Abort 0 0) (fl fun f => { f with cyc := .c2 }) (·.cyc) = some .c0 ∧
    flAfter (.flC3C4Abort 0 0) (fl fun f => { f with cyc := .c3 }) (·.cyc) = some .c0 ∧
    flAfter (.flEraseAbort 0x1234 0x10) (fl fun f => { f with cyc := .erase }) (fun f => (f.cyc, f.mem.cells)) =
      some (.c0, []) := by decide

/-- Q7, Q10, Q12. -/
theorem test_id_rows :
    flAfter (.flIdExit1 0x1234) (fl fun f => { f with idMode := true }) (·.idMode) = some false ∧
    flAfter (.flIdExit3 0x5555) (fl fun f => { f with cyc := .c2, idMode := true }) (fun f => (f.cyc, f.idMode)) =
      some (.c0, false) ∧
    flAfter (.flIdEntry 0x5555) (fl fun f => { f with cyc := .c2 }) (fun f => (f.cyc, f.idMode)) = some (.c0, true) := by
  decide

/-- Q14: the aliased sector 1, its neighbours kept. -/
theorem test_sector_erase : flAfter (.flSectorErase 0x21234)
    (fl fun f => { f with mem := ⟨131072, [(0xFFF, 0), (0x1000, 0), (0x1FFF, 0), (0x2000, 0)]⟩ })
    (fun f => (f.mem.cells, f.newData)) = some ([(0xFFF, 0), (0x2000, 0)], false) := by decide

/-- Q22. -/
theorem test_chip_erase : flAfter (.flChipErase 0x5555) (fl fun f => { f with mem := ⟨131072, [(0, 0), (131071, 7)]⟩ })
    (fun f => (f.mem.cells, f.newData)) = some ([], false) := by decide

/-- Q17. -/
theorem test_program : flAfter (.flByteProgram 0x100 0x3C) (fl fun f => { f with mem := ⟨131072, [(0x100, 0xF5)]⟩ })
    (fun f => (f.mem.cells, f.newData, f.cyc)) = some ([(0x100, 0x34)], true, .c0) := by decide

/-- Q18. -/
theorem test_program_alias : flAfter (.flByteProgram 0x20001 0x0F) (fl fun f => { f with mem := ⟨131072, [(1, 0x5A)]⟩ })
    (fun f => f.mem.cells) = some [(1, 0x0A)] := by decide

/-- H6. -/
theorem test_read_array : answerOf (.flReadArray 0x1234) (fl fun f => { f with mem := ⟨131072, [(0x1234, 0x5A)]⟩ }) =
    some (.byte 0x5A) := by decide

/-- H8. -/
theorem test_read_ids : answerOf .flReadMfrId st0 = some (.byte 0xBF) ∧ answerOf .flReadDevId st0 = some (.byte 0xB5) ∧
    flAfter (.flReadIdOther 2) st0 (·.draws) = some 1 := by decide

/-- E9, H5, E3: NOT_CONFIGURED, then stuck. -/
theorem test_model_fault :
    eeAfter (.sample true true true) State.reset (·.fault) = some (some .notConfigured) ∧
    flAfter (.busRead 0) State.reset (·.fault) = some (some .notConfigured) ∧
    faultOf (exec .erd (ee fun e => { e with fault := some .eeSizeNotPow2 })) = some (.eeStuck .eeSizeNotPow2) := by decide

/-- The bare table words of EE.START and FL.UNLOCK1 are decoded and run as the next step after reset (log 4). -/
theorem test_table_words :
    decodeTableWord 8 0b1110 = some .eeStart ∧ decodeTableWord 40 0x00005555AA = some (.flUnlock1 0x5555) ∧
    ((nextOf (step (State.reset.withFetchWord 40 0x00005555AA))).map fun t => t.fl.cyc) = some .c1 := by decide

/-! ## Hypotheses that are met -/

theorem witness_inv_st0 : st0.Inv := ⟨by decide, by decide, by decide, by decide⟩

theorem witness_inv_dataWrite : (ee dataWrite).Inv := ⟨by decide, by decide, by decide, by decide⟩

theorem witness_inv_dataRead : (ee dataRead).Inv := ⟨by decide, by decide, by decide, by decide⟩

theorem witness_inv_latched : (ee latched).Inv := ⟨by decide, by decide, by decide, by decide⟩

theorem witness_inv_idMode : (fl fun f => { f with idMode := true }).Inv := ⟨by decide, by decide, by decide, by decide⟩

theorem witness_inv_erase : (fl fun f => { f with cyc := .erase }).Inv := ⟨by decide, by decide, by decide, by decide⟩

theorem witness_inv_prog : (fl fun f => { f with cyc := .prog }).Inv := ⟨by decide, by decide, by decide, by decide⟩

theorem witness_DecodeOfEncodeIsIdentity :
    Config.spec.wf ∧ wellFormed Config.spec (.ecfg (2 ^ 63) 16 none) = true ∧
    wellFormed Config.spec (.flC2Abort 0x5555 0x77) = true ∧ wellFormed Config.spec (.flReadIdOther 2) = true := by decide

theorem witness_HostWordIsTheOnlyWord : decode Config.spec (.host [0x0, 63, 15]) = .ok (.ecfg (2 ^ 63) 16 none) := rfl

/-- One input of each clause, next to the row it is not: rows 13 and 3 beside 11 and 1, DATA_WRITE beside the quirk. -/
theorem witness_DecodedInstructionIsWellFormed :
    decode Config.spec (.cycle .c3 false 0x0000555577) = .ok (.flC3C4Abort 0x5555 0x77) ∧
    decode Config.spec (.cycle .c0 false 0x00001234F0) = .ok (.flC0Other 0x1234 0xF0) ∧
    decode Config.spec (.frameByte .data .needsDeviceByte 2 1 3) = .ok (.eeDataWrite 3) ∧
    decode Config.spec (.host [0x0B]) = .ok .fnew := ⟨rfl, rfl, rfl, rfl⟩

/-- The row order picks the earlier row: row 11 at C3, row 1 in ID mode, the quirk at a full 2-byte page. -/
theorem test_row_order :
    firstRow (cycleRows Config.spec .c3 false 0x5555 0xAA) = some (.flUnlock4 0x5555) ∧
    firstRow (cycleRows Config.spec .c0 true 0x5555 0xF0) = some (.flIdExit1 0x5555) ∧
    firstRow (byteRows Config.spec .data .needsDeviceByte 2 2 3) = some (.eeQuirkAbort 3) := by decide

/-- st0 with these events pending. -/
def pend (evs : List CallerEvent) : State := st0.withPending evs

theorem witness_StepRunsTheDecodedCall :
    (pend [.call [0x1, 0x7]]).caller.pending = .call [0x1, 0x7] :: [] ∧
    decode cfg (.host [0x1, 0x7]) = .ok (.sample true true true) ∧
    decode cfg (.host [0x5]) = .error (.unknownSelector 5) := ⟨rfl, rfl, rfl⟩

theorem witness_StepPerformsTheCallersOtherEvents :
    st0.caller.pending = [] ∧ (pend [.configureEe 96 4 none]).caller.pending = .configureEe 96 4 none :: [] ∧
    (pend [.pokeEe 255 1]).caller.pending = .pokeEe 255 1 :: [] ∧ st0.ee.mem.wf ∧ 255 < st0.ee.mem.len ∧
    (pend [.pokeFl 131071 1]).caller.pending = .pokeFl 131071 1 :: [] ∧ st0.fl.mem.wf ∧ 131071 < st0.fl.mem.len ∧
    (pend [.offerEe 2 [(1, 7)]]).caller.pending = .offerEe 2 [(1, 7)] :: [] ∧
    (pend [.offerFl 2 [(1, 7)]]).caller.pending = .offerFl 2 [(1, 7)] :: [] := by decide

/-- An offer's last entry for an address stands, and an entry beyond its length is no byte of it. -/
theorem test_offer : ((nextOf (step (pend [.offerEe 2 [(1, 7), (1, 9), (2, 5)]]))).bind fun t =>
    t.caller.eeOffer.map fun m => (m, memRead m 0, memRead m 1, memRead m 2)) =
    some (⟨2, [(1, 9)]⟩, some 0xFF, some 9, none) := by decide

theorem witness_StepKeepsTheParameters : step st0 = .next st0 := rfl

theorem witness_StepKeepsTheInvariant : ((ee dataWrite).withPending [.call [0x1, 0x7]]).Inv ∧
    (nextOf (step ((ee dataWrite).withPending [.call [0x1, 0x7]]))).isSome = true :=
  ⟨witness_inv_dataWrite, by decide⟩

theorem witness_NoHostOperationFaultsOnLiveBlocks : st0.Inv ∧ st0.ee.live ∧ st0.fl.live ∧
    isHostOperation (.busRead 0xFFFFFFFF) = true ∧ isConfigure (.busRead 0xFFFFFFFF) = false :=
  ⟨witness_inv_st0, by decide⟩

/-- Each clause of the EE contract, at the edge of its range. -/
theorem witness_EeConfigureFollowsItsContract :
    (ee fun e => { e with fault := some .eeMode }).ee.fault = some .eeMode ∧ st0.ee.fault = none ∧
    isSize 1 = false ∧ isSize 3 = false ∧ (2 = 2 ^ 1) ∧ 1 ∉ [2, 4, 8, 16] ∧ 16 ∈ [2, 4, 8, 16] ∧
    (8 = 2 ^ 3 ∧ 8 < 16) ∧ (16 = 2 ^ 4 ∧ 16 ≤ 16) ∧ (64 = 2 ^ 6 ∧ 64 < 128) ∧ 128 = 2 ^ 7 ∧
    (st0.caller.eeOffer.getD st0.ee.mem).len ≠ 128 ∧ (st0.caller.eeOffer.getD st0.ee.mem).len = 256 ∧
    st0.config.eeMaxSize = none ∧ ({ cfg with eeMaxSize := some 255 } : Config).eeMaxSize = some 255 ∧ 255 < 256 := by
  decide

theorem witness_EeConfigureSizes : (∃ k, 1 ≤ k ∧ 2 = 2 ^ k) ∧ ¬∃ k, 1 ≤ k ∧ 96 = 2 ^ k :=
  ⟨⟨1, by decide⟩, (isSize_iff 96).not.1 (by decide)⟩

theorem witness_FlConfigureFollowsItsContract :
    (fl fun f => { f with fault := some .flVariant }).fl.fault = some .flVariant ∧ st0.fl.fault = none ∧
    (st0.caller.flOffer.getD st0.fl.mem).len ≠ 4096 * sectors .v256K ∧
    (st0.caller.flOffer.getD st0.fl.mem).len = 4096 * sectors .v128K := by decide

theorem witness_UnconfiguredBlockRaisesNotConfigured :
    isConfigure .eeShiftOut = false ∧ blockOf .eeShiftOut = .ee ∧ isConfigure .fnew = false ∧ blockOf .fnew = .fl ∧
    State.reset.ee.fault = none ∧ State.reset.ee.configured = false ∧
    State.reset.fl.fault = none ∧ State.reset.fl.configured = false := by decide

theorem witness_FaultedBlockIsStuck :
    blockOf (.ecfg 128 4 none) = .ee ∧ (ee fun e => { e with fault := some .eeMode }).ee.fault = some .eeMode ∧
    blockOf (.fcfg none) = .fl ∧ (fl fun f => { f with fault := some .flVariant }).fl.fault = some .flVariant := by decide

theorem witness_BlocksAreIndependent :
    blockOf .eeStop = .ee ∧ (nextOf (exec .eeStop (ee dataWrite))).isSome = true ∧
    blockOf (.busRead 0) = .fl ∧ (nextOf (exec (.busRead 0) st0)).isSome = true := by decide

/-- Live blocks: the hypothesis of EeQueriesReturnTheirRegister, SampleRunsItsDetectorRow, StartEntersTheFirstFrame,
ShiftInTakesOneBit, ReadAckSlotAdvancesOnAck, ControlMatchSetsTheDirection, ControlMismatchReturnsToStandby,
DetectionReprocessesTheByte, AddressByteIsLatched, FlQueriesReturnTheirRegister, BusWriteRunsItsCycleRow and
CycleRowsWithoutMemoryAct; with the invariant, of ShiftOutDrivesOneBit, DataByteIsBuffered. -/
theorem witness_live : st0.Inv ∧ (ee dataRead).Inv ∧ st0.ee.live ∧ st0.fl.live ∧ (ee dataRead).ee.live ∧
    (ee dataRead).ee.bitCnt = 0 ∧ (ee fun e => { dataRead e with bitCnt := 7 }).ee.bitCnt ≠ 0 :=
  ⟨witness_inv_st0, witness_inv_dataRead, by decide⟩

theorem witness_SampleWithoutConditionOnlyUpdatesTheLines : st0.ee.live ∧
    (st0.ee.prevScl = true ∧ true = true ∧ true = st0.ee.prevSda) ∧
    (ee fun e => { e with prevScl := false }).ee.prevScl = false ∧
    (ee fun e => { e with prevScl := false }).ee.st = .standby := by decide

theorem witness_IdleSampleDefinesTheLines : st0.ee.live ∧ st0.ee.st = .standby := by decide

theorem witness_StopWithoutPageDataOnlyReturnsToStandby :
    st0.ee.live ∧ st0.ee.st ≠ .data ∧ (ee dataRead).ee.live ∧ (ee dataRead).ee.dir ≠ .write ∧ st0.ee.pcnt = 0 := by decide

theorem witness_StopCommitsThePage : (ee dataWrite).Inv ∧ (ee dataWrite).ee.live ∧ (ee dataWrite).ee.st = .data ∧
    (ee dataWrite).ee.dir = .write ∧ 0 < (ee dataWrite).ee.pcnt ∧ 2 < (ee dataWrite).ee.pcnt ∧
    (∀ k, k < 3 → 0x0D ≠ commitAddr (ee dataWrite).ee k) := ⟨witness_inv_dataWrite, by decide⟩

/-- Both sides of "exactly": a committing Stop and an idle sample. -/
theorem witness_MemoryAndNewDataChangeOnlyAtACommittingStop : (ee dataWrite).ee.live ∧
    (eeAfter (.sample true true true) (ee dataWrite) (·.newData)) = some true ∧
    (eeAfter (.sample true true true) st0 (·.newData)) = some false := by decide

/-- The classes of ProtocolStateFollowsTheTable: Start, Stop, and slot 9 in each state. -/
theorem witness_ProtocolStateFollowsTheTable :
    eeAfter (.sample true false true) st0 (·.st) = some .control ∧
    eeAfter (.sample true true true) (ee dataWrite) (·.st) = some .standby ∧
    eeAfter (.sample true true true) (ee (slot9 .control 0xA0)) (·.st) = some .address ∧
    eeAfter (.sample true true true) (ee (slot9 .control 0x50)) (·.st) = some .standby ∧
    eeAfter (.sample true true true) (ee fun e => slot9 .control 0x50 (detect e)) (fun e => (e.st, e.devMode)) =
      some (.data, .noDeviceByte) ∧
    eeAfter (.sample true true true) (ee (slot9 .address 0x50)) (·.st) = some .data ∧
    eeAfter (.sample true true true) (ee fun e => slot9 .data 1 (page2 e)) (·.st) = some .standby ∧
    eeAfter (.sample true true true) (ee (slot9 .data 1)) (·.st) = some .data ∧
    eeAfter (.sample true true false) (ee dataWrite) (·.st) = some .data := by decide

/-- The slot rows at the edges of EE.bitCnt. -/
theorem witness_RisingEdgeRunsItsSlotRow : st0.ee.live ∧ st0.ee.st = .standby ∧
    ((ee dataRead).ee.live ∧ (ee dataRead).ee.st = .data ∧ (ee dataRead).ee.dir = .read ∧ (ee dataRead).ee.bitCnt < 8) ∧
    8 ≤ (ee fun e => { dataRead e with bitCnt := 8 }).ee.bitCnt ∧
    ((ee dataWrite).ee.st ≠ .standby ∧ ¬((ee dataWrite).ee.st = .data ∧ (ee dataWrite).ee.dir = .read) ∧
      (ee dataWrite).ee.bitCnt < 8) ∧
    8 ≤ (ee (slot9 .control 0xA0)).ee.bitCnt ∧ (ee (slot9 .control 0xA0)).ee.st ≠ .standby := by decide

theorem witness_WriteAckSlotRunsItsByteRow :
    ((ee (slot9 .control 0xA0)).ee.st = .control ∧ selOf (ee (slot9 .control 0xA0)).ee.shreg = cfg.select7) ∧
    (selOf (ee (slot9 .control 0x50)).ee.shreg ≠ cfg.select7 ∧
      (ee (slot9 .control 0x50)).ee.devMode ≠ .detectNoDeviceByte) ∧
    (ee fun e => slot9 .control 0x50 (detect e)).ee.devMode = .detectNoDeviceByte ∧
    (ee (slot9 .address 0x50)).ee.st = .address ∧
    ((ee fun e => slot9 .data 1 (page2 e)).ee.pageSize = 2 ∧ (ee fun e => slot9 .data 1 (page2 e)).ee.pcnt = 2) ∧
    ((ee (slot9 .data 1)).ee.st = .data ∧ ¬((ee (slot9 .data 1)).ee.pageSize = 2 ∧ (ee (slot9 .data 1)).ee.pcnt = 2)) ∧
    (ee (slot9 .control 0xA0)).ee.live := by decide

theorem witness_ThirdByteOfTwoBytePageAborts :
    (ee fun e => slot9 .data 1 (page2 e)).ee.live ∧ (ee fun e => slot9 .data 1 (page2 e)).ee.st = .data ∧
    (ee fun e => slot9 .data 1 (page2 e)).ee.pageSize = 2 ∧ (ee fun e => slot9 .data 1 (page2 e)).ee.pcnt = 2 ∧
    (ee (slot9 .data 1)).ee.live ∧ (ee (slot9 .data 1)).ee.st = .data ∧ (ee (slot9 .data 1)).ee.pageSize ≠ 2 := by decide

theorem witness_NoDeviceModeLastsUntilConfigure : blockOf .eeStart = .ee ∧ isConfigure .eeStart = false ∧
    (ee noDevice).ee.devMode = .noDeviceByte ∧ (nextOf (exec .eeStart (ee noDevice))).isSome = true := by decide

/-- PageCursorCountsModuloThePage and WriteTransactionStoresItsBytes: five bytes on a page of four, latched at 0x0E;
the first byte's address is taken again by the fifth, the second's is not. -/
theorem witness_WriteTransactionStoresItsBytes :
    (ee latched).Inv ∧ (ee latched).ee.live ∧ (ee latched).ee.st = .data ∧ (ee latched).ee.dir = .write ∧
    (ee latched).ee.pcur = 0 ∧ (ee latched).ee.pcnt = 0 ∧
    ([1, 2, 3, 4, 5] : List Byte) ≠ [] ∧ windowAddr 0x0E 3 4 = windowAddr 0x0E 3 0 ∧
    (∀ j, j < 5 → 1 < j → windowAddr 0x0E 3 j ≠ windowAddr 0x0E 3 1) ∧
    ∀ k, k < 5 → 0x10 ≠ windowAddr 0x0E 3 k := ⟨witness_inv_latched, by decide⟩

/-- ReadFrameSendsTheByteMsbFirst and SequentialReadStaysInItsBlock. -/
theorem witness_SequentialReadStaysInItsBlock :
    (ee dataRead).Inv ∧ (ee dataRead).ee.live ∧ (ee dataRead).ee.bitCnt = 0 := ⟨witness_inv_dataRead, by decide⟩

theorem witness_TransmittedByteIsFinalised :
    let s := ee fun e => { e with st := .control, prevScl := false }
    s.ee.live ∧ s.ee.st ≠ .standby ∧ ¬(s.ee.st = .data ∧ s.ee.dir = .read) ∧ s.ee.bitCnt = 0 := by decide

theorem witness_FlReadReturnsTheByteOrTheIdentifier : st0.Inv ∧ (fl fun f => { f with idMode := true }).Inv ∧
    st0.fl.live ∧ st0.fl.idMode = false ∧ (fl fun f => { f with idMode := true }).fl.live ∧
    (fl fun f => { f with idMode := true }).fl.idMode = true ∧ (2 : Addr) ≠ 0 ∧ (2 : Addr) ≠ 1 :=
  ⟨witness_inv_st0, witness_inv_idMode, by decide⟩

/-- A read and a query between two cycles of the prefix. -/
def readsInserted : List Instr := [.busWrite 0x5555 0xAA, .busRead 0x5555, .fnew, .busWrite 0x2AAA 0x55]

theorem witness_FlReadsDoNotDisturbASequence : st0.Inv ∧ st0.fl.live ∧
    (∀ i ∈ readsInserted, blockOf i = .fl ∧ isHostOperation i = true ∧ isConfigure i = false) ∧
    readsInserted.filter (fun i => !isQuery i) = unlockSeq ∧
    ((nextOf (execAll readsInserted st0)).map fun t => t.fl.cyc) = some .c2 := ⟨witness_inv_st0, by decide⟩

/-- RisingEdgeCompletes: a load at slot 1, and slot 9 of a write frame. -/
theorem witness_RisingEdgeCompletes : (ee dataRead).Inv ∧ (ee dataRead).ee.live ∧ (ee dataRead).ee.bitCnt = 0 ∧
    eeAfter (.eeRise false true) (ee dataRead) (·.bitCnt) = some 1 ∧
    eeAfter (.eeRise false true) (ee (slot9 .control 0xA0)) (·.st) = some .address :=
  ⟨witness_inv_dataRead, by decide⟩

/-- FlashStateChangesOnlyByItsCommands: a program, an erase that changes memory, an ID entry and an exit. -/
theorem witness_FlashStateChangesOnlyByItsCommands :
    flAfter (.busWrite 0x100 0x3C) (fl fun f => { f with cyc := .prog }) (fun f => (f.mem.cells, f.newData)) =
      some ([(0x100, 0x3C)], true) ∧
    flAfter (.busWrite 0 0x30) (fl fun f => { f with cyc := .erase, mem := ⟨131072, [(4095, 0)]⟩ })
      (fun f => (f.mem.cells, f.newData)) = some ([], false) ∧
    flAfter (.busWrite 0x5555 0x90) (fl fun f => { f with cyc := .c2 }) (·.idMode) = some true ∧
    flAfter (.busWrite 0x1234 0xF0) (fl fun f => { f with idMode := true }) (·.idMode) = some false := by decide

/-- The steps of the prefix, each at its cycle. -/
theorem witness_UnlockStepsAdvanceTheCycle : st0.fl.live ∧ st0.config.wf ∧ st0.fl.cyc = .c0 ∧
    cmdAddr cfg 0x5555 0x5555 = true ∧ cmdAddr cfg 0x2AAA 0x2AAA = true ∧
    (fl fun f => { f with cyc := .c1 }).fl.cyc = .c1 ∧ (fl fun f => { f with cyc := .c2 }).fl.cyc = .c2 ∧
    (fl fun f => { f with cyc := .c3 }).fl.cyc = .c3 ∧ (fl fun f => { f with cyc := .c4 }).fl.cyc = .c4 := by decide

theorem witness_SetupAndIdCommandsAct : (fl fun f => { f with cyc := .c2 }).fl.live ∧ cfg.wf ∧
    (fl fun f => { f with cyc := .c2 }).fl.cyc = .c2 ∧ cmdAddr cfg 0x5555 0x5555 = true ∧
    (fl fun f => { f with idMode := true }).fl.cyc = .c0 ∧ (fl fun f => { f with idMode := true }).fl.idMode = true := by
  decide

/-- st0 at a cycle of the sequencer. -/
def atCycle (c : FlCycle) : State := fl fun f => { f with cyc := c }

/-- One cycle of each clause, next to the row it is not. -/
theorem witness_AnyOtherCycleAborts : (∀ c ∈ [FlCycle.c0, .c1, .c2, .c3, .c4, .erase], (atCycle c).fl.live) ∧
    ((atCycle .c0).fl.cyc = .c0 ∧ ¬((atCycle .c0).fl.idMode = true ∧ (0xF0 : Byte) = cfg.cmdIdExit) ∧
      ¬(cmdAddr cfg 0x5555 0x5555 = true ∧ (0xF0 : Byte) = 0xAA)) ∧
    ((atCycle .c1).fl.cyc = .c1 ∧ ¬(cmdAddr cfg 0x2AAB 0x2AAA = true ∧ (0x55 : Byte) = 0x55)) ∧
    ((atCycle .c2).fl.cyc = .c2 ∧ ¬(cmdAddr cfg 0x5554 0x5555 = true ∧ ((0x80 : Byte) = 0x80 ∨
      (0x80 : Byte) = cfg.cmdProgram ∨ (0x80 : Byte) = cfg.cmdIdEntry ∨ (0x80 : Byte) = cfg.cmdIdExit))) ∧
    ((atCycle .c3).fl.cyc = .c3 ∧ ¬(cmdAddr cfg 0x5555 0x5555 = true ∧ (0xAB : Byte) = 0xAA)) ∧
    ((atCycle .c4).fl.cyc = .c4 ∧ ¬(cmdAddr cfg 0x5555 0x2AAA = true ∧ (0x55 : Byte) = 0x55)) ∧
    ((atCycle .erase).fl.cyc = .erase ∧ (0x10 : Byte) ≠ 0x30 ∧
      ¬(cmdAddr cfg 0x1234 0x5555 = true ∧ (0x10 : Byte) = 0x10)) := by decide

/-- SectorEraseFillsOneSector, ChipEraseFillsTheDevice, ByteProgramAndsTheByte. -/
theorem witness_commands : (fl fun f => { f with cyc := .erase }).Inv ∧ (fl fun f => { f with cyc := .prog }).Inv ∧
    (fl fun f => { f with cyc := .erase }).fl.live ∧
    (fl fun f => { f with cyc := .erase }).fl.cyc = .erase ∧ cmdAddr cfg 0x5555 0x5555 = true ∧
    (fl fun f => { f with cyc := .prog }).fl.live ∧ (fl fun f => { f with cyc := .prog }).fl.cyc = .prog :=
  ⟨witness_inv_erase, witness_inv_prog, by decide⟩

/-- ProgrammingTwiceAndsBoth, SectorEraseSequenceErasesOneSector, ChipEraseSequenceErasesTheDevice. -/
theorem witness_sequences : st0.Inv ∧ st0.fl.live ∧ st0.config.wf ∧ st0.fl.cyc = .c0 ∧ st0.fl.idMode = false ∧
    sectorOf 0x1000 ≠ sectorOf (flTarget 0x20FFF st0.fl.addrMask) ∧
    sectorOf (flTarget 0x20000 st0.fl.addrMask) = sectorOf (flTarget 0xFFF st0.fl.addrMask) ∧ 131071 < st0.fl.capacity :=
  ⟨witness_inv_st0, by decide⟩

end Sys2Proof.Tests
end

/-! # Scope (00_scope.md): windowed addresses, one step, and the two blocks apart -/

/-! ## Windowed addresses (R10) -/

namespace Sys2Proof

/-- In closed form: the base of a's window, and a + 1 counted modulo the window. -/
theorem wrapInc_mask (a k : Nat) : wrapInc a (2 ^ k - 1) = a / 2 ^ k * 2 ^ k + (a + 1) % 2 ^ k := by
  rw [wrapInc_eq_windowAddr, windowAddr_mask, Nat.mul_comm]

theorem wrapInc_mask_div (a k : Nat) : wrapInc a (2 ^ k - 1) / 2 ^ k = a / 2 ^ k := by
  have hpos : 0 < 2 ^ k := Nat.two_pow_pos k
  rw [wrapInc_mask, Nat.mul_comm, Nat.mul_add_div hpos, Nat.div_eq_of_lt (Nat.mod_lt _ hpos), Nat.add_zero]

/-- Settles O39, by the closed form of wrapInc. -/
theorem wrapIncStaysInItsWindow : Obligations.WrapIncStaysInItsWindow :=
  fun a k => ⟨wrapInc_mask a k, wrapInc_mask_div a k⟩

end Sys2Proof

/-! ## The forms of an instruction's meaning

Every instruction of a block is a Configure, a query that records a value, or an action on the block's registers. What
an instruction can change, and what its answer can depend on, is said once per form. -/

namespace Sys2Proof.Machine

/-! ### EE -/

/-- The form of an EE meaning: Configure, a query of a register, or an action on the block that sees the parameters. -/
inductive EeForm (m : State → Answer) : Prop where
  | configure (size pageSize : Nat) (mode : Option DevMode) (h : ∀ s, m s = execEcfg size pageSize mode s)
  | query (v : EE → Returned) (h : ∀ s, m s = eeReady s (.next (s.returns (v s.ee))))
  | action (act : Config → EE → Except Fault EE) (h : ∀ s, m s = onEe s (act s.config))

/-- The meaning of each EE row has one of the forms. -/
theorem exec_eeForm {i : Instr} (hi : blockOf i = .ee) : EeForm (exec i) := by
  cases i with
  | ecfg size pageSize mode => exact .configure size pageSize mode fun _ => rfl
  | erd => exact .query (fun e => .level e.out) fun _ => rfl
  | enew => exact .query (fun e => .flag e.newData) fun _ => rfl
  | esize => exact .query (fun e => .size e.cfgSize) fun _ => rfl
  | sample we sda scl => exact .action (fun c => eeWrite c we sda scl) fun _ => rfl
  | eeStart => exact .action (fun _ e => .ok (eeStartCond e)) fun _ => rfl
  | eeStop => exact .action (fun _ => eeStopCond) fun _ => rfl
  | eeRise prevSda sda => exact .action (fun c => eeRisingEdge c sda) fun _ => rfl
  | eeHighHoldLow | eeHighHoldHigh | eeLow prevScl prevSda sda => exact .action (fun _ e => .ok e) fun _ => rfl
  | eeShiftIn sda => exact .action (fun _ e => .ok (eeShiftInBit sda e)) fun _ => rfl
  | eeShiftOut => exact .action (fun _ => eeShiftOutBit) fun _ => rfl
  | eeWackSlot => exact .action (fun c e => .ok (eeWriteAckSlot c e)) fun _ => rfl
  | eeRackSlot sda => exact .action (fun _ e => .ok (eeReadAckSlot sda e)) fun _ => rfl
  | eeCtrlMatch rw => exact .action (fun c e => .ok (eeControlMatch c rw e)) fun _ => rfl
  | eeCtrlMismatch b => exact .action (fun _ e => .ok (eeControlMismatch e)) fun _ => rfl
  | eeDetect b => exact .action (fun c e => .ok (eeDetectNoDevice c b e)) fun _ => rfl
  | eeAddress b => exact .action (fun c e => .ok (eeLatchAddress c b e)) fun _ => rfl
  | eeQuirkAbort b => exact .action (fun _ e => .ok (eeQuirk e)) fun _ => rfl
  | eeDataWrite b => exact .action (fun _ e => .ok (eeBufferData b e)) fun _ => rfl
  | _ => cases hi

/-- Only on a block that has not faulted does an EE operation answer a next state (R187). -/
theorem eeUnlessStuck_next {s t : State} {k : Answer} (h : eeUnlessStuck s k = .next t) :
    s.ee.fault = none ∧ k = .next t := by
  unfold eeUnlessStuck at h
  split at h
  · cases h
  next hf => exact ⟨hf, h⟩

/-- What an EE check lets through: the operation itself, or NOT_CONFIGURED (R109, R187). -/
theorem eeReady_next {s t : State} {k : Answer} (h : eeReady s k = .next t) :
    (s.ee.live ∧ k = .next t) ∨
      (s.ee.fault = none ∧ s.ee.configured = false ∧ t = setFault .ee .notConfigured s) := by
  cases hf : s.ee.fault with
  | some r => rw [eeReady_stuck hf] at h; cases h
  | none =>
    cases hc : s.ee.configured with
    | false => rw [eeReady_unconfigured hf hc] at h; cases h; exact .inr ⟨rfl, rfl, rfl⟩
    | true => rw [eeReady_live ⟨hf, hc⟩] at h; exact .inl ⟨⟨hf, hc⟩, h⟩

/-- What an EE.Configure that answers can do (R99): raise a model fault, or take the offer and set the registers. -/
theorem execEcfg_next {size pageSize : Nat} {mode : Option DevMode} {s t : State}
    (h : execEcfg size pageSize mode s = .next t) :
    s.ee.fault = none ∧ ((∃ r, t = setFault .ee r s) ∨
      ∃ m, mode = some m ∧ eeConfigureFault s.config size pageSize mode (eeBuffer s) = none ∧
        t = s.takeEeOffer.withEe (eeConfigured size pageSize m (eeBuffer s) s.ee)) := by
  obtain ⟨hf, hk⟩ := eeUnlessStuck_next h
  refine ⟨hf, ?_⟩
  cases hc : eeConfigureFault s.config size pageSize mode (eeBuffer s) with
  | some r => rw [hc] at hk; cases hk; exact .inl ⟨r, rfl⟩
  | none =>
    rw [hc] at hk
    cases mode with
    | some m => cases hk; exact .inr ⟨m, rfl, rfl, rfl⟩
    | none => cases hk; exact .inl ⟨.eeMode, rfl⟩

/-- All that an EE instruction that answers can change: the fault register, the block's registers, the list of
returned values, or the offer with the registers. -/
theorem exec_ee_next {i : Instr} {s t : State} (hi : blockOf i = .ee) (h : exec i s = .next t) :
    (∃ r, t = setFault .ee r s) ∨ (∃ e, t = s.withEe e) ∨ (∃ v, t = s.returns v) ∨
      ∃ e, t = s.takeEeOffer.withEe e := by
  cases exec_eeForm hi with
  | configure size pageSize mode hm =>
    obtain ⟨-, hr | ⟨m, -, -, ht⟩⟩ := execEcfg_next ((hm s).symm.trans h)
    · exact .inl hr
    · exact .inr (.inr (.inr ⟨_, ht⟩))
  | query v hm =>
    obtain ⟨-, hk⟩ | ⟨-, -, ht⟩ := eeReady_next ((hm s).symm.trans h)
    · cases hk; exact .inr (.inr (.inl ⟨_, rfl⟩))
    · exact .inl ⟨_, ht⟩
  | action act hm =>
    obtain ⟨-, e, -, ht⟩ | ⟨-, -, ht⟩ := onEe_next ((hm s).symm.trans h)
    · exact .inr (.inl ⟨e, ht⟩)
    · exact .inl ⟨_, ht⟩

/-! ### FL -/

/-- The answer of a query that reads a value and leaves the block f: the value is recorded for the caller. -/
def flReturn (s : State) : Except Fault (FL × Returned) → Answer
  | .ok (f, v) => .next ((s.withFl f).returns v)
  | .error x => .fault x

/-- FL.READ_ARRAY (R155) as a function of the block. -/
def flReadingArray (a : Addr) (f : FL) : Except Fault (FL × Returned) :=
  match memRead f.mem (flTarget a f.addrMask) with
  | some b => .ok (f, .byte b)
  | none => .error .flOutsideBuffer

/-- FL.READ_ID_OTHER (R156, R157) as a function of the block: the draw is counted. -/
def flReadingIdOther (f : FL) : FL × Returned := ({ f with draws := f.draws + 1 }, .byte (Config.idOther f.draws))

/-- FL.Read (R155, R156) as a function of the block. -/
def flReading (a : Addr) (f : FL) : Except Fault (FL × Returned) :=
  if f.idMode then
    if a = 0 then .ok (f, .byte f.mfrId)
    else if a = 1 then .ok (f, .byte f.devId)
    else .ok (flReadingIdOther f)
  else flReadingArray a f

theorem flAnswerArray_eq (a : Addr) (s : State) : flAnswerArray a s = flReturn s (flReadingArray a s.fl) := by
  unfold flAnswerArray flReadingArray
  cases memRead s.fl.mem (flTarget a s.fl.addrMask) <;> rfl

theorem flAnswerRead_eq (a : Addr) (s : State) : flAnswerRead a s = flReturn s (flReading a s.fl) := by
  unfold flAnswerRead flReading
  rw [flAnswerArray_eq]
  split_ifs <;> rfl

/-- The form of an FL meaning: Configure, a query that reads the block, or an action on the block that sees the
parameters. -/
inductive FlForm (m : State → Answer) : Prop where
  | configure (variant : Option Variant) (h : ∀ s, m s = execFcfg variant s)
  | query (read : FL → Except Fault (FL × Returned)) (h : ∀ s, m s = flReady s (flReturn s (read s.fl)))
  | action (act : Config → FL → Except Fault FL) (h : ∀ s, m s = onFl s (act s.config))

/-- The meaning of each FL row has one of the forms. -/
theorem exec_flForm {i : Instr} (hi : blockOf i = .fl) : FlForm (exec i) := by
  cases i with
  | fcfg variant => exact .configure variant fun _ => rfl
  | busRead a => exact .query (flReading a) fun s => congrArg (flReady s) (flAnswerRead_eq a s)
  | flReadArray a => exact .query (flReadingArray a) fun s => congrArg (flReady s) (flAnswerArray_eq a s)
  | fnew => exact .query (fun f => .ok (f, .flag f.newData)) fun _ => rfl
  | fsize => exact .query (fun f => .ok (f, .size f.capacity)) fun _ => rfl
  | flReadMfrId => exact .query (fun f => .ok (f, .byte f.mfrId)) fun _ => rfl
  | flReadDevId => exact .query (fun f => .ok (f, .byte f.devId)) fun _ => rfl
  | flReadIdOther a => exact .query (fun f => .ok (flReadingIdOther f)) fun _ => rfl
  | busWrite a d => exact .action (fun c => flWrite c a d) fun _ => rfl
  | flUnlock1 a => exact .action (fun _ f => .ok (flGoto .c1 f)) fun _ => rfl
  | flUnlock2 a => exact .action (fun _ f => .ok (flGoto .c2 f)) fun _ => rfl
  | flEraseSetup a => exact .action (fun _ f => .ok (flGoto .c3 f)) fun _ => rfl
  | flUnlock4 a => exact .action (fun _ f => .ok (flGoto .c4 f)) fun _ => rfl
  | flUnlock5 a => exact .action (fun _ f => .ok (flGoto .erase f)) fun _ => rfl
  | flProgramSetup a => exact .action (fun _ f => .ok (flGoto .prog f)) fun _ => rfl
  | flIdEntry a => exact .action (fun _ f => .ok (flEnterId f)) fun _ => rfl
  | flIdExit1 a | flIdExit3 a => exact .action (fun _ f => .ok (flLeaveId f)) fun _ => rfl
  | flC0Other a d | flC1Abort a d | flC2Abort a d | flC3C4Abort a d | flEraseAbort a d =>
    exact .action (fun _ f => .ok (flAbort f)) fun _ => rfl
  | flSectorErase a => exact .action (fun _ => flEraseSector a) fun _ => rfl
  | flChipErase a => exact .action (fun _ => flEraseChip) fun _ => rfl
  | flByteProgram a d => exact .action (fun _ => flProgram a d) fun _ => rfl
  | _ => cases hi

/-- Only on a block that has not faulted does an FL operation answer a next state (R187). -/
theorem flUnlessStuck_next {s t : State} {k : Answer} (h : flUnlessStuck s k = .next t) :
    s.fl.fault = none ∧ k = .next t := by
  unfold flUnlessStuck at h
  split at h
  · cases h
  next hf => exact ⟨hf, h⟩

/-- What an FL check lets through: the operation itself, or NOT_CONFIGURED (R160, R187). -/
theorem flReady_next {s t : State} {k : Answer} (h : flReady s k = .next t) :
    (s.fl.live ∧ k = .next t) ∨
      (s.fl.fault = none ∧ s.fl.configured = false ∧ t = setFault .fl .notConfigured s) := by
  cases hf : s.fl.fault with
  | some r => rw [flReady_stuck hf] at h; cases h
  | none =>
    cases hc : s.fl.configured with
    | false => rw [flReady_unconfigured hf hc] at h; cases h; exact .inr ⟨rfl, rfl, rfl⟩
    | true => rw [flReady_live ⟨hf, hc⟩] at h; exact .inl ⟨⟨hf, hc⟩, h⟩

/-- What an FL.Configure that answers can do (R149): raise a model fault, or take the offer and set the registers. -/
theorem execFcfg_next {variant : Option Variant} {s t : State} (h : execFcfg variant s = .next t) :
    s.fl.fault = none ∧ ((∃ r, t = setFault .fl r s) ∨
      ∃ v, variant = some v ∧ flConfigureFault variant (flBuffer s) = none ∧
        t = s.takeFlOffer.withFl (flConfigured s.config v (flBuffer s) s.fl)) := by
  obtain ⟨hf, hk⟩ := flUnlessStuck_next h
  refine ⟨hf, ?_⟩
  cases hc : flConfigureFault variant (flBuffer s) with
  | some r => rw [hc] at hk; cases hk; exact .inl ⟨r, rfl⟩
  | none =>
    rw [hc] at hk
    cases variant with
    | some v => cases hk; exact .inr ⟨v, rfl, rfl, rfl⟩
    | none => cases hk; exact .inl ⟨.flVariant, rfl⟩

theorem flReturn_next {s t : State} {r : Except Fault (FL × Returned)} (h : flReturn s r = .next t) :
    ∃ f v, r = .ok (f, v) ∧ t = (s.withFl f).returns v := by
  cases r with
  | ok p => cases h; exact ⟨p.1, p.2, rfl, rfl⟩
  | error x => cases h

/-- All that an FL instruction that answers can change: the fault register, the block's registers, these and the list
of returned values, or the offer with the registers. -/
theorem exec_fl_next {i : Instr} {s t : State} (hi : blockOf i = .fl) (h : exec i s = .next t) :
    (∃ r, t = setFault .fl r s) ∨ (∃ f, t = s.withFl f) ∨ (∃ f v, t = (s.withFl f).returns v) ∨
      ∃ f, t = s.takeFlOffer.withFl f := by
  cases exec_flForm hi with
  | configure variant hm =>
    obtain ⟨-, hr | ⟨v, -, -, ht⟩⟩ := execFcfg_next ((hm s).symm.trans h)
    · exact .inl hr
    · exact .inr (.inr (.inr ⟨_, ht⟩))
  | query read hm =>
    obtain ⟨-, hk⟩ | ⟨-, -, ht⟩ := flReady_next ((hm s).symm.trans h)
    · obtain ⟨f, v, -, ht⟩ := flReturn_next hk
      exact .inr (.inr (.inl ⟨f, v, ht⟩))
    · exact .inl ⟨_, ht⟩
  | action act hm =>
    obtain ⟨-, f, -, ht⟩ | ⟨-, -, ht⟩ := onFl_next ((hm s).symm.trans h)
    · exact .inr (.inl ⟨f, ht⟩)
    · exact .inl ⟨_, ht⟩

/-! ## One step (R14, R68) -/

theorem step_of_pending_nil {s : State} (h : s.caller.pending = []) : step s = .next s := by
  unfold step fetchAndPerform; rw [h]

theorem step_of_pending_cons {s : State} {ev : CallerEvent} {rest : List CallerEvent}
    (h : s.caller.pending = ev :: rest) : step s = performEvent ev (s.withPending rest) := by
  unfold step fetchAndPerform; rw [h]

theorem performCall_of_ok {s : State} {bytes : List Byte} {i : Instr} (h : decode s.config (.host bytes) = .ok i) :
    performCall bytes s = exec i s := by
  unfold performCall; rw [h]

theorem performCall_of_error {s : State} {bytes : List Byte} {e : DecodeError}
    (h : decode s.config (.host bytes) = .error e) : performCall bytes s = .refused (.noOperation e) := by
  unfold performCall; rw [h]

/-! ### The parameters (R7) -/

theorem exec_config {i : Instr} {s t : State} (h : exec i s = .next t) : t.config = s.config := by
  cases hi : blockOf i with
  | ee => obtain ⟨r, rfl⟩ | ⟨e, rfl⟩ | ⟨v, rfl⟩ | ⟨e, rfl⟩ := exec_ee_next hi h <;> simp
  | fl => obtain ⟨r, rfl⟩ | ⟨f, rfl⟩ | ⟨f, v, rfl⟩ | ⟨f, rfl⟩ := exec_fl_next hi h <;> simp

theorem performCall_config {bytes : List Byte} {s t : State} (h : performCall bytes s = .next t) :
    t.config = s.config := by
  cases hd : decode s.config (.host bytes) with
  | ok i => rw [performCall_of_ok hd] at h; exact exec_config h
  | error e => rw [performCall_of_error hd] at h; cases h

/-- What the host's own write of a byte of the EE buffer can do (R202). -/
theorem pokeEe_next {a : Nat} {v : Byte} {s t : State} (h : pokeEe a v s = .next t) :
    ∃ m, memWrite s.ee.mem a v = some m ∧ t = s.withEe { s.ee with mem := m } := by
  unfold pokeEe at h
  split at h
  next m hm => cases h; exact ⟨m, hm, rfl⟩
  next => cases h

/-- What the host's own write of a byte of the FL buffer can do (R202). -/
theorem pokeFl_next {a : Nat} {v : Byte} {s t : State} (h : pokeFl a v s = .next t) :
    ∃ m, memWrite s.fl.mem a v = some m ∧ t = s.withFl { s.fl with mem := m } := by
  unfold pokeFl at h
  split at h
  next m hm => cases h; exact ⟨m, hm, rfl⟩
  next => cases h

theorem performEvent_config {ev : CallerEvent} {s t : State} (h : performEvent ev s = .next t) :
    t.config = s.config := by
  cases ev with
  | call bytes => exact performCall_config h
  | configureEe size pageSize mode => exact exec_config (i := .ecfg size pageSize mode) h
  | offerEe len bytes | offerFl len bytes => cases h; rfl
  | pokeEe a v => obtain ⟨m, -, rfl⟩ := pokeEe_next h; rfl
  | pokeFl a v => obtain ⟨m, -, rfl⟩ := pokeFl_next h; rfl

/-- Settles O8, by the caller's next event. -/
theorem stepKeepsTheParameters : Obligations.StepKeepsTheParameters := by
  intro s t h
  cases hp : s.caller.pending with
  | nil => rw [step_of_pending_nil hp] at h; cases h; rfl
  | cons ev rest => rw [step_of_pending_cons hp] at h; exact performEvent_config (s := s.withPending rest) h

/-! ### The decoded call (R71) -/

theorem endOf_wellFormed {c : Config} {rest : List Byte} {i j : Instr} (hi : wellFormed c i = true)
    (h : endOf rest i = .ok j) : wellFormed c j = true := by
  cases rest with
  | nil => cases h; exact hi
  | cons b bs => cases h

/-- Every page size that `pg[1:0]` encodes is legal (R71). -/
theorem isPageSize_pageOfCode (pg : BitVec 2) : isPageSize (pageOfCode pg) = true := by
  revert pg; decide

/-- The operands of R71 make a well-formed ECFG. -/
theorem wellFormed_ecfg_of_codes {c : Config} {k : Nat} (hk : k < 64) (pg : BitVec 2) (mode : Option DevMode) :
    wellFormed c (.ecfg (2 ^ k) (pageOfCode pg) mode) = true := by
  simp [wellFormed, wfEcfg, Nat.log2_two_pow, hk, isPageSize_pageOfCode]

theorem decodeEcfg_wellFormed {c : Config} {rest : List Byte} {i : Instr} (h : decodeEcfg rest = .ok i) :
    wellFormed c i = true := by
  unfold decodeEcfg at h
  split at h
  next k m rest =>
    split at h
    next hb =>
      have hk : k.toNat < 64 := of_decide_eq_true (Bool.and_eq_true_iff.mp hb).1
      exact endOf_wellFormed (wellFormed_ecfg_of_codes hk _ _) h
    next => cases h
  next => cases h

theorem decodeSample_wellFormed {c : Config} {rest : List Byte} {i : Instr} (h : decodeSample rest = .ok i) :
    wellFormed c i = true := by
  unfold decodeSample at h
  split at h
  next b rest =>
    split at h
    · exact endOf_wellFormed rfl h
    · cases h
  next => cases h

theorem decodeFcfg_wellFormed {c : Config} {rest : List Byte} {i : Instr} (h : decodeFcfg rest = .ok i) :
    wellFormed c i = true := by
  unfold decodeFcfg at h
  split at h
  next b rest =>
    split at h
    · exact endOf_wellFormed rfl h
    · cases h
  next => cases h

theorem decodeBusWrite_wellFormed {c : Config} {rest : List Byte} {i : Instr} (h : decodeBusWrite rest = .ok i) :
    wellFormed c i = true := by
  unfold decodeBusWrite at h
  split at h
  · exact endOf_wellFormed rfl h
  · cases h

theorem decodeBusRead_wellFormed {c : Config} {rest : List Byte} {i : Instr} (h : decodeBusRead rest = .ok i) :
    wellFormed c i = true := by
  unfold decodeBusRead at h
  split at h
  · exact endOf_wellFormed rfl h
  · cases h

/-- Whatever a host word decodes to is well-formed, selector by selector. -/
theorem decodeHost_wellFormed {c : Config} {bytes : List Byte} {i : Instr} (h : decodeHost bytes = .ok i) :
    wellFormed c i = true := by
  cases bytes with
  | nil => cases h
  | cons sel rest =>
    simp only [decodeHost] at h
    split_ifs at h
    · exact decodeEcfg_wellFormed h
    · exact decodeSample_wellFormed h
    · exact endOf_wellFormed rfl h
    · exact endOf_wellFormed rfl h
    · exact endOf_wellFormed rfl h
    · exact decodeFcfg_wellFormed h
    · exact decodeBusWrite_wellFormed h
    · exact decodeBusRead_wellFormed h
    · exact endOf_wellFormed rfl h
    · exact endOf_wellFormed rfl h

/-- Settles O6, by the equations of one step. -/
theorem stepRunsTheDecodedCall : Obligations.StepRunsTheDecodedCall := by
  intro s bytes rest hp
  have hstep : step s = performCall bytes (s.withPending rest) := step_of_pending_cons hp
  refine ⟨fun i hd => ⟨decodeHost_wellFormed hd, ?_⟩, fun e hd => ?_⟩
  · exact hstep.trans (performCall_of_ok hd)
  · exact hstep.trans (performCall_of_error hd)

/-! ## The two blocks apart (R2) -/

/-- The answer with its next state mapped; a stop stays as it is. -/
def mapNext (g : State → State) : Answer → Answer
  | .next t => .next (g t)
  | .fault r => .fault r
  | .refused r => .refused r

/-! ### EE does not see FL -/

/-- The EE checks do not read FL, so what runs under them decides. -/
theorem eeUnlessStuck_withFl {s : State} {f : FL} {k k' : Answer} (hk : k' = mapNext (·.withFl f) k) :
    eeUnlessStuck (s.withFl f) k' = mapNext (·.withFl f) (eeUnlessStuck s k) := by
  unfold eeUnlessStuck
  rw [withFl_ee]
  cases s.ee.fault with
  | some r => rfl
  | none => exact hk

theorem eeReady_withFl {s : State} {f : FL} {k k' : Answer} (hk : k' = mapNext (·.withFl f) k) :
    eeReady (s.withFl f) k' = mapNext (·.withFl f) (eeReady s k) := by
  refine eeUnlessStuck_withFl ?_
  rw [withFl_ee]
  cases s.ee.configured with
  | true => exact hk
  | false => rfl

theorem onEe_withFl (s : State) (f : FL) (act : EE → Except Fault EE) :
    onEe (s.withFl f) act = mapNext (·.withFl f) (onEe s act) := by
  refine eeReady_withFl ?_
  rw [withFl_ee]
  cases act s.ee <;> rfl

theorem execEcfg_withFl (size pageSize : Nat) (mode : Option DevMode) (s : State) (f : FL) :
    execEcfg size pageSize mode (s.withFl f) = mapNext (·.withFl f) (execEcfg size pageSize mode s) := by
  have hbuf : eeBuffer (s.withFl f) = eeBuffer s := rfl
  refine eeUnlessStuck_withFl ?_
  rw [hbuf, withFl_config]
  cases eeConfigureFault s.config size pageSize mode (eeBuffer s) <;> cases mode <;> rfl

theorem exec_ee_withFl {i : Instr} (hi : blockOf i = .ee) (s : State) (f : FL) :
    exec i (s.withFl f) = mapNext (·.withFl f) (exec i s) := by
  cases exec_eeForm hi with
  | configure size pageSize mode hm => rw [hm, hm, execEcfg_withFl]
  | query v hm => rw [hm, hm]; exact eeReady_withFl rfl
  | action act hm => rw [hm, hm, onEe_withFl, withFl_config]

theorem exec_ee_fl {i : Instr} {s t : State} (hi : blockOf i = .ee) (h : exec i s = .next t) : t.fl = s.fl := by
  obtain ⟨r, rfl⟩ | ⟨e, rfl⟩ | ⟨v, rfl⟩ | ⟨e, rfl⟩ := exec_ee_next hi h <;> simp

/-! ### FL does not see EE -/

/-- The FL checks do not read EE, so what runs under them decides. -/
theorem flUnlessStuck_withEe {s : State} {e : EE} {k k' : Answer} (hk : k' = mapNext (·.withEe e) k) :
    flUnlessStuck (s.withEe e) k' = mapNext (·.withEe e) (flUnlessStuck s k) := by
  unfold flUnlessStuck
  rw [withEe_fl]
  cases s.fl.fault with
  | some r => rfl
  | none => exact hk

theorem flReady_withEe {s : State} {e : EE} {k k' : Answer} (hk : k' = mapNext (·.withEe e) k) :
    flReady (s.withEe e) k' = mapNext (·.withEe e) (flReady s k) := by
  refine flUnlessStuck_withEe ?_
  rw [withEe_fl]
  cases s.fl.configured with
  | true => exact hk
  | false => rfl

theorem onFl_withEe (s : State) (e : EE) (act : FL → Except Fault FL) :
    onFl (s.withEe e) act = mapNext (·.withEe e) (onFl s act) := by
  refine flReady_withEe ?_
  rw [withEe_fl]
  cases act s.fl <;> rfl

theorem flReturn_withEe (s : State) (e : EE) (r : Except Fault (FL × Returned)) :
    flReturn (s.withEe e) r = mapNext (·.withEe e) (flReturn s r) := by
  cases r <;> rfl

theorem execFcfg_withEe (variant : Option Variant) (s : State) (e : EE) :
    execFcfg variant (s.withEe e) = mapNext (·.withEe e) (execFcfg variant s) := by
  have hbuf : flBuffer (s.withEe e) = flBuffer s := rfl
  refine flUnlessStuck_withEe ?_
  rw [hbuf]
  cases flConfigureFault variant (flBuffer s) <;> cases variant <;> rfl

theorem exec_fl_withEe {i : Instr} (hi : blockOf i = .fl) (s : State) (e : EE) :
    exec i (s.withEe e) = mapNext (·.withEe e) (exec i s) := by
  cases exec_flForm hi with
  | configure variant hm => rw [hm, hm, execFcfg_withEe]
  | query read hm => rw [hm, hm]; exact flReady_withEe (flReturn_withEe s e _)
  | action act hm => rw [hm, hm, onFl_withEe, withEe_config]

theorem exec_fl_ee {i : Instr} {s t : State} (hi : blockOf i = .fl) (h : exec i s = .next t) : t.ee = s.ee := by
  obtain ⟨r, rfl⟩ | ⟨f, rfl⟩ | ⟨f, v, rfl⟩ | ⟨f, rfl⟩ := exec_fl_next hi h <;> simp

/-- Settles O17, by the form of the instruction's meaning. -/
theorem blocksAreIndependent : Obligations.BlocksAreIndependent := fun s _ =>
  ⟨fun hi f => ⟨exec_ee_withFl hi s f, fun _ => exec_ee_fl hi⟩,
    fun hi e => ⟨exec_fl_withEe hi s e, fun _ => exec_fl_ee hi⟩⟩

end Sys2Proof.Machine

/-! # State (10_state.md): every step keeps the invariant

The invariant of a block reads some of its registers only: one rule per group of these says when a write keeps it, and
an action that writes no other register keeps it as it stands. -/

namespace Sys2Proof.Machine

/-! ## EE: one rule per register the invariant reads (R39) -/

theorem EE.Inv.withBitCnt {e : EE} (h : e.Inv) {n : Nat} (hn : n ≤ 8) : EE.Inv { e with bitCnt := n } := by
  refine ⟨h.1, fun hc => ?_⟩
  obtain ⟨hl, haddr, hcur, hcnt, -, hrest⟩ := h.2 hc
  exact ⟨hl, haddr, hcur, hcnt, hn, hrest⟩

theorem EE.Inv.withAddr {e : EE} (h : e.Inv) {a : Nat} (ha : a ≤ e.addrMask) : EE.Inv { e with addr := a } := by
  refine ⟨h.1, fun hc => ?_⟩
  obtain ⟨hl, -, hrest⟩ := h.2 hc
  exact ⟨hl, ha, hrest⟩

theorem EE.Inv.withPage {e : EE} (h : e.Inv) {cur cnt : Nat} (hcur : cur ≤ e.pageMask) (hcnt : cnt ≤ e.pageSize)
    (hroom : cnt < e.pageSize → cur = cnt) : EE.Inv { e with pcur := cur, pcnt := cnt } := by
  refine ⟨h.1, fun hc => ?_⟩
  obtain ⟨hl, haddr, -, -, hbit, hmasks, hpage, -⟩ := h.2 hc
  exact ⟨hl, haddr, hcur, hcnt, hbit, hmasks, hpage, hroom⟩

theorem EE.Inv.withMem {e : EE} (h : e.Inv) {m : Memory} (hw : m.wf) (hlen : m.len = e.mem.len) :
    EE.Inv { e with mem := m } := by
  refine ⟨hw, fun hc => ?_⟩
  obtain ⟨⟨hs, hp, hle, hpm, hmem, hrest⟩, hr⟩ := h.2 hc
  exact ⟨⟨hs, hp, hle, hpm, hlen.trans hmem, hrest⟩, hr⟩

/-- Detection narrows the masks to 128 bytes, so it keeps the invariant only with the address it latches (R137). -/
theorem EE.Inv.withDetection {e : EE} (h : e.Inv) (hm : e.devMode = .detectNoDeviceByte) {a : Nat} (ha : a ≤ 127) :
    EE.Inv { e with devMode := .noDeviceByte, addrMask := 127, blockMask := 127, addr := a } := by
  refine ⟨h.1, fun hc => ?_⟩
  obtain ⟨⟨hs, hp, hle, hpm, hmem, hsmall, -⟩, -, hcur, hcnt, hbit, -, -, hroom⟩ := h.2 hc
  have h128 : 128 ≤ e.cfgSize := hsmall hm
  have hpage : e.pageMask ≤ 127 := by
    have := (isPageSize_iff _).1 hp
    omega
  exact ⟨⟨hs, hp, hle, hpm, hmem, nofun, .inr ⟨rfl, rfl, h128, rfl⟩⟩,
    ha, hcur, hcnt, hbit, ⟨Nat.le_refl 127, h128⟩, hpage, hroom⟩

theorem EE.Inv.emptyPage {e : EE} (h : e.Inv) : (eeEmptyPage e).Inv :=
  h.withPage (Nat.zero_le _) (Nat.zero_le _) fun _ => rfl

/-! ## EE: the byte actions (R134 to R141) -/

theorem eeLatchAddress_inv {e : EE} (h : e.Inv) (c : Config) (b : Byte) : (eeLatchAddress c b e).Inv :=
  (h.withAddr (Nat.and_le_right : addressOf b e.addrMask ≤ e.addrMask)).emptyPage

theorem eeDetectNoDevice_inv {e : EE} (h : e.Inv) (hm : e.devMode = .detectNoDeviceByte) (c : Config) (b : Byte) :
    (eeDetectNoDevice c b e).Inv :=
  (h.withDetection hm (Nat.and_le_right : addressOf b 127 ≤ 127)).emptyPage

/-- The cursor counts modulo the page, so it is the count while the page has room (R39, R140). -/
theorem eeBufferData_inv {e : EE} (h : e.Inv) (hc : e.configured = true) (b : Byte) : (eeBufferData b e).Inv := by
  obtain ⟨hl, -, -, -, -, -, -, hroom⟩ := h.2 hc
  obtain ⟨p, -, -, -, -, -, -, hps, hpm, -⟩ := EE.legal_windows hl
  have hcount (hlt : min (e.pcnt + 1) e.pageSize < e.pageSize) :
      (e.pcur + 1) &&& e.pageMask = min (e.pcnt + 1) e.pageSize := by
    have hnext : e.pcnt + 1 < e.pageSize := by omega
    rw [Nat.min_eq_left hnext.le, hroom (by omega), hpm, and_mask, Nat.mod_eq_of_lt (hps ▸ hnext)]
  exact h.withPage Nat.and_le_right (Nat.min_le_right _ _) hcount

theorem eeFinalise_inv {e : EE} (h : e.Inv) (hc : e.configured = true) (c : Config) (b : Byte) :
    (eeFinalise c b e).Inv := by
  unfold eeFinalise
  cases e.st with
  | standby => exact h
  | control =>
    dsimp only
    split_ifs with _ hm
    · exact h
    · exact eeDetectNoDevice_inv h hm c b
    · exact h
  | address => exact eeLatchAddress_inv h c b
  | data =>
    dsimp only
    split_ifs
    · exact h.emptyPage
    · exact eeBufferData_inv h hc b

/-! ## EE: the slots (R127 to R133) -/

/-- The next address of a read stays in the block, and so in the address space (R39, R133). -/
theorem wrapInc_blockMask_le {e : EE} (hl : e.legal) (ha : e.addr ≤ e.addrMask) :
    wrapInc e.addr e.blockMask ≤ e.addrMask := by
  obtain ⟨p, j, b, -, -, -, hbj, -, -, ham, hbm, -⟩ := EE.legal_windows hl
  rw [ham] at ha ⊢
  rw [hbm, wrapInc_eq_windowAddr]
  exact windowAddr_le hbj ha 1

theorem eeReadAckSlot_inv {e : EE} (h : e.Inv) (hc : e.configured = true) (sda : Bool) : (eeReadAckSlot sda e).Inv := by
  obtain ⟨hl, haddr, -⟩ := h.2 hc
  have hnext : (if sda then e.addr else wrapInc e.addr e.blockMask) ≤ e.addrMask := by
    split_ifs
    · exact haddr
    · exact wrapInc_blockMask_le hl haddr
  exact (h.withAddr hnext).withBitCnt (Nat.zero_le 8)

theorem eeRisingEdge_inv {e e' : EE} (h : e.Inv) (hc : e.configured = true) {c : Config} {sda : Bool}
    (ha : eeRisingEdge c sda e = .ok e') : e'.Inv := by
  unfold eeRisingEdge at ha
  split_ifs at ha with _ _ hslot hslot
  · cases ha; exact h
  · rw [eeShiftOutBit_spec h hc] at ha
    cases ha; exact h.withBitCnt hslot
  · cases ha; exact eeReadAckSlot_inv h hc sda
  · cases ha; exact h.withBitCnt hslot
  · cases ha; exact eeFinalise_inv (h.withBitCnt (Nat.zero_le 8)) hc c e.shreg

/-! ## EE: the conditions (R113, R114) and the sample (R101) -/

theorem eeStartCond_inv {e : EE} (h : e.Inv) : (eeStartCond e).Inv := (h.withBitCnt (Nat.zero_le 8)).emptyPage

theorem eeCommitIfDue_inv {e e' : EE} (h : e.Inv) (hc : e.configured = true) (ha : eeCommitIfDue e = .ok e') :
    e'.Inv := by
  unfold eeCommitIfDue at ha
  split_ifs at ha
  · obtain ⟨m, hcommit, hlen, hw, haddr, -⟩ := eeCommit_spec h hc
    rw [hcommit] at ha
    cases ha
    exact (h.withMem hw hlen).withAddr haddr
  · cases ha; exact h

theorem eeStopCond_inv {e e' : EE} (h : e.Inv) (hc : e.configured = true) (ha : eeStopCond e = .ok e') : e'.Inv := by
  unfold eeStopCond at ha
  split at ha
  next e₁ h₁ =>
    cases ha
    exact ((eeCommitIfDue_inv h hc h₁).withBitCnt (Nat.zero_le 8)).emptyPage
  next => cases ha

theorem eeSampleAction_inv {e e' : EE} (h : e.Inv) (hc : e.configured = true) {c : Config} {scl sda : Bool}
    (ha : eeSampleAction c scl sda e = .ok e') : e'.Inv := by
  simp only [eeSampleAction] at ha
  split_ifs at ha
  · cases ha; exact eeStartCond_inv h
  · exact eeStopCond_inv h hc ha
  · exact eeRisingEdge_inv h hc ha
  · cases ha; exact h

theorem eeWrite_inv {e e' : EE} (h : e.Inv) (hc : e.configured = true) {c : Config} {we sda scl : Bool}
    (ha : eeWrite c we sda scl e = .ok e') : e'.Inv := by
  unfold eeWrite at ha
  split at ha
  next e₁ h₁ =>
    cases ha
    have hd : (eeDefaultOut we (eeClearNewData e)).Inv := by cases we <;> exact h
    have hdc : (eeDefaultOut we (eeClearNewData e)).configured = true := by cases we <;> exact hc
    have h₂ : e₁.Inv := eeSampleAction_inv hd hdc h₁
    exact h₂
  next => cases ha

/-! ## EE: Configure (R99) -/

/-- An EE.Configure that raises no fault meets the contract. -/
theorem eeConfigureFault_none {c : Config} {size pageSize : Nat} {mode : Option DevMode} {buf : Memory}
    (h : eeConfigureFault c size pageSize mode buf = none) :
    isSize size = true ∧ isPageSize pageSize = true ∧ pageSize ≤ size ∧ mode ≠ none ∧
      (mode = some .detectNoDeviceByte → 128 ≤ size) ∧ buf.len = size := by
  unfold eeConfigureFault at h
  split_ifs at h with hs hp hle hm hd hb
  exact ⟨by simpa using hs, by simpa using hp, not_lt.1 hle, hm, fun hm' => not_lt.1 fun hlt => hd ⟨hm', hlt⟩,
    by simpa using hb⟩

theorem eeConfigured_inv {c : Config} {size pageSize : Nat} {m : DevMode} {buf : Memory} (hw : buf.wf)
    (h : eeConfigureFault c size pageSize (some m) buf = none) (e : EE) :
    (eeConfigured size pageSize m buf e).Inv := by
  obtain ⟨hs, hp, hle, -, hd, hb⟩ := eeConfigureFault_none h
  have hpos : 2 ≤ pageSize := by
    have := (isPageSize_iff _).1 hp
    omega
  have hlegal : (eeConfigured size pageSize m buf e).legal :=
    ⟨hs, hp, hle, rfl, hb, fun hm => hd (congrArg some hm), .inl ⟨rfl, rfl⟩⟩
  have hblock : min 256 size - 1 ≤ size - 1 := Nat.sub_le_sub_right (Nat.min_le_right _ _) 1
  have hspace : size - 1 < size := by omega
  exact ⟨hw, fun _ => ⟨hlegal, Nat.zero_le _, Nat.zero_le _, Nat.zero_le _, Nat.zero_le _, ⟨hblock, hspace⟩,
    Nat.sub_le_sub_right hle 1, fun _ => rfl⟩⟩

/-! ## FL (R40 to R42, R58, R149, R161) -/

theorem FL.Inv.withMem {c : Config} {f : FL} (h : FL.Inv c f) {m : Memory} (hw : m.wf) (hlen : m.len = f.mem.len) :
    FL.Inv c { f with mem := m } := by
  refine ⟨hw, fun hc => ?_⟩
  obtain ⟨hcap, hmask, hmem, hids⟩ := h.2 hc
  exact ⟨hcap, hmask, hlen.trans hmem, hids⟩

theorem flEraseSector_inv {c : Config} {f f' : FL} (h : FL.Inv c f) (hc : f.configured = true) {a : Addr}
    (ha : flEraseSector a f = .ok f') : FL.Inv c f' := by
  obtain ⟨m, hm, hlen, hw, -⟩ := flEraseSector_spec h hc a
  rw [hm] at ha
  cases ha; exact h.withMem hw hlen

theorem flEraseChip_inv {c : Config} {f f' : FL} (h : FL.Inv c f) (hc : f.configured = true)
    (ha : flEraseChip f = .ok f') : FL.Inv c f' := by
  obtain ⟨m, hm, hlen, hw, -⟩ := flEraseChip_spec h hc
  rw [hm] at ha
  cases ha; exact h.withMem hw hlen

theorem flProgram_inv {c : Config} {f f' : FL} (h : FL.Inv c f) (hc : f.configured = true) {a : Addr} {d : Byte}
    (ha : flProgram a d f = .ok f') : FL.Inv c f' := by
  obtain ⟨m, hm, hlen, hw, -⟩ := flProgram_spec h hc a d
  rw [hm] at ha
  cases ha; exact h.withMem hw hlen

theorem flSequence_inv {c : Config} {f f' : FL} (h : FL.Inv c f) (hc : f.configured = true) {a : Addr} {d : Byte}
    (ha : flSequence c a d f = .ok f') : FL.Inv c f' := by
  unfold flSequence at ha
  cases hcyc : f.cyc <;> simp only [hcyc] at ha
  case erase =>
    split_ifs at ha
    · exact flEraseSector_inv h hc ha
    · exact flEraseChip_inv h hc ha
    · cases ha; exact h
  case prog => exact flProgram_inv h hc ha
  case c0 | c1 | c2 | c3 | c4 => split_ifs at ha <;> cases ha <;> exact h

theorem flWrite_inv {c : Config} {f f' : FL} (h : FL.Inv c f) (hc : f.configured = true) {a : Addr} {d : Byte}
    (ha : flWrite c a d f = .ok f') : FL.Inv c f' :=
  flSequence_inv (f := flClearNewData f) h hc ha

theorem flReading_inv {c : Config} {f f' : FL} (h : FL.Inv c f) {a : Addr} {v : Returned}
    (hr : flReading a f = .ok (f', v)) : FL.Inv c f' := by
  unfold flReading flReadingArray at hr
  split_ifs at hr
  · cases hr; exact h
  · cases hr; exact h
  · cases hr; exact h
  · split at hr <;> cases hr
    exact h

/-- An FL.Configure that raises no fault is given a buffer of the variant's capacity (R149). -/
theorem flConfigureFault_none {v : Variant} {buf : Memory} (h : flConfigureFault (some v) buf = none) :
    buf.len = variantCapacity v := by
  simpa [flConfigureFault] using h

theorem flConfigured_inv {v : Variant} {buf : Memory} (hw : buf.wf) (h : flConfigureFault (some v) buf = none)
    (c : Config) (f : FL) : FL.Inv c (flConfigured c v buf f) :=
  ⟨hw, fun _ => ⟨rfl, rfl, flConfigureFault_none h, rfl, rfl⟩⟩

/-! ## The machine -/

theorem State.Inv.withEe {s : State} (h : s.Inv) {e : EE} (he : e.Inv) : (s.withEe e).Inv := ⟨he, h.2⟩

theorem State.Inv.withFl {s : State} (h : s.Inv) {f : FL} (hf : FL.Inv s.config f) : (s.withFl f).Inv :=
  ⟨h.1, hf, h.2.2⟩

theorem State.Inv.takeEeOffer {s : State} (h : s.Inv) : s.takeEeOffer.Inv := by
  obtain ⟨hee, hfl, -, hof⟩ := h
  exact ⟨hee, hfl, ⟨List.Pairwise.nil, nofun⟩, hof⟩

theorem State.Inv.takeFlOffer {s : State} (h : s.Inv) : s.takeFlOffer.Inv := by
  obtain ⟨hee, hfl, hoe, -⟩ := h
  exact ⟨hee, hfl, hoe, ⟨List.Pairwise.nil, nofun⟩⟩

/-- A model fault changes the fault register only, which the invariant does not read (R187). -/
theorem State.Inv.setFault {s : State} (h : s.Inv) (b : Block) (r : ModelFault) : (setFault b r s).Inv := by
  cases b with
  | ee => exact h.withEe (e := { s.ee with fault := some r }) h.1
  | fl => exact h.withFl (f := { s.fl with fault := some r }) h.2.1

/-- The buffer a Configure binds, offered or bound before, is canonical. -/
theorem getD_wf {o : Option Memory} {m : Memory} (ho : offerWf o) (hm : m.wf) : (o.getD m).wf := by
  cases o with
  | none => exact hm
  | some buf => exact ho

theorem onEe_inv {s t : State} (h : s.Inv) {act : EE → Except Fault EE}
    (hact : ∀ e, s.ee.configured = true → act s.ee = .ok e → e.Inv) (ht : onEe s act = .next t) : t.Inv := by
  obtain ⟨⟨-, hc⟩, e, he, rfl⟩ | ⟨-, -, rfl⟩ := onEe_next ht
  · exact h.withEe (hact e hc he)
  · exact h.setFault .ee .notConfigured

theorem onFl_inv {s t : State} (h : s.Inv) {act : FL → Except Fault FL}
    (hact : ∀ f, s.fl.configured = true → act s.fl = .ok f → FL.Inv s.config f) (ht : onFl s act = .next t) :
    t.Inv := by
  obtain ⟨⟨-, hc⟩, f, hf, rfl⟩ | ⟨-, -, rfl⟩ := onFl_next ht
  · exact h.withFl (hact f hc hf)
  · exact h.setFault .fl .notConfigured

theorem eeQuery_inv {s t : State} (h : s.Inv) {v : Returned} (ht : eeReady s (.next (s.returns v)) = .next t) :
    t.Inv := by
  obtain ⟨-, hk⟩ | ⟨-, -, rfl⟩ := eeReady_next ht
  · cases hk; exact h
  · exact h.setFault .ee .notConfigured

theorem flQuery_inv {s t : State} (h : s.Inv) {r : Except Fault (FL × Returned)}
    (hr : ∀ f v, r = .ok (f, v) → FL.Inv s.config f) (ht : flReady s (flReturn s r) = .next t) : t.Inv := by
  obtain ⟨-, hk⟩ | ⟨-, -, rfl⟩ := flReady_next ht
  · obtain ⟨f, v, hf, rfl⟩ := flReturn_next hk
    exact h.withFl (hr f v hf)
  · exact h.setFault .fl .notConfigured

theorem execEcfg_inv {s t : State} (h : s.Inv) {size pageSize : Nat} {mode : Option DevMode}
    (ht : execEcfg size pageSize mode s = .next t) : t.Inv := by
  obtain ⟨-, ⟨r, rfl⟩ | ⟨m, rfl, hf, rfl⟩⟩ := execEcfg_next ht
  · exact h.setFault .ee r
  · have ⟨⟨hw, _⟩, _, hoe, _⟩ := h
    exact h.takeEeOffer.withEe (eeConfigured_inv (getD_wf hoe hw) hf s.ee)

theorem execFcfg_inv {s t : State} (h : s.Inv) {variant : Option Variant} (ht : execFcfg variant s = .next t) :
    t.Inv := by
  obtain ⟨-, ⟨r, rfl⟩ | ⟨v, rfl, hf, rfl⟩⟩ := execFcfg_next ht
  · exact h.setFault .fl r
  · have ⟨_, ⟨hw, _⟩, _, hof⟩ := h
    exact h.takeFlOffer.withFl (flConfigured_inv (getD_wf hof hw) hf s.config s.fl)

/-- The rows below the host operations need not: EE.DETECT alone on a small block leaves the invariant. -/
theorem exec_hostOperation_inv {s t : State} (h : s.Inv) {i : Instr} (hi : isHostOperation i = true)
    (ht : exec i s = .next t) : t.Inv := by
  have ⟨hee, hfl, _, _⟩ := h
  cases i with
  | ecfg size pageSize mode => exact execEcfg_inv h ht
  | sample we sda scl => exact onEe_inv h (fun _ hc => eeWrite_inv hee hc) ht
  | erd | enew | esize => exact eeQuery_inv h ht
  | fcfg variant => exact execFcfg_inv h ht
  | busWrite a d => exact onFl_inv h (fun _ hc => flWrite_inv hfl hc) ht
  | busRead a =>
    have hread : exec (.busRead a) s = flReady s (flReturn s (flReading a s.fl)) :=
      congrArg (flReady s) (flAnswerRead_eq a s)
    exact flQuery_inv h (fun _ _ => flReading_inv hfl) (hread.symm.trans ht)
  | fnew => exact flQuery_inv h (r := .ok (s.fl, .flag s.fl.newData)) (fun _ _ hr => by cases hr; exact hfl) ht
  | fsize => exact flQuery_inv h (r := .ok (s.fl, .size s.fl.capacity)) (fun _ _ hr => by cases hr; exact hfl) ht
  | _ => cases hi

/-! ## The caller's events (R71, R201, R202) -/

theorem endOf_ok {rest : List Byte} {i j : Instr} (h : endOf rest i = .ok j) : j = i := by
  cases rest with
  | nil => cases h; rfl
  | cons b bs => cases h

theorem decodeEcfg_ok {rest : List Byte} {i : Instr} (h : decodeEcfg rest = .ok i) :
    ∃ size pageSize mode, i = .ecfg size pageSize mode := by
  unfold decodeEcfg at h
  split at h
  · split_ifs at h
    exact ⟨_, _, _, endOf_ok h⟩
  · cases h

theorem decodeSample_ok {rest : List Byte} {i : Instr} (h : decodeSample rest = .ok i) :
    ∃ we sda scl, i = .sample we sda scl := by
  unfold decodeSample at h
  split at h
  · split_ifs at h
    exact ⟨_, _, _, endOf_ok h⟩
  · cases h

theorem decodeFcfg_ok {rest : List Byte} {i : Instr} (h : decodeFcfg rest = .ok i) : ∃ variant, i = .fcfg variant := by
  unfold decodeFcfg at h
  split at h
  · split_ifs at h
    exact ⟨_, endOf_ok h⟩
  · cases h

theorem decodeBusWrite_ok {rest : List Byte} {i : Instr} (h : decodeBusWrite rest = .ok i) :
    ∃ a d, i = .busWrite a d := by
  unfold decodeBusWrite at h
  split at h
  · exact ⟨_, _, endOf_ok h⟩
  · cases h

theorem decodeBusRead_ok {rest : List Byte} {i : Instr} (h : decodeBusRead rest = .ok i) : ∃ a, i = .busRead a := by
  unfold decodeBusRead at h
  split at h
  · exact ⟨_, endOf_ok h⟩
  · cases h

/-- A host word decodes to a host operation, selector by selector (R71). -/
theorem decodeHost_isHostOperation {bytes : List Byte} {i : Instr} (h : decodeHost bytes = .ok i) :
    isHostOperation i = true := by
  cases bytes with
  | nil => cases h
  | cons sel rest =>
    simp only [decodeHost] at h
    split_ifs at h
    · obtain ⟨size, pageSize, mode, rfl⟩ := decodeEcfg_ok h; rfl
    · obtain ⟨we, sda, scl, rfl⟩ := decodeSample_ok h; rfl
    · obtain rfl := endOf_ok h; rfl
    · obtain rfl := endOf_ok h; rfl
    · obtain rfl := endOf_ok h; rfl
    · obtain ⟨variant, rfl⟩ := decodeFcfg_ok h; rfl
    · obtain ⟨a, d, rfl⟩ := decodeBusWrite_ok h; rfl
    · obtain ⟨a, rfl⟩ := decodeBusRead_ok h; rfl
    · obtain rfl := endOf_ok h; rfl
    · obtain rfl := endOf_ok h; rfl

theorem performCall_inv {s t : State} (h : s.Inv) {bytes : List Byte} (ht : performCall bytes s = .next t) : t.Inv := by
  cases hd : decode s.config (.host bytes) with
  | ok i => rw [performCall_of_ok hd] at ht; exact exec_hostOperation_inv h (decodeHost_isHostOperation hd) ht
  | error x => rw [performCall_of_error hd] at ht; cases ht

theorem performEvent_inv {s t : State} (h : s.Inv) {ev : CallerEvent} (ht : performEvent ev s = .next t) : t.Inv := by
  have ⟨hee, hfl, hoe, hof⟩ := h
  cases ev with
  | call bytes => exact performCall_inv h ht
  | configureEe size pageSize mode => exact execEcfg_inv h ht
  | offerEe len bytes =>
    obtain ⟨-, hw, -⟩ := memLoad_spec len bytes
    cases ht; exact ⟨hee, hfl, hw, hof⟩
  | offerFl len bytes =>
    obtain ⟨-, hw, -⟩ := memLoad_spec len bytes
    cases ht; exact ⟨hee, hfl, hoe, hw⟩
  | pokeEe a v =>
    obtain ⟨m, hm, rfl⟩ := pokeEe_next ht
    obtain ⟨-, hlen, hw, -⟩ := memWrite_spec hm hee.1
    exact h.withEe (hee.withMem hw hlen)
  | pokeFl a v =>
    obtain ⟨m, hm, rfl⟩ := pokeFl_next ht
    obtain ⟨-, hlen, hw, -⟩ := memWrite_spec hm hfl.1
    exact h.withFl (hfl.withMem hw hlen)

/-- Settles O11, by the caller's next event: a host operation keeps the invariant of its block, an offered buffer is
canonical, and a byte written by the host leaves every register. -/
theorem stepKeepsTheInvariant : Obligations.StepKeepsTheInvariant := by
  intro s t h ht
  cases hp : s.caller.pending with
  | nil => rw [step_of_pending_nil hp] at ht; cases ht; exact h
  | cons ev rest => rw [step_of_pending_cons hp] at ht; exact performEvent_inv (s := s.withPending rest) h ht

end Sys2Proof.Machine

/-! # Memory (20_memory.md): what a write can change of memory and the flags

A block's memory and its `newData` are written by the same few actions. What a write can do to them is said once, for a
sample of EE by whether it commits, and for a bus cycle of FL by the command it completes. -/

/-! ## The actions of a live block -/

namespace Sys2Proof.Machine

/-- An action that answers on a live block has run: NOT_CONFIGURED is for the others (R109). -/
theorem onEe_next_of_live {s t : State} {act : EE → Except Fault EE} (hl : s.ee.live) (h : onEe s act = .next t) :
    ∃ e, act s.ee = .ok e ∧ t = s.withEe e := by
  obtain ⟨-, he⟩ | ⟨-, hconf, -⟩ := onEe_next h
  · exact he
  · rw [hl.2] at hconf; cases hconf

/-- The same of FL (R160). -/
theorem onFl_next_of_live {s t : State} {act : FL → Except Fault FL} (hl : s.fl.live) (h : onFl s act = .next t) :
    ∃ f, act s.fl = .ok f ∧ t = s.withFl f := by
  obtain ⟨-, hf⟩ | ⟨-, hconf, -⟩ := onFl_next h
  · exact hf
  · rw [hl.2] at hconf; cases hconf

end Sys2Proof.Machine

/-! ## EE: memory changes only by the commit of a Stop (R36, R56) -/

namespace Sys2Proof.Machine

/-- The condition of `Commit()` in R114. -/
abbrev EE.commitDue (e : EE) : Prop := e.st = .data ∧ e.dir = .write ∧ 0 < e.pcnt

/-- The sample is a Stop, and the Stop commits (R114). -/
abbrev EE.commitsAt (e : EE) (scl sda : Bool) : Prop :=
  e.prevScl = true ∧ e.prevSda = false ∧ scl = true ∧ sda = true ∧ e.commitDue

/-- Memory and its flag stand as they were. -/
abbrev EE.keepsMemory (e e' : EE) : Prop := e'.mem = e.mem ∧ e'.newData = e.newData

/-- The index of a Stop (R111): the data line rises while the clock is high. -/
theorem detectorIndex_eq_stop_iff (prevScl prevSda scl sda : Bool) :
    detectorIndex prevScl prevSda scl sda = 0b1011 ↔
      prevScl = true ∧ prevSda = false ∧ scl = true ∧ sda = true := by
  decide +revert

theorem EE.commitsAt_iff {e : EE} {scl sda : Bool} :
    e.commitsAt scl sda ↔ detectorIndex e.prevScl e.prevSda scl sda = 0b1011 ∧ e.commitDue := by
  rw [detectorIndex_eq_stop_iff]
  simp only [EE.commitsAt, and_assoc]

theorem eeFinalise_keepsMemory (c : Config) (b : Byte) (e : EE) : e.keepsMemory (eeFinalise c b e) := by
  unfold eeFinalise
  cases e.st with
  | standby => exact ⟨rfl, rfl⟩
  | control => dsimp only; split_ifs <;> exact ⟨rfl, rfl⟩
  | address => exact ⟨rfl, rfl⟩
  | data => dsimp only; split_ifs <;> exact ⟨rfl, rfl⟩

theorem eeShiftOutBit_keepsMemory {e e' : EE} (h : eeShiftOutBit e = .ok e') : e.keepsMemory e' := by
  unfold eeShiftOutBit at h
  split at h <;> cases h
  exact ⟨rfl, rfl⟩

theorem eeRisingEdge_keepsMemory {c : Config} {sda : Bool} {e e' : EE} (h : eeRisingEdge c sda e = .ok e') :
    e.keepsMemory e' := by
  unfold eeRisingEdge at h
  split_ifs at h
  · cases h; exact ⟨rfl, rfl⟩
  · exact eeShiftOutBit_keepsMemory h
  · cases h; exact ⟨rfl, rfl⟩
  · cases h; exact ⟨rfl, rfl⟩
  · cases h; exact eeFinalise_keepsMemory c e.shreg { e with bitCnt := 0 }

/-- A commit that answers has set the flag (R143). -/
theorem eeCommit_newData {e e' : EE} (h : eeCommit e = .ok e') : e'.newData = true := by
  unfold eeCommit at h
  split at h <;> cases h
  rfl

/-- What a Stop can do to memory (R114): the commit, exactly when one is due. -/
theorem eeStopCond_memory {e e' : EE} (h : eeStopCond e = .ok e') :
    if e.commitDue then e'.newData = true else e.keepsMemory e' := by
  unfold eeStopCond eeCommitIfDue at h
  split_ifs at h ⊢
  · split at h <;> cases h
    next e₁ he₁ =>
      have hset : e₁.newData = true := eeCommit_newData he₁
      exact hset
  · cases h; exact ⟨rfl, rfl⟩

/-- What the action of a sample can do to memory (R101): the commit, exactly at a Stop when one is due. -/
theorem eeSampleAction_memory {c : Config} {scl sda : Bool} {e e' : EE} (h : eeSampleAction c scl sda e = .ok e') :
    if e.commitsAt scl sda then e'.newData = true else e.keepsMemory e' := by
  simp only [EE.commitsAt_iff]
  simp only [eeSampleAction] at h
  by_cases hstop : detectorIndex e.prevScl e.prevSda scl sda = 0b1011
  · simp only [hstop, true_and] at h ⊢
    exact eeStopCond_memory h
  · rw [if_neg fun hc => hstop hc.1]
    split_ifs at h
    · cases h; exact ⟨rfl, rfl⟩
    · exact eeRisingEdge_keepsMemory h
    · cases h; exact ⟨rfl, rfl⟩

/-- What an EE.Write can do to memory: the flag is cleared first (R102), so it is left set by a commit only. -/
theorem eeWrite_memory {c : Config} {we sda scl : Bool} {e e' : EE} (h : eeWrite c we sda scl e = .ok e') :
    if e.commitsAt scl sda then e'.newData = true else e'.mem = e.mem ∧ e'.newData = false := by
  unfold eeWrite at h
  split at h <;> cases h
  next e₁ h₁ => cases we <;> exact eeSampleAction_memory h₁

/-- Settles O25, by the one action of a sample that writes memory: the commit sets the flag, and every other action
keeps memory and leaves the flag as the entry of EE.Write cleared it. -/
theorem memoryAndNewDataChangeOnlyAtACommittingStop : Obligations.MemoryAndNewDataChangeOnlyAtACommittingStop := by
  intro s t we sda scl hlive ht committing
  obtain ⟨e, he, rfl⟩ := onEe_next_of_live (act := eeWrite s.config we sda scl) hlive ht
  have hmem := eeWrite_memory he
  by_cases hc : s.ee.commitsAt scl sda
  · rw [if_pos hc] at hmem
    exact ⟨fun _ => hc, iff_of_true hmem hc⟩
  · rw [if_neg hc] at hmem
    obtain ⟨hkept, hclear⟩ := hmem
    exact ⟨fun hne => absurd hkept hne, iff_of_false (by simp [hclear]) hc⟩

end Sys2Proof.Machine

/-! ## FL: memory and the flags change only by their commands (R59, R181, R182) -/

namespace Sys2Proof.Machine

/-- What a bus cycle can do to the block: move the counter, enter or leave ID mode, erase, or program a byte. -/
inductive FlCycleEffect (c : Config) (a : Addr) (d : Byte) (f : FL) : FL → Prop where
  | move (next : FlCycle) (hcyc : f.cyc ≠ .prog) : FlCycleEffect c a d f (flGoto next f)
  | idEntry (hcyc : f.cyc = .c2) (ha : cmdAddr c a 0x5555 = true) (hd : d = c.cmdIdEntry) :
    FlCycleEffect c a d f (flEnterId f)
  | idExit (hcyc : f.cyc = .c2) (ha : cmdAddr c a 0x5555 = true) (hd : d = c.cmdIdExit) :
    FlCycleEffect c a d f (flLeaveId f)
  | idExitAtOnce (hcyc : f.cyc = .c0) (hid : f.idMode = true) (hd : d = c.cmdIdExit) :
    FlCycleEffect c a d f (flLeaveId f)
  | erase (m : Memory) (hcyc : f.cyc = .erase) (hd : d = 0x30 ∨ (cmdAddr c a 0x5555 = true ∧ d = 0x10)) :
    FlCycleEffect c a d f (flGoto .c0 { f with mem := m })
  | program (m : Memory) (hcyc : f.cyc = .prog) :
    FlCycleEffect c a d f (flGoto .c0 (flSetNewData { f with mem := m }))

theorem isCommand_iff {c : Config} {k : Byte} {a : Addr} {d : Byte} :
    isCommand c k a d = true ↔ cmdAddr c a 0x5555 = true ∧ d = k := by
  simp [isCommand, at5555]

theorem flEraseRange_ok {base n : Nat} {f f' : FL} (h : flEraseRange base n f = .ok f') :
    ∃ m, f' = flGoto .c0 { f with mem := m } := by
  unfold flEraseRange at h
  split at h <;> cases h
  exact ⟨_, rfl⟩

theorem flProgram_ok {a : Addr} {d : Byte} {f f' : FL} (h : flProgram a d f = .ok f') :
    ∃ m, f' = flGoto .c0 (flSetNewData { f with mem := m }) := by
  unfold flProgram at h
  split at h
  · cases h
  · split at h <;> cases h
    exact ⟨_, rfl⟩

/-- Every row of the table in R161 has one of these effects. -/
theorem flSequence_effect {c : Config} {a : Addr} {d : Byte} {f f' : FL} (h : flSequence c a d f = .ok f') :
    FlCycleEffect c a d f f' := by
  unfold flSequence at h
  cases hcyc : f.cyc <;> simp only [hcyc] at h
  case c0 =>
    split_ifs at h with hexit <;> cases h
    · obtain ⟨hid, hd⟩ : f.idMode = true ∧ d = c.cmdIdExit := by simpa using hexit
      exact .idExitAtOnce hcyc hid hd
    · exact .move _ (by simp [hcyc])
    · exact .move _ (by simp [hcyc])
  case c2 =>
    split_ifs at h with _ _ hentry hexit <;> cases h
    · exact .move _ (by simp [hcyc])
    · exact .move _ (by simp [hcyc])
    · obtain ⟨ha, hd⟩ := isCommand_iff.1 hentry
      exact .idEntry hcyc ha hd
    · obtain ⟨ha, hd⟩ := isCommand_iff.1 hexit
      exact .idExit hcyc ha hd
    · exact .move _ (by simp [hcyc])
  case c1 | c3 | c4 => split_ifs at h <;> cases h <;> exact .move _ (by simp [hcyc])
  case erase =>
    split_ifs at h with hsector hchip
    · obtain ⟨m, rfl⟩ := flEraseRange_ok h
      exact .erase m hcyc (.inl (by simpa using hsector))
    · obtain ⟨m, rfl⟩ := flEraseRange_ok h
      exact .erase m hcyc (.inr (isCommand_iff.1 hchip))
    · cases h; exact .move _ (by simp [hcyc])
  case prog =>
    obtain ⟨m, rfl⟩ := flProgram_ok h
    exact .program m hcyc

theorem FlCycleEffect.command_of_mem_ne {c : Config} {a : Addr} {d : Byte} {f f' : FL}
    (h : FlCycleEffect c a d f f') (hne : f'.mem ≠ f.mem) :
    f.cyc = .prog ∨ (f.cyc = .erase ∧ (d = 0x30 ∨ (cmdAddr c a 0x5555 = true ∧ d = 0x10))) := by
  cases h with
  | move | idEntry | idExit | idExitAtOnce => exact absurd rfl hne
  | erase m hcyc hd => exact .inr ⟨hcyc, hd⟩
  | program m hcyc => exact .inl hcyc

theorem FlCycleEffect.newData_iff {c : Config} {a : Addr} {d : Byte} {f f' : FL}
    (h : FlCycleEffect c a d f f') (hclear : f.newData ≠ true) : f'.newData = true ↔ f.cyc = .prog := by
  cases h with
  | move next hcyc => exact iff_of_false hclear hcyc
  | idEntry hcyc | idExit hcyc | idExitAtOnce hcyc | erase m hcyc => exact iff_of_false hclear (by simp [hcyc])
  | program m hcyc => exact iff_of_true rfl hcyc

theorem FlCycleEffect.command_of_idMode_ne {c : Config} {a : Addr} {d : Byte} {f f' : FL}
    (h : FlCycleEffect c a d f f') (hne : f'.idMode ≠ f.idMode) :
    (f.cyc = .c2 ∧ cmdAddr c a 0x5555 = true ∧
      ((f'.idMode = true ∧ d = c.cmdIdEntry) ∨ (f'.idMode = false ∧ d = c.cmdIdExit))) ∨
    (f.cyc = .c0 ∧ f.idMode = true ∧ f'.idMode = false ∧ d = c.cmdIdExit) := by
  cases h with
  | move | erase | program => exact absurd rfl hne
  | idEntry hcyc ha hd => exact .inl ⟨hcyc, ha, .inl ⟨rfl, hd⟩⟩
  | idExit hcyc ha hd => exact .inl ⟨hcyc, ha, .inr ⟨rfl, hd⟩⟩
  | idExitAtOnce hcyc hid hd => exact .inr ⟨hcyc, hid, rfl, hd⟩

/-- Settles O49, by the effects of a bus cycle: the erases and the program alone write memory, the program alone sets
the flag that the entry of FL.Write cleared, and the identifier commands alone write idMode. -/
theorem flashStateChangesOnlyByItsCommands : Obligations.FlashStateChangesOnlyByItsCommands := by
  intro s t a d hlive ht
  obtain ⟨f, hf, rfl⟩ := onFl_next_of_live (act := flWrite s.config a d) hlive ht
  have heffect : FlCycleEffect s.config a d (flClearNewData s.fl) f := flSequence_effect hf
  exact ⟨heffect.command_of_mem_ne, heffect.newData_iff Bool.false_ne_true, heffect.command_of_idMode_ne⟩

end Sys2Proof.Machine

/-! # Encodings (30_encoding.md) -/

/-! ## Decoding the encoder's word (R71, R85, R86, R98) -/

namespace Sys2Proof.Laws.RoundTrip

/-- The round trips of the 47 rows together. -/
theorem statement_holds : ∀ i : Instr, Statement i
  | .ecfg size pageSize mode => ecfg size pageSize mode
  | .sample we sda scl => sample we sda scl
  | .erd => erd
  | .enew => enew
  | .esize => esize
  | .fcfg variant => fcfg variant
  | .busWrite a d => busWrite a d
  | .busRead a => busRead a
  | .fnew => fnew
  | .fsize => fsize
  | .eeStart => eeStart
  | .eeStop => eeStop
  | .eeRise prevSda sda => eeRise prevSda sda
  | .eeHighHoldLow => eeHighHoldLow
  | .eeHighHoldHigh => eeHighHoldHigh
  | .eeLow prevScl prevSda sda => eeLow prevScl prevSda sda
  | .eeShiftIn sda => eeShiftIn sda
  | .eeShiftOut => eeShiftOut
  | .eeWackSlot => eeWackSlot
  | .eeRackSlot sda => eeRackSlot sda
  | .eeCtrlMatch rw => eeCtrlMatch rw
  | .eeCtrlMismatch b => eeCtrlMismatch b
  | .eeDetect b => eeDetect b
  | .eeAddress b => eeAddress b
  | .eeQuirkAbort b => eeQuirkAbort b
  | .eeDataWrite b => eeDataWrite b
  | .flIdExit1 a => flIdExit1 a
  | .flUnlock1 a => flUnlock1 a
  | .flC0Other a d => flC0Other a d
  | .flUnlock2 a => flUnlock2 a
  | .flC1Abort a d => flC1Abort a d
  | .flEraseSetup a => flEraseSetup a
  | .flProgramSetup a => flProgramSetup a
  | .flIdEntry a => flIdEntry a
  | .flIdExit3 a => flIdExit3 a
  | .flC2Abort a d => flC2Abort a d
  | .flUnlock4 a => flUnlock4 a
  | .flUnlock5 a => flUnlock5 a
  | .flC3C4Abort a d => flC3C4Abort a d
  | .flSectorErase a => flSectorErase a
  | .flChipErase a => flChipErase a
  | .flEraseAbort a d => flEraseAbort a d
  | .flByteProgram a d => flByteProgram a d
  | .flReadArray a => flReadArray a
  | .flReadMfrId => flReadMfrId
  | .flReadDevId => flReadDevId
  | .flReadIdOther a => flReadIdOther a

/-- Settles O1, by the round trip of each row. -/
theorem decodeOfEncodeIsIdentity : Obligations.DecodeOfEncodeIsIdentity :=
  fun c i hc hi => statement_holds i c hc hi

end Sys2Proof.Laws.RoundTrip

/-! ## The one word of a host transaction (R71, R95) -/

namespace Sys2Proof

/-! ### The fields of an operand byte, joined again -/

/-- A byte is its low n bits where the others are clear. -/
theorem setWidth_extractLsb'_of_lt {b : Byte} {n : Nat} (h : b.toNat < 2 ^ n) :
    (b.extractLsb' 0 n).setWidth 8 = b := by
  apply BitVec.eq_of_toNat_eq
  simp [Nat.mod_eq_of_lt h, Nat.mod_eq_of_lt b.isLt]

theorem ofBool_getLsbD_eq_extractLsb' (b : Byte) (i : Nat) : BitVec.ofBool (b.getLsbD i) = b.extractLsb' i 1 := by
  apply BitVec.eq_of_getLsbD_eq
  intro j hj
  obtain rfl : j = 0 := by omega
  simp

/-- The sample word is the byte it was read from (R72). -/
theorem sampleByte_of_bits {b : Byte} (h : b.toNat < 8) :
    sampleByte (b.getLsbD 2) (b.getLsbD 1) (b.getLsbD 0) = b := by
  simp only [sampleByte, ofBool_getLsbD_eq_extractLsb']
  have hhigh : b.extractLsb' 2 1 ++ b.extractLsb' 1 1 = b.extractLsb' 1 2 :=
    BitVec.extractLsb'_append_extractLsb'_eq_extractLsb' rfl
  have hall : b.extractLsb' 1 2 ++ b.extractLsb' 0 1 = b.extractLsb' 0 3 :=
    BitVec.extractLsb'_append_extractLsb'_eq_extractLsb' rfl
  rw [hhigh, hall]
  exact setWidth_extractLsb'_of_lt (n := 3) h

theorem codeOfMode_modeOfCode (md : BitVec 2) : codeOfMode (modeOfCode md) = md := by
  revert md; decide

theorem codeOfPage_pageOfCode (pg : BitVec 2) : codeOfPage (pageOfCode pg) = pg := by
  revert pg; decide

theorem codeOfVariant_variantOfCode (v : BitVec 2) : codeOfVariant (variantOfCode v) = v := by
  revert v; decide

/-- Each byte of a joined operand is the byte it was joined from (log 2). -/
theorem addrByte_addrOfBytes (b0 b1 b2 b3 : Byte) :
    addrByte (addrOfBytes b0 b1 b2 b3) 0 = b0 ∧ addrByte (addrOfBytes b0 b1 b2 b3) 1 = b1 ∧
      addrByte (addrOfBytes b0 b1 b2 b3) 2 = b2 ∧ addrByte (addrOfBytes b0 b1 b2 b3) 3 = b3 := by
  simp only [addrByte, addrOfBytes]
  refine ⟨?_, ?_, ?_, ?_⟩
  · rw [BitVec.extractLsb'_append_eq_of_add_le (by omega)]; simp
  · rw [BitVec.extractLsb'_append_eq_of_le (by omega), BitVec.extractLsb'_append_eq_of_add_le (by omega)]; simp
  · rw [BitVec.extractLsb'_append_eq_of_le (by omega), BitVec.extractLsb'_append_eq_of_le (by omega),
      BitVec.extractLsb'_append_eq_of_add_le (by omega)]; simp
  · rw [BitVec.extractLsb'_append_eq_of_le (by omega), BitVec.extractLsb'_append_eq_of_le (by omega),
      BitVec.extractLsb'_append_eq_of_le (by omega)]; simp

/-! ### Selector by selector -/

/-- What ends a word that decodes: nothing (R71). -/
theorem endOf_eq_ok {rest : List Byte} {i j : Instr} (h : endOf rest i = .ok j) : rest = [] ∧ j = i := by
  cases rest with
  | nil => cases h; exact ⟨rfl, rfl⟩
  | cons b bs => cases h

theorem encode_of_decodeEcfg {c : Config} {rest : List Byte} {i : Instr} (h : decodeEcfg rest = .ok i) :
    encode c i = .host (0x0 :: rest) := by
  unfold decodeEcfg at h
  split at h
  next k m rest =>
    split at h
    next hb =>
      obtain ⟨-, hm⟩ : k.toNat < 64 ∧ m.toNat < 16 := by simpa using hb
      obtain ⟨rfl, rfl⟩ := endOf_eq_ok h
      have hk : BitVec.ofNat 8 (Nat.log2 (2 ^ k.toNat)) = k := by simp [Nat.log2_two_pow]
      have hfields : (m.extractLsb' 2 2 ++ m.extractLsb' 0 2).setWidth 8 = m := by
        have hjoin : m.extractLsb' 2 2 ++ m.extractLsb' 0 2 = m.extractLsb' 0 4 :=
          BitVec.extractLsb'_append_extractLsb'_eq_extractLsb' rfl
        rw [hjoin]
        exact setWidth_extractLsb'_of_lt (n := 4) hm
      simp only [encode, hk, codeOfMode_modeOfCode, codeOfPage_pageOfCode, hfields]
    next => cases h
  next => cases h

theorem encode_of_decodeSample {c : Config} {rest : List Byte} {i : Instr} (h : decodeSample rest = .ok i) :
    encode c i = .host (0x1 :: rest) := by
  unfold decodeSample at h
  split at h
  next b rest =>
    split at h
    next hb =>
      obtain ⟨rfl, rfl⟩ := endOf_eq_ok h
      simp only [encode, sampleByte_of_bits hb]
    next => cases h
  next => cases h

theorem encode_of_decodeFcfg {c : Config} {rest : List Byte} {i : Instr} (h : decodeFcfg rest = .ok i) :
    encode c i = .host (0x8 :: rest) := by
  unfold decodeFcfg at h
  split at h
  next b rest =>
    split at h
    next hb =>
      obtain ⟨rfl, rfl⟩ := endOf_eq_ok h
      simp only [encode, codeOfVariant_variantOfCode, setWidth_extractLsb'_of_lt (n := 2) hb]
    next => cases h
  next => cases h

theorem encode_of_decodeBusWrite {c : Config} {rest : List Byte} {i : Instr} (h : decodeBusWrite rest = .ok i) :
    encode c i = .host (0x9 :: rest) := by
  unfold decodeBusWrite at h
  split at h
  next d b0 b1 b2 b3 rest =>
    obtain ⟨rfl, rfl⟩ := endOf_eq_ok h
    obtain ⟨h0, h1, h2, h3⟩ := addrByte_addrOfBytes b0 b1 b2 b3
    simp only [encode, h0, h1, h2, h3]
  next => cases h

theorem encode_of_decodeBusRead {c : Config} {rest : List Byte} {i : Instr} (h : decodeBusRead rest = .ok i) :
    encode c i = .host (0xA :: rest) := by
  unfold decodeBusRead at h
  split at h
  next b0 b1 b2 b3 rest =>
    obtain ⟨rfl, rfl⟩ := endOf_eq_ok h
    obtain ⟨h0, h1, h2, h3⟩ := addrByte_addrOfBytes b0 b1 b2 b3
    simp only [encode, h0, h1, h2, h3]
  next => cases h

/-- A word of the selector alone. -/
theorem encode_of_endOf {c : Config} {sel : Byte} {rest : List Byte} {i j : Instr} (hi : encode c i = .host [sel])
    (h : endOf rest i = .ok j) : encode c j = .host (sel :: rest) := by
  obtain ⟨rfl, rfl⟩ := endOf_eq_ok h
  exact hi

/-- Settles O2, by the selector of the word. -/
theorem hostWordIsTheOnlyWord : Obligations.HostWordIsTheOnlyWord := by
  intro c bytes i h
  cases bytes with
  | nil => cases h
  | cons sel rest =>
    simp only [decode, decodeHost] at h
    split_ifs at h <;> subst sel
    · exact encode_of_decodeEcfg h
    · exact encode_of_decodeSample h
    · exact encode_of_endOf rfl h
    · exact encode_of_endOf rfl h
    · exact encode_of_endOf rfl h
    · exact encode_of_decodeFcfg h
    · exact encode_of_decodeBusWrite h
    · exact encode_of_decodeBusRead h
    · exact encode_of_endOf rfl h
    · exact encode_of_endOf rfl h

end Sys2Proof

/-! ## Whatever decodes: well-formed, and the first row that holds (R85, R98, R134, R161) -/

namespace Sys2Proof.Machine

theorem decodeDetector_wellFormed (c : Config) (k : BitVec 4) : wellFormed c (decodeDetector k) = true := by
  unfold decodeDetector
  split_ifs <;> rfl

theorem decodeSlot_wellFormed {c : Config} {st : EeState} {dir : Dir} {bitCnt : Nat} {sda : Bool} {i : Instr}
    (h : decodeSlot st dir bitCnt sda = .ok i) : wellFormed c i = true := by
  unfold decodeSlot at h
  split_ifs at h <;> cases h <;> rfl

theorem decodeByte_wellFormed {c : Config} {st : EeState} {mode : DevMode} {pageSize pcnt : Nat} {b : Byte} {i : Instr}
    (h : decodeByte c st mode pageSize pcnt b = .ok i) : wellFormed c i = true := by
  unfold decodeByte at h
  cases st with
  | standby => cases h
  | control =>
    dsimp only at h
    split_ifs at h with hsel <;> cases h
    · rfl
    · simpa [wellFormed, wfMismatch] using hsel
    · simpa [wellFormed, wfMismatch] using hsel
  | address => cases h; rfl
  | data => dsimp only at h; split_ifs at h <;> cases h <;> rfl

theorem isUnlock_iff {c : Config} {n : Fin 5} {a : Addr} {d : Byte} :
    isUnlock c n a d = true ↔ cmdAddr c a flUnlock[n].1 = true ∧ d = flUnlock[n].2 := by
  simp [isUnlock]

theorem decodeCycle_wellFormed (c : Config) (cyc : FlCycle) (idMode : Bool) (a : Addr) (d : Byte) :
    wellFormed c (decodeCycle c cyc idMode a d) = true := by
  unfold decodeCycle
  cases cyc with
  | c0 =>
    dsimp only
    split_ifs with _ hu
    · rfl
    · exact (isUnlock_iff.1 hu).1
    · simpa [wellFormed] using hu
  | c1 =>
    dsimp only
    split_ifs with hu
    · exact (isUnlock_iff.1 hu).1
    · simpa [wellFormed] using hu
  | c2 =>
    dsimp only
    split_ifs with hu hp he hx
    · exact (isUnlock_iff.1 hu).1
    · exact (isCommand_iff.1 hp).1
    · exact (isCommand_iff.1 he).1
    · exact (isCommand_iff.1 hx).1
    · simp [wellFormed, isC2Command, hu, hp, he, hx]
  | c3 | c4 =>
    dsimp only
    split_ifs with hu
    · exact (isUnlock_iff.1 hu).1
    · rfl
  | prog => rfl
  | erase =>
    dsimp only
    split_ifs with hs hc
    · rfl
    · exact (isCommand_iff.1 hc).1
    · simpa [wellFormed] using And.intro hs hc

theorem decodeRead_wellFormed (c : Config) (idMode : Bool) (a : Addr) : wellFormed c (decodeRead idMode a) = true := by
  unfold decodeRead
  split_ifs with _ h0 h1
  · rfl
  · rfl
  · simpa [wellFormed] using And.intro h0 h1
  · rfl

/-- Whatever decodes is well-formed, level by level. -/
theorem decode_wellFormed {c : Config} {code : Code} {i : Instr} (h : decode c code = .ok i) :
    wellFormed c i = true := by
  cases code with
  | host bytes => exact decodeHost_wellFormed h
  | detector k => cases h; exact decodeDetector_wellFormed c k
  | slot st dir bitCnt sda => exact decodeSlot_wellFormed h
  | frameByte st mode pageSize pcnt b => exact decodeByte_wellFormed h
  | cycle cyc idMode w => cases h; exact decodeCycle_wellFormed c cyc idMode (busAddr w) (busData w)
  | read idMode a => cases h; exact decodeRead_wellFormed c idMode a

/-- A finalised byte decodes to the first row of R134. -/
theorem firstRow_byteRows {c : Config} {st : EeState} {mode : DevMode} {pageSize pcnt : Nat} {b : Byte} {i : Instr}
    (h : decodeByte c st mode pageSize pcnt b = .ok i) :
    firstRow (byteRows c st mode pageSize pcnt b) = some i := by
  unfold decodeByte at h
  cases st with
  | standby => cases h
  | control =>
    dsimp only at h
    split_ifs at h with hsel hm <;> cases h <;> simp [byteRows, firstRow, *]
  | address => cases h; rfl
  | data =>
    dsimp only at h
    split_ifs at h with hq <;> cases h <;> simp [byteRows, firstRow, hq]

/-- A bus cycle decodes to the first row of R161: in each cycle state the rows of the other states do not hold, and
those that are left are the conditions the decoder asks in turn. -/
theorem firstRow_cycleRows (c : Config) (cyc : FlCycle) (idMode : Bool) (a : Addr) (d : Byte) :
    firstRow (cycleRows c cyc idMode a d) = some (decodeCycle c cyc idMode a d) := by
  cases cyc <;>
    simp [cycleRows, firstRow, decodeCycle, isUnlock_eq, isCommand, at5555, at2AAA, apply_ite some]

/-- Settles O3, by the level of the input, and the rows of R134 and R161. -/
theorem decodedInstructionIsWellFormed : Obligations.DecodedInstructionIsWellFormed := by
  intro c code i h
  refine ⟨decode_wellFormed h, ?_, ?_⟩
  · rintro st mode pageSize pcnt b rfl
    exact firstRow_byteRows h
  · rintro cyc idMode w rfl
    cases h
    exact firstRow_cycleRows c cyc idMode (busAddr w) (busData w)

end Sys2Proof.Machine

/-! ## Fixed words: the detector index (R73), and words written out from R71 to R82 -/

namespace Sys2Proof

theorem detectorIndex_toNat (prevScl prevSda scl sda : Bool) :
    (detectorIndex prevScl prevSda scl sda).toNat =
      8 * prevScl.toNat + 4 * prevSda.toNat + 2 * scl.toNat + sda.toNat := by
  decide +revert

theorem decodeDetector_rise (prevSda sda : Bool) :
    decodeDetector (detectorIndex false prevSda true sda) = .eeRise prevSda sda := by
  decide +revert

theorem decodeDetector_low (prevScl prevSda sda : Bool) :
    decodeDetector (detectorIndex prevScl prevSda false sda) = .eeLow prevScl prevSda sda := by
  decide +revert

/-- Settles O4, by the sixteen values of the index. -/
theorem detectorRowsPartitionTheIndex : Obligations.DetectorRowsPartitionTheIndex :=
  ⟨detectorIndex_toNat, rfl, rfl, decodeDetector_rise, rfl, rfl, decodeDetector_low⟩

/-- Settles O5: each word evaluates to its instruction. -/
theorem specWordsDecode : Obligations.SpecWordsDecode :=
  ⟨rfl, rfl, rfl, rfl, rfl, rfl, rfl⟩

end Sys2Proof

/-! ## The caller's other events (R96, R202, R205, R212) -/

namespace Sys2Proof.Machine

/-- A buffer of the offered contents, as an event's answer describes it (R212). -/
theorem exists_offered {P : Memory → Prop} {len : Nat} {bytes : List Host.Cell} (h : P (memLoad len bytes)) :
    ∃ m, P m ∧ m.wf ∧ m.len = len ∧ ∀ x, memRead m x = if x < len then some (listedByte bytes x) else none :=
  have ⟨hlen, hw, hread⟩ := memLoad_spec len bytes
  ⟨memLoad len bytes, h, hw, hlen, hread⟩

/-- The buffer after one of its bytes is written (R202). -/
theorem exists_poked {m : Memory} (hw : m.wf) {a : Nat} (ha : a < m.len) (v : Byte) :
    ∃ m', memWrite m a v = some m' ∧ m'.len = m.len ∧ ∀ x, memRead m' x = if x = a then some v else memRead m x :=
  have hm := memWrite_isSome (v := v) ha
  have ⟨_, hlen, _⟩ := memWrite_spec hm hw
  ⟨_, hm, hlen, memRead_memWrite hm hw⟩

theorem pokeEe_of_memWrite {s : State} {a : Nat} {v : Byte} {m : Memory} (h : memWrite s.ee.mem a v = some m) :
    pokeEe a v s = .next (s.withEe { s.ee with mem := m }) := by
  unfold pokeEe; rw [h]

theorem pokeFl_of_memWrite {s : State} {a : Nat} {v : Byte} {m : Memory} (h : memWrite s.fl.mem a v = some m) :
    pokeFl a v s = .next (s.withFl { s.fl with mem := m }) := by
  unfold pokeFl; rw [h]

/-- Settles O7, by the event: each is one equation of the step, with the spec of the load or of the write. -/
theorem stepPerformsTheCallersOtherEvents : Obligations.StepPerformsTheCallersOtherEvents := by
  intro s rest
  refine ⟨step_of_pending_nil, fun size pageSize mode hp => step_of_pending_cons hp, ?_, ?_, ?_, ?_⟩
  · intro len bytes hp
    exact exists_offered (step_of_pending_cons hp)
  · intro len bytes hp
    exact exists_offered (step_of_pending_cons hp)
  · intro a v hp hw ha
    obtain ⟨m, hm, hlen, hread⟩ := exists_poked hw ha v
    have hpoke : pokeEe a v (s.withPending rest) = _ := pokeEe_of_memWrite hm
    exact ⟨m, (step_of_pending_cons hp).trans hpoke, hlen, hread⟩
  · intro a v hp hw ha
    obtain ⟨m, hm, hlen, hread⟩ := exists_poked hw ha v
    have hpoke : pokeFl a v (s.withPending rest) = _ := pokeFl_of_memWrite hm
    exact ⟨m, (step_of_pending_cons hp).trans hpoke, hlen, hread⟩

end Sys2Proof.Machine

/-! ## TX b: the samples of a slot and of a frame (R93, R129, R130) -/

namespace Sys2Proof.Machine

/-! ### Sequences -/

theorem execAll_cons_of_next {i : Instr} {is : List Instr} {s t : State} (h : exec i s = .next t) :
    execAll (i :: is) s = execAll is t := by
  simp only [execAll, h]

theorem execAll_append_of_next {is js : List Instr} {s t : State} (h : execAll is s = .next t) :
    execAll (is ++ js) s = execAll js t := by
  induction is generalizing s with
  | nil => cases h; rfl
  | cons i is ih =>
    rw [execAll] at h
    split at h
    next u hu => rw [List.cons_append, execAll_cons_of_next hu]; exact ih h
    next => cases h
    next => cases h

/-! ### The three samples of a slot -/

/-- A slot is its data level before, at and after a high clock (R93). -/
theorem slotSeq_eq (bit : Bool) :
    slotSeq bit = [.sample true bit false, .sample true bit true, .sample true bit false] := by
  cases bit <;> rfl

/-- While the clock is low a sample has no action (R112). -/
theorem eeSampleAction_low (c : Config) (sda : Bool) (e : EE) : eeSampleAction c false sda e = .ok e := by
  have hclass : ∀ x y z : Bool, detectorIndex x y false z ≠ 0b1110 ∧ detectorIndex x y false z ≠ 0b1011 := by decide
  obtain ⟨hstart, hstop⟩ := hclass e.prevScl e.prevSda sda
  simp only [eeSampleAction, if_neg hstart, if_neg hstop, Bool.false_eq_true, and_false, if_false]

/-- A rising clock is a slot (R127). -/
theorem eeSampleAction_rise (c : Config) (sda : Bool) {e : EE} (h : e.prevScl = false) :
    eeSampleAction c true sda e = eeRisingEdge c sda e := by
  have hclass : ∀ y z : Bool, detectorIndex false y true z ≠ 0b1110 ∧ detectorIndex false y true z ≠ 0b1011 := by decide
  obtain ⟨hstart, hstop⟩ := hclass e.prevSda sda
  simp only [eeSampleAction, h, if_neg hstart, if_neg hstop, and_self, if_true]

/-- What a sample at a low clock leaves: the flag cleared, the lines latched (R102, R103). -/
def eeAtLow (sda : Bool) (e : EE) : EE := { e with newData := false, prevScl := false, prevSda := sda }

theorem exec_sample_low {s : State} (hl : s.ee.live) (sda : Bool) :
    exec (.sample true sda false) s = .next (s.withEe (eeAtLow sda s.ee)) :=
  onEe_ok hl (by simp only [eeWrite, eeSampleAction_low]; rfl)

/-- A sample whose clock rises runs the slot of R127, with the flag already clear. -/
theorem exec_sample_rise {s : State} (hl : s.ee.live) {sda : Bool} {e : EE} (hscl : s.ee.prevScl = false)
    (hflag : s.ee.newData = false) (h : eeRisingEdge s.config sda s.ee = .ok e) :
    exec (.sample true sda true) s = .next (s.withEe (eeLatchLines true sda e)) := by
  have hclear : eeClearNewData s.ee = s.ee := by rw [eeClearNewData, ← hflag]
  have hact : eeSampleAction s.config true sda (eeDefaultOut true (eeClearNewData s.ee)) = .ok e := by
    rw [hclear]; exact (eeSampleAction_rise s.config sda hscl).trans h
  exact onEe_ok hl (by simp only [eeWrite, hact])

/-- The lines and the checks' registers stand as they were. -/
abbrev EE.keepsLines (e e' : EE) : Prop :=
  e'.prevScl = e.prevScl ∧ e'.prevSda = e.prevSda ∧ e'.fault = e.fault ∧ e'.configured = e.configured

theorem eeFinalise_keepsLines (c : Config) (b : Byte) (e : EE) : e.keepsLines (eeFinalise c b e) := by
  unfold eeFinalise
  cases e.st with
  | standby => exact ⟨rfl, rfl, rfl, rfl⟩
  | control => dsimp only; split_ifs <;> exact ⟨rfl, rfl, rfl, rfl⟩
  | address => exact ⟨rfl, rfl, rfl, rfl⟩
  | data => dsimp only; split_ifs <;> exact ⟨rfl, rfl, rfl, rfl⟩

theorem eeShiftOutBit_keepsLines {e e' : EE} (h : eeShiftOutBit e = .ok e') : e.keepsLines e' := by
  unfold eeShiftOutBit at h
  split at h <;> cases h
  exact ⟨rfl, rfl, rfl, rfl⟩

theorem eeRisingEdge_keepsLines {c : Config} {sda : Bool} {e e' : EE} (h : eeRisingEdge c sda e = .ok e') :
    e.keepsLines e' := by
  unfold eeRisingEdge at h
  split_ifs at h
  · cases h; exact ⟨rfl, rfl, rfl, rfl⟩
  · exact eeShiftOutBit_keepsLines h
  · cases h; exact ⟨rfl, rfl, rfl, rfl⟩
  · cases h; exact ⟨rfl, rfl, rfl, rfl⟩
  · cases h; exact eeFinalise_keepsLines c e.shreg { e with bitCnt := 0 }

/-- A sample at a low clock that finds the flag clear leaves the lines it latches. -/
theorem eeAtLow_eeLatchLines {e : EE} (hscl : e.prevScl = false) (hflag : e.newData = false) (scl : Bool) :
    eeAtLow e.prevSda (eeLatchLines scl e.prevSda e) = e := by
  cases e; cases hscl; cases hflag; rfl

/-- The three samples of a slot are one rising edge, on the block with the lines of a low clock (R93, R127). -/
theorem execAll_slotSeq {s : State} (hl : s.ee.live) {bit : Bool} {e : EE}
    (h : eeRisingEdge s.config bit (eeAtLow bit s.ee) = .ok e) :
    execAll (slotSeq bit) s = .next (s.withEe e) := by
  obtain ⟨hscl, hsda, hfault, hconf⟩ := eeRisingEdge_keepsLines h
  obtain ⟨-, hflag⟩ := eeRisingEdge_keepsMemory h
  have hlast : eeAtLow bit (eeLatchLines true bit e) = e := by
    obtain rfl : e.prevSda = bit := hsda
    exact eeAtLow_eeLatchLines hscl hflag true
  have h₁ := exec_sample_low hl bit
  have h₂ : exec (.sample true bit true) (s.withEe (eeAtLow bit s.ee)) = .next (s.withEe (eeLatchLines true bit e)) :=
    exec_sample_rise (s := s.withEe (eeAtLow bit s.ee)) hl rfl rfl h
  have h₃ : exec (.sample true bit false) (s.withEe (eeLatchLines true bit e)) =
      .next (s.withEe (eeAtLow bit (eeLatchLines true bit e))) :=
    exec_sample_low (s := s.withEe (eeLatchLines true bit e)) ⟨hfault.trans hl.1, hconf.trans hl.2⟩ bit
  rw [slotSeq_eq, execAll_cons_of_next h₁, execAll_cons_of_next h₂, execAll_cons_of_next h₃, hlast, execAll]

/-! ### The nine slots of a write-direction frame -/

/-- The block takes bits from the host: a frame is running, and it is no read (R127). -/
abbrev EE.receiving (e : EE) : Prop := e.st ≠ .standby ∧ ¬(e.st = .data ∧ e.dir = .read)

theorem eeRisingEdge_receiving {e : EE} (h : e.receiving) (c : Config) (sda : Bool) :
    eeRisingEdge c sda e = .ok (if e.bitCnt < 8 then eeShiftInBit sda e else eeWriteAckSlot c e) := by
  obtain ⟨hst, hdir⟩ := h
  rw [eeRisingEdge, if_neg hst, if_neg hdir, apply_ite Except.ok]

/-- The block after a slot that shifts a bit in. -/
def eeSlotIn (e : EE) (bit : Bool) : EE := eeShiftInBit bit (eeAtLow bit e)

/-- Slots 1 to 8, as many as are left of them, shift their bits in (R129). -/
theorem execAll_slotsIn (bits : List Bool) {s : State} (hl : s.ee.live) (hr : s.ee.receiving)
    (hn : s.ee.bitCnt + bits.length ≤ 8) :
    execAll (bits.flatMap slotSeq) s = .next (s.withEe (bits.foldl eeSlotIn s.ee)) := by
  induction bits generalizing s with
  | nil => rfl
  | cons bit bits ih =>
    rw [List.length_cons] at hn
    have hslot : s.ee.bitCnt < 8 := by omega
    have hedge : eeRisingEdge s.config bit (eeAtLow bit s.ee) = .ok (eeSlotIn s.ee bit) :=
      (eeRisingEdge_receiving (e := eeAtLow bit s.ee) hr s.config bit).trans (congrArg Except.ok (if_pos hslot))
    have hcount : (eeSlotIn s.ee bit).bitCnt + bits.length ≤ 8 := by
      change s.ee.bitCnt + 1 + bits.length ≤ 8
      omega
    rw [List.flatMap_cons, execAll_append_of_next (execAll_slotSeq hl hedge)]
    exact ih (s := s.withEe (eeSlotIn s.ee bit)) hl hr hcount

theorem getLsbD_shiftInBit (r : Byte) (bit : Bool) (i : Nat) :
    (shiftInBit r bit).getLsbD i = if i = 0 then bit else decide (i < 8) && r.getLsbD (i - 1) := by
  cases i <;> simp [shiftInBit]

/-- Eight bits, bit 7 first, replace the register (R129). -/
theorem foldl_shiftInBit_bitsMsbFirst (r b : Byte) : (bitsMsbFirst b).foldl shiftInBit r = b := by
  apply BitVec.eq_of_getLsbD_eq
  intro i hi
  simp only [bitsMsbFirst, List.map_cons, List.map_nil, List.foldl_cons, List.foldl_nil, getLsbD_shiftInBit]
  interval_cases i <;> rfl

/-- The block that slot 9 of b finds: b in the register, whatever it held, and the line released (R93, R130). -/
def eeReceived (b : Byte) (e : EE) : EE :=
  { e with shreg := b, bitCnt := 8, newData := false, out := true, prevScl := false, prevSda := true }

theorem eeAtLow_foldl_eeSlotIn {e : EE} (h : e.bitCnt = 0) (b : Byte) :
    eeAtLow true ((bitsMsbFirst b).foldl eeSlotIn e) = eeReceived b e := by
  have hreg := foldl_shiftInBit_bitsMsbFirst e.shreg b
  simp only [bitsMsbFirst, List.map_cons, List.map_nil, List.foldl_cons, List.foldl_nil] at hreg ⊢
  simp only [eeSlotIn, eeShiftInBit, eeRelease, eeAtLow, eeReceived, hreg, h, Nat.reduceAdd]

/-- Settles O44: eight slots shift b in, and the ninth, its clock raised on the released line, is the slot 9. -/
theorem transmittedByteIsFinalised : Obligations.TransmittedByteIsFinalised := by
  intro s b hl hst hdir hcnt
  have hbits := execAll_slotsIn (bitsMsbFirst b) hl ⟨hst, hdir⟩ (by rw [hcnt]; rfl)
  have hlow := eeAtLow_foldl_eeSlotIn hcnt b
  generalize (bitsMsbFirst b).foldl eeSlotIn s.ee = e at hbits hlow
  have hlive : e.live := ⟨(congrArg EE.fault hlow).trans hl.1, (congrArg EE.configured hlow).trans hl.2⟩
  have hedge : eeRisingEdge s.config true (eeAtLow true e) = .ok (eeWriteAckSlot s.config (eeReceived b s.ee)) := by
    rw [hlow, eeRisingEdge_receiving (e := eeReceived b s.ee) ⟨hst, hdir⟩]
    rfl
  have hack : exec .eeWackSlot (s.withEe (eeReceived b s.ee)) =
      .next (s.withEe (eeWriteAckSlot s.config (eeReceived b s.ee))) :=
    onEe_ok (act := fun e => .ok (eeWriteAckSlot s.config e)) (s := s.withEe (eeReceived b s.ee)) hl rfl
  rw [txSeq, execAll_append_of_next hbits, execAll_slotSeq (s := s.withEe e) hlive hedge, withEe_withEe]
  exact hack.symm

end Sys2Proof.Machine

/-! # EE: the host interface (40_eeprom_interface.md) -/

/-! ## EE.Configure (R99, R100) -/

namespace Sys2Proof.Machine

/-- Whatever the operands, a block that has faulted is stuck (R187). -/
theorem execEcfg_stuck {s : State} {r : ModelFault} (h : s.ee.fault = some r) (size pageSize : Nat)
    (mode : Option DevMode) : execEcfg size pageSize mode s = .fault (.eeStuck r) := by
  simp only [execEcfg, eeUnlessStuck, h]

section
variable {s : State} {size pageSize : Nat} (hf : s.ee.fault = none)
include hf

theorem execEcfg_raises {mode : Option DevMode} {r : ModelFault}
    (h : eeConfigureFault s.config size pageSize mode (eeBuffer s) = some r) :
    execEcfg size pageSize mode s = .next (setFault .ee r s) := by
  simp only [execEcfg, eeUnlessStuck, hf, h, raiseModelFault]

theorem execEcfg_configures {m : DevMode}
    (h : eeConfigureFault s.config size pageSize (some m) (eeBuffer s) = none) :
    execEcfg size pageSize (some m) s =
      .next (s.takeEeOffer.withEe (eeConfigured size pageSize m (eeBuffer s) s.ee)) := by
  simp only [execEcfg, eeUnlessStuck, hf, h]

end

/-! ### The contract: the first check of R99 that fails gives the reason -/

section
variable {c : Config} {size pageSize : Nat} {mode : Option DevMode} {buf : Memory}

theorem eeConfigureFault_of_not_isSize (h : isSize size = false) :
    eeConfigureFault c size pageSize mode buf = some .eeSizeNotPow2 :=
  if_pos h

variable (hs : isSize size = true)
include hs

theorem eeConfigureFault_of_not_isPageSize (h : isPageSize pageSize = false) :
    eeConfigureFault c size pageSize mode buf = some .eePageSize := by
  simp [eeConfigureFault, hs, h]

variable (hp : isPageSize pageSize = true)
include hp

theorem eeConfigureFault_of_size_lt_pageSize (h : size < pageSize) :
    eeConfigureFault c size pageSize mode buf = some .eePageGtSize := by
  simp [eeConfigureFault, hs, hp, h]

variable (hle : pageSize ≤ size)
include hle

theorem eeConfigureFault_of_no_mode : eeConfigureFault c size pageSize none buf = some .eeMode := by
  simp [eeConfigureFault, hs, hp, hle.not_gt]

theorem eeConfigureFault_of_small_detect (h : size < 128) :
    eeConfigureFault c size pageSize (some .detectNoDeviceByte) buf = some .eeDetectSmall := by
  simp [eeConfigureFault, hs, hp, hle.not_gt, h]

variable {m : DevMode} (hd : ¬(m = .detectNoDeviceByte ∧ size < 128))
include hd

theorem eeConfigureFault_of_len_ne (h : buf.len ≠ size) :
    eeConfigureFault c size pageSize (some m) buf = some .bufferSize := by
  simp [eeConfigureFault, hs, hp, hle.not_gt, hd, h]

variable (hb : buf.len = size)
include hb

theorem eeConfigureFault_of_limit_lt {n : Nat} (hn : c.eeMaxSize = some n) (h : n < size) :
    eeConfigureFault c size pageSize (some m) buf = some .eeSizeLimit := by
  simp [eeConfigureFault, hs, hp, hle.not_gt, hd, hb, hn, h]

theorem eeConfigureFault_of_contract (h : ∀ n, c.eeMaxSize = some n → size ≤ n) :
    eeConfigureFault c size pageSize (some m) buf = none := by
  cases hn : c.eeMaxSize with
  | none => simp [eeConfigureFault, hs, hp, hle.not_gt, hd, hb, hn]
  | some n => simp [eeConfigureFault, hs, hp, hle.not_gt, hd, hb, hn, (h n hn).not_gt]

end

theorem isPageSize_iff_mem (p : Nat) : isPageSize p = true ↔ p ∈ [2, 4, 8, 16] := by
  simp [isPageSize_iff]

theorem eeConfigured_pbuf (size pageSize : Nat) (m : DevMode) (buf : Memory) (e : EE) (i : Fin 16) :
    (eeConfigured size pageSize m buf e).pbuf[i] = Config.eePbufReset (e.draws + 2 + i) := by
  simp [eeConfigured]

/-- Settles O13, by the first check that fails, else by the registers of R99. -/
theorem eeConfigureFollowsItsContract : Obligations.EeConfigureFollowsItsContract := by
  intro s size pageSize mode raised buf
  refine ⟨fun r hr => execEcfg_stuck hr size pageSize mode, fun hf => ?_⟩
  have hraise {r : ModelFault} (h : eeConfigureFault s.config size pageSize mode buf = some r) : raised r :=
    execEcfg_raises hf h
  simp only [← isSize_iff, ← isPageSize_iff_mem, Bool.not_eq_true]
  refine ⟨fun hs => hraise (eeConfigureFault_of_not_isSize hs), fun hs =>
    ⟨fun hp => hraise (eeConfigureFault_of_not_isPageSize hs hp), fun hp =>
      ⟨fun hlt => hraise (eeConfigureFault_of_size_lt_pageSize hs hp hlt), ?_, ?_⟩⟩⟩
  · rintro hle rfl
    exact hraise (eeConfigureFault_of_no_mode hs hp hle)
  · rintro m hle rfl
    refine ⟨?_, fun hdetect => ?_⟩
    · rintro rfl hsmall
      exact hraise (eeConfigureFault_of_small_detect hs hp hle hsmall)
    · have hd : ¬(m = .detectNoDeviceByte ∧ size < 128) := fun ⟨hm, hlt⟩ => hlt.not_ge (hdetect hm)
      refine ⟨fun hb => hraise (eeConfigureFault_of_len_ne hs hp hle hd hb),
        fun hb n hn hlt => hraise (eeConfigureFault_of_limit_lt hs hp hle hd hb hn hlt), fun hb hmax => ?_⟩
      have hnone := eeConfigureFault_of_contract hs hp hle hd hb hmax
      exact ⟨eeConfigured size pageSize m buf s.ee, execEcfg_configures hf hnone, rfl, rfl, rfl, rfl, rfl, rfl, rfl,
        rfl, rfl, rfl, rfl, rfl, rfl, rfl, eeConfigured_pbuf size pageSize m buf s.ee, rfl, rfl, rfl, rfl, rfl, rfl,
        rfl⟩

end Sys2Proof.Machine

/-! ## EE.Write (R101 to R104) -/

namespace Sys2Proof.Machine

/-- An action that stops, on a live block. -/
theorem onEe_error {s : State} {act : EE → Except Fault EE} {x : Fault} (h : s.ee.live) (ha : act s.ee = .error x) :
    onEe s act = .fault x := by
  rw [onEe, eeReady_live h, ha]

/-- What an action does depends on the block it is run on only. -/
theorem onEe_congr {s : State} {act act' : EE → Except Fault EE} (h : act s.ee = act' s.ee) :
    onEe s act = onEe s act' := by
  rw [onEe, onEe, h]

/-- The data line falls at a high clock: a Start (R111, R113). -/
theorem eeSampleAction_start (c : Config) {e : EE} (hscl : e.prevScl = true) (hsda : e.prevSda = true) :
    eeSampleAction c true false e = .ok (eeStartCond e) := by
  rw [eeSampleAction, hscl, hsda]
  rfl

/-- The data line rises at a high clock: a Stop (R111, R114). -/
theorem eeSampleAction_stop (c : Config) {e : EE} (hscl : e.prevScl = true) (hsda : e.prevSda = false) :
    eeSampleAction c true true e = eeStopCond e := by
  rw [eeSampleAction, hscl, hsda]
  rfl

/-- Both lines are held at a high clock: no action (R112). -/
theorem eeSampleAction_hold (c : Config) {sda : Bool} {e : EE} (hscl : e.prevScl = true) (hsda : e.prevSda = sda) :
    eeSampleAction c true sda e = .ok e := by
  rw [eeSampleAction, hscl, hsda]
  cases sda <;> rfl

/-- The row of the detector index runs the action of the sample's class (R101, R111). -/
theorem exec_decodeDetector (s : State) (scl sda : Bool) :
    exec (decodeDetector (detectorIndex s.ee.prevScl s.ee.prevSda scl sda)) s =
      onEe s (eeSampleAction s.config scl sda) := by
  obtain ⟨-, hstart, hstop, hrise, hholdLow, hholdHigh, hlow⟩ := detectorRowsPartitionTheIndex
  cases scl with
  | false =>
    rw [hlow]
    exact onEe_congr (eeSampleAction_low s.config sda s.ee).symm
  | true =>
    cases hscl : s.ee.prevScl with
    | false =>
      rw [hrise]
      exact onEe_congr (eeSampleAction_rise s.config sda hscl).symm
    | true =>
      cases hsda : s.ee.prevSda <;> cases sda
      case false.false => rw [hholdLow]; exact onEe_congr (eeSampleAction_hold s.config hscl hsda).symm
      case false.true => rw [hstop]; exact onEe_congr (eeSampleAction_stop s.config hscl hsda).symm
      case true.false =>
        rw [hstart]
        exact onEe_congr (act := fun e => .ok (eeStartCond e)) (eeSampleAction_start s.config hscl hsda).symm
      case true.true => rw [hholdHigh]; exact onEe_congr (eeSampleAction_hold s.config hscl hsda).symm

/-- Settles O19: what precedes the row is the block it is run on, and the lines are latched on the block it leaves. -/
theorem sampleRunsItsDetectorRow : Obligations.SampleRunsItsDetectorRow := by
  intro s we sda scl hl
  have hpre : { s.ee with newData := false, out := if we then s.ee.out else true } =
      eeDefaultOut we (eeClearNewData s.ee) := by cases we <;> rfl
  rw [hpre]
  generalize hd : eeDefaultOut we (eeClearNewData s.ee) = d
  have hlines : s.ee.prevScl = d.prevScl ∧ s.ee.prevSda = d.prevSda ∧ d.live := by
    subst hd; cases we <;> exact ⟨rfl, rfl, hl⟩
  obtain ⟨hscl, hsda, hlive⟩ := hlines
  have hrow := exec_decodeDetector (s.withEe d) scl sda
  rw [withEe_ee, withEe_config] at hrow
  rw [hscl, hsda, hrow]
  cases hact : eeSampleAction s.config scl sda d with
  | ok e =>
    rw [onEe_ok (s := s.withEe d) hlive hact]
    exact onEe_ok (act := eeWrite s.config we sda scl) hl (by rw [eeWrite, hd, hact]; rfl)
  | error x =>
    rw [onEe_error (s := s.withEe d) hlive hact]
    exact onEe_error (act := eeWrite s.config we sda scl) hl (by rw [eeWrite, hd, hact])

end Sys2Proof.Machine

/-! ## The checks before an operation, and the queries (R106 to R109, R160) -/

namespace Sys2Proof.Machine

/-- The check of block b that every operation but its Configure begins with (R109, R160). -/
def blockReady : Block → State → Answer → Answer
  | .ee => eeReady
  | .fl => flReady

/-- Every row but the two Configures is under the check of its block. -/
theorem exec_blockReady {i : Instr} (h : isConfigure i = false) (s : State) :
    ∃ k, exec i s = blockReady (blockOf i) s k := by
  cases i with
  | ecfg | fcfg => cases h
  | _ => exact ⟨_, rfl⟩

/-- Settles O15, by the check of the row's block. -/
theorem unconfiguredBlockRaisesNotConfigured : Obligations.UnconfiguredBlockRaisesNotConfigured := by
  intro s i hi
  obtain ⟨k, hk⟩ := exec_blockReady hi s
  rw [hk]
  refine ⟨fun hb hfault hconf => ?_, fun hb hfault hconf => ?_⟩
  · rw [hb]; exact eeReady_unconfigured hfault hconf k
  · rw [hb]; exact flReady_unconfigured hfault hconf k

/-- Settles O18: a query of a live block passes the check. -/
theorem eeQueriesReturnTheirRegister : Obligations.EeQueriesReturnTheirRegister := fun _ hl =>
  ⟨eeReady_live hl _, eeReady_live hl _, eeReady_live hl _⟩

end Sys2Proof.Machine

/-! # EE: the conditions of a sample (41_eeprom_conditions.md)

An EE.Write is its preparation (R102, R104), the action of the sample's class (R111), and the lines (R103). What the
action leaves is said once per class: Start, Stop, no condition, and, at a rising clock, slot 9 or another slot. -/

/-! ## The Start and Stop actions (R113, R114) -/

namespace Sys2Proof.Machine

/-- Settles O22: the Start action answers on every block. -/
theorem startEntersTheFirstFrame : Obligations.StartEntersTheFirstFrame :=
  fun _ hl => onEe_ok (act := fun e => .ok (eeStartCond e)) hl rfl

/-- A Stop with nothing to commit (R114, R121). -/
theorem eeStopCond_of_not_commitDue {e : EE} (h : ¬e.commitDue) :
    eeStopCond e = .ok (eeRelease (eeEmptyPage { e with st := .standby, bitCnt := 0 })) := by
  rw [eeStopCond, eeCommitIfDue, if_neg h]

/-- With or without a commit, a Stop that answers has ended the transaction (R114). -/
theorem eeStopCond_st {e e' : EE} (h : eeStopCond e = .ok e') : e'.st = .standby := by
  unfold eeStopCond at h
  split at h <;> cases h
  rfl

/-- Settles O23: each of the three cases denies the condition of the commit. -/
theorem stopWithoutPageDataOnlyReturnsToStandby : Obligations.StopWithoutPageDataOnlyReturnsToStandby := by
  intro s hl hempty
  have hdue : ¬s.ee.commitDue := by
    rintro ⟨hst, hdir, hpcnt⟩
    obtain h | h | h := hempty
    · exact h hst
    · exact h hdir
    · exact hpcnt.ne' h
  exact onEe_ok hl (eeStopCond_of_not_commitDue hdue)

end Sys2Proof.Machine

/-! ## Samples without a condition (R112, R116) -/

namespace Sys2Proof.Machine

/-- The block that the action of a sample finds: the flag cleared, the output at its default (R102, R104). -/
def eePrepared (we : Bool) (e : EE) : EE := { e with newData := false, out := if we then e.out else true }

theorem eeDefaultOut_eeClearNewData (we : Bool) (e : EE) : eeDefaultOut we (eeClearNewData e) = eePrepared we e := by
  cases we <;> rfl

/-- An EE.Write that answers is its action on the prepared block, with the lines latched on what the action leaves
(R101). -/
theorem eeWrite_eq_ok_iff {c : Config} {we sda scl : Bool} {e e' : EE} :
    eeWrite c we sda scl e = .ok e' ↔
      ∃ e₁, eeSampleAction c scl sda (eePrepared we e) = .ok e₁ ∧ eeLatchLines scl sda e₁ = e' := by
  rw [eeWrite, eeDefaultOut_eeClearNewData]
  cases eeSampleAction c scl sda (eePrepared we e) <;> simp

/-- In STANDBY a rising clock is no slot (R116). -/
theorem eeRisingEdge_standby (c : Config) (sda : Bool) {e : EE} (h : e.st = .standby) :
    eeRisingEdge c sda e = .ok e :=
  if_pos h

/-- Settles O20: at a low clock, at a held line and in STANDBY the action leaves the prepared block. -/
theorem sampleWithoutConditionOnlyUpdatesTheLines : Obligations.SampleWithoutConditionOnlyUpdatesTheLines := by
  intro s hl
  have hnone : onEe s (fun e => .ok e) = .next s := onEe_ok hl rfl
  refine ⟨hnone, hnone, fun _ _ _ => hnone, fun we sda scl hclass => ?_⟩
  have hact : eeSampleAction s.config scl sda (eePrepared we s.ee) = .ok (eePrepared we s.ee) := by
    obtain rfl | ⟨hscl, rfl, hsda⟩ | ⟨hscl, rfl, hst⟩ := hclass
    · exact eeSampleAction_low s.config sda _
    · exact eeSampleAction_hold s.config hscl hsda.symm
    · exact (eeSampleAction_rise (e := eePrepared we s.ee) s.config sda hscl).trans
        (eeRisingEdge_standby s.config sda hst)
  exact onEe_ok (act := eeWrite s.config we sda scl) hl (eeWrite_eq_ok_iff.2 ⟨_, hact, rfl⟩)

end Sys2Proof.Machine

/-! ## The protocol state (R122) -/

namespace Sys2Proof.Machine

/-! ### The byte rows, one equation per row (R134) -/

section
variable (c : Config) {b : Byte} {e : EE}

theorem eeFinalise_controlMatch (hst : e.st = .control) (hsel : selOf b = c.select7) :
    eeFinalise c b e = eeControlMatch c (rwOf b) e := by
  simp only [eeFinalise, hst, if_pos hsel]

theorem eeFinalise_controlMismatch (hst : e.st = .control) (hsel : selOf b ≠ c.select7)
    (hmode : e.devMode ≠ .detectNoDeviceByte) : eeFinalise c b e = eeControlMismatch e := by
  simp only [eeFinalise, hst, if_neg hsel, if_neg hmode]

theorem eeFinalise_detect (hst : e.st = .control) (hsel : selOf b ≠ c.select7)
    (hmode : e.devMode = .detectNoDeviceByte) : eeFinalise c b e = eeDetectNoDevice c b e := by
  simp only [eeFinalise, hst, if_neg hsel, if_pos hmode]

theorem eeFinalise_address (hst : e.st = .address) : eeFinalise c b e = eeLatchAddress c b e := by
  simp only [eeFinalise, hst]

theorem eeFinalise_data (hst : e.st = .data) :
    eeFinalise c b e = if e.pageSize = 2 ∧ e.pcnt = 2 then eeQuirk e else eeBufferData b e := by
  simp only [eeFinalise, hst]

end

/-! ### Slot 9 of a write-direction frame, and the samples that keep the state -/

/-- The sample is a slot 9 that finalises a byte, where a frame is running (R122, R130). -/
abbrev EE.finalisesAt (e : EE) (scl : Bool) : Prop :=
  e.prevScl = false ∧ scl = true ∧ 8 ≤ e.bitCnt ∧ ¬(e.st = .data ∧ e.dir = .read)

theorem eeSampleAction_finalise (c : Config) {scl : Bool} (sda : Bool) {e : EE} (h : e.finalisesAt scl)
    (hst : e.st ≠ .standby) : eeSampleAction c scl sda e = .ok (eeWriteAckSlot c e) := by
  obtain ⟨hscl, rfl, hnine, hdir⟩ := h
  rw [eeSampleAction_rise c sda hscl, eeRisingEdge_receiving ⟨hst, hdir⟩, if_neg hnine.not_gt]

theorem eeShiftOutBit_st {e e' : EE} (h : eeShiftOutBit e = .ok e') : e'.st = e.st := by
  unfold eeShiftOutBit at h
  split at h <;> cases h
  rfl

/-- Every slot but the 9 of a write-direction frame keeps the state. -/
theorem eeRisingEdge_st {c : Config} {sda : Bool} {e e' : EE} (h : eeRisingEdge c sda e = .ok e')
    (hslot : 8 ≤ e.bitCnt → ¬(e.st = .data ∧ e.dir = .read) → e.st = .standby) : e'.st = e.st := by
  unfold eeRisingEdge at h
  split_ifs at h with hst hread hearly hearly
  · cases h; rfl
  · exact eeShiftOutBit_st h
  · cases h; rfl
  · cases h; rfl
  · exact absurd (hslot (not_lt.1 hearly) hread) hst

/-- The index of a Start (R111): the data line falls while the clock is high. -/
theorem detectorIndex_eq_start_iff (prevScl prevSda scl sda : Bool) :
    detectorIndex prevScl prevSda scl sda = 0b1110 ↔
      prevScl = true ∧ prevSda = true ∧ scl = true ∧ sda = false := by
  decide +revert

/-- Without a condition and without a byte to finalise, a sample keeps the state. -/
theorem eeSampleAction_st {c : Config} {scl sda : Bool} {e e' : EE} (h : eeSampleAction c scl sda e = .ok e')
    (hstart : detectorIndex e.prevScl e.prevSda scl sda ≠ 0b1110)
    (hstop : detectorIndex e.prevScl e.prevSda scl sda ≠ 0b1011)
    (hslot : e.finalisesAt scl → e.st = .standby) : e'.st = e.st := by
  simp only [eeSampleAction, if_neg hstart, if_neg hstop] at h
  split_ifs at h with hrise
  · obtain ⟨hscl, hhigh⟩ := hrise
    exact eeRisingEdge_st h fun hnine hdir => hslot ⟨hscl, hhigh, hnine, hdir⟩
  · cases h; rfl

/-- Settles O26, by the action of the sample's class on the prepared block, whose registers but the flag and the output
are those of the block before: a condition, the byte row of a slot 9, or one that keeps the state. -/
theorem protocolStateFollowsTheTable : Obligations.ProtocolStateFollowsTheTable := by
  intro s t we sda scl hl ht k start stop slot9 selected
  obtain ⟨_, he, rfl⟩ := onEe_next_of_live (act := eeWrite s.config we sda scl) hl ht
  obtain ⟨e, hact, rfl⟩ := eeWrite_eq_ok_iff.1 he
  have hbyte {st : EeState} {e₁ : EE} (h9 : slot9) (hst : s.ee.st = st) (hne : st ≠ .standby)
      (hrow : eeFinalise s.config s.ee.shreg { eePrepared we s.ee with bitCnt := 0 } = e₁) : e = e₁ := by
    have hslot := eeSampleAction_finalise s.config sda (e := eePrepared we s.ee) h9 (hst.trans_ne hne)
    exact (Except.ok.inj (hact.symm.trans hslot)).trans hrow
  refine ⟨?start, ?stop, ?controlMatch, ?controlMismatch, ?detect, ?address, ?data, ?kept⟩
  case start =>
    intro hk
    obtain ⟨hscl, hsda, rfl, rfl⟩ := (detectorIndex_eq_start_iff _ _ _ _).1 hk
    rw [eeSampleAction_start s.config (e := eePrepared we s.ee) hscl hsda] at hact
    cases hact; rfl
  case stop =>
    intro hk
    obtain ⟨hscl, hsda, rfl, rfl⟩ := (detectorIndex_eq_stop_iff _ _ _ _).1 hk
    rw [eeSampleAction_stop s.config (e := eePrepared we s.ee) hscl hsda] at hact
    exact eeStopCond_st (e' := e) hact
  case controlMatch =>
    intro h9 hst hsel
    rw [hbyte h9 hst (by decide) (eeFinalise_controlMatch s.config hst hsel)]; rfl
  case controlMismatch =>
    intro h9 hst hsel hmode
    rw [hbyte h9 hst (by decide) (eeFinalise_controlMismatch s.config hst hsel hmode)]; rfl
  case detect =>
    intro h9 hst hsel hmode
    rw [hbyte h9 hst (by decide) (eeFinalise_detect s.config hst hsel hmode)]; exact ⟨rfl, rfl⟩
  case address =>
    intro h9 hst
    rw [hbyte h9 hst (by decide) (eeFinalise_address s.config hst)]; rfl
  case data =>
    intro h9 hst
    rw [hbyte h9 hst (by decide) (eeFinalise_data s.config hst), ← hst]
    exact apply_ite EE.st _ _ _
  case kept =>
    intro hstart hstop hslot
    exact eeSampleAction_st (e := eePrepared we s.ee) (e' := e) hact hstart hstop hslot

end Sys2Proof.Machine

/-! # EE: the slots, the bytes and the commit (42_eeprom_bytes.md)

A slot is one function of the block, and on a block that meets the invariant each of them answers. A read frame is the
read slot iterated, a write transaction the buffering of a byte folded over what was sent, and the Stop stores the page
buffer: what these leave is said in closed form, from which the frame laws follow. -/

/-! ## The slot rows (R127 to R133) -/

namespace Sys2Proof.Machine

section
variable (c : Config) (sda : Bool) {e : EE}

theorem eeRisingEdge_readSlot (hst : e.st = .data) (hdir : e.dir = .read) (hslot : e.bitCnt < 8) :
    eeRisingEdge c sda e = eeShiftOutBit e := by
  rw [eeRisingEdge, if_neg (by simp [hst]), if_pos ⟨hst, hdir⟩, if_pos hslot]

theorem eeRisingEdge_readAck (hst : e.st = .data) (hdir : e.dir = .read) (hnine : 8 ≤ e.bitCnt) :
    eeRisingEdge c sda e = .ok (eeReadAckSlot sda e) := by
  rw [eeRisingEdge, if_neg (by simp [hst]), if_pos ⟨hst, hdir⟩, if_neg hnine.not_gt]

end

/-- Settles O27: the rising edge and the slot row selected are one action of the block. -/
theorem risingEdgeRunsItsSlotRow : Obligations.RisingEdgeRunsItsSlotRow := by
  intro s prevSda sda hl
  refine ⟨fun hst => ?standby, fun hst hdir hslot => ?readSlot, fun hst hdir hnine => ?readAck,
    fun hst hdir hslot => ?writeSlot, fun hst hdir hnine => ?writeAck⟩
  case standby => exact onEe_ok hl (eeRisingEdge_standby s.config sda hst)
  case readSlot => exact onEe_congr (eeRisingEdge_readSlot s.config sda hst hdir hslot)
  case readAck =>
    exact onEe_congr (act' := fun e => .ok (eeReadAckSlot sda e)) (eeRisingEdge_readAck s.config sda hst hdir hnine)
  case writeSlot =>
    refine onEe_congr (act' := fun e => .ok (eeShiftInBit sda e)) ?_
    rw [eeRisingEdge_receiving ⟨hst, hdir⟩, if_pos hslot]
  case writeAck =>
    refine onEe_congr (act' := fun e => .ok (eeWriteAckSlot s.config e)) ?_
    rw [eeRisingEdge_receiving ⟨hst, hdir⟩, if_neg hnine.not_gt]

/-- Only the load of slot 1 could stop a rising edge, and the invariant has its byte (R57, R131). -/
theorem eeRisingEdge_isOk {e : EE} (h : e.Inv) (hc : e.configured = true) (c : Config) (sda : Bool) :
    ∃ e', eeRisingEdge c sda e = .ok e' := by
  unfold eeRisingEdge
  split_ifs
  · exact ⟨_, rfl⟩
  · exact ⟨_, eeShiftOutBit_spec h hc⟩
  · exact ⟨_, rfl⟩
  · exact ⟨_, rfl⟩
  · exact ⟨_, rfl⟩

/-- Settles O60: the edge answers, and keeps memory, its flag, the lines and the checks' registers. -/
theorem risingEdgeCompletes : Obligations.RisingEdgeCompletes := by
  intro s prevSda sda ⟨hee, _⟩ hl
  obtain ⟨e, he⟩ := eeRisingEdge_isOk hee hl.2 s.config sda
  obtain ⟨hmem, hflag⟩ := eeRisingEdge_keepsMemory he
  obtain ⟨hscl, hsda, hfault, hconf⟩ := eeRisingEdge_keepsLines he
  exact ⟨e, onEe_ok hl he, ⟨hfault.trans hl.1, hconf.trans hl.2⟩, hmem, hflag, hscl, hsda⟩

/-- A shift to the left that takes a bit in doubles the register and adds the bit, modulo its width (R83). -/
theorem toNat_shiftInBit (r : Byte) (bit : Bool) : (shiftInBit r bit).toNat = (2 * r.toNat + bit.toNat) % 256 := by
  have hor : shiftInBit r bit = r <<< 1 + (BitVec.ofBool bit).setWidth 8 := by
    refine (BitVec.add_eq_or_of_and_eq_zero _ _ ?_).symm
    apply BitVec.eq_of_getLsbD_eq
    intro i _
    cases i <;> simp
  have hbit : ((BitVec.ofBool bit).setWidth 8).toNat = bit.toNat := by cases bit <;> rfl
  rw [hor, BitVec.toNat_add, BitVec.toNat_shiftLeft, hbit, Nat.shiftLeft_eq]
  omega

/-- Settles O28. -/
theorem shiftInTakesOneBit : Obligations.ShiftInTakesOneBit := fun s sda hl =>
  ⟨shiftInBit s.ee.shreg sda, toNat_shiftInBit s.ee.shreg sda,
    onEe_ok (act := fun e => .ok (eeShiftInBit sda e)) hl rfl⟩

/-- The byte that a read slot sends the top bit of: slot 1 loads it (R131, R132). -/
def EE.outgoing (e : EE) : Byte := if e.bitCnt = 0 then e.mem.get e.addr else e.shreg

/-- The block after a read slot (R131). -/
def eeSlotOut (e : EE) : EE :=
  { e with out := e.outgoing.getLsbD 7, shreg := e.outgoing <<< 1, bitCnt := e.bitCnt + 1 }

theorem exec_eeShiftOut {s : State} (h : s.ee.Inv) (hl : s.ee.live) :
    exec .eeShiftOut s = .next (s.withEe (eeSlotOut s.ee)) :=
  onEe_ok hl (eeShiftOutBit_spec h hl.2)

/-- Settles O29: at slot 1 the outgoing byte is the addressed one, and after it the register. -/
theorem shiftOutDrivesOneBit : Obligations.ShiftOutDrivesOneBit := by
  intro s ⟨hee, _⟩ hl
  refine ⟨s.ee.outgoing, fun hload => ?_, fun hsend => if_neg hsend, exec_eeShiftOut hee hl⟩
  rw [EE.outgoing, if_pos hload]
  exact memRead_some (EE.addr_in_bounds hee hl.2)

theorem exec_eeRackSlot {s : State} (hl : s.ee.live) (sda : Bool) :
    exec (.eeRackSlot sda) s = .next (s.withEe (eeReadAckSlot sda s.ee)) :=
  onEe_ok (act := fun e => .ok (eeReadAckSlot sda e)) hl rfl

/-- Settles O30. -/
theorem readAckSlotAdvancesOnAck : Obligations.ReadAckSlotAdvancesOnAck := fun _ hl =>
  ⟨exec_eeRackSlot hl false, exec_eeRackSlot hl true⟩

end Sys2Proof.Machine

/-! ## The byte rows (R134 to R141) -/

namespace Sys2Proof.Machine

theorem exec_eeWackSlot {s : State} (hl : s.ee.live) :
    exec .eeWackSlot s = .next (s.withEe (eeFinalise s.config s.ee.shreg { s.ee with bitCnt := 0 })) :=
  onEe_ok (act := fun e => .ok (eeWriteAckSlot s.config e)) hl rfl

/-- Settles O31: the byte that slot 9 finalises is finalised by the row of R134 that holds. -/
theorem writeAckSlotRunsItsByteRow : Obligations.WriteAckSlotRunsItsByteRow := by
  intro s hl b s0
  have hrow {i : Instr} {act : EE → EE} (hi : exec i s0 = onEe s0 fun e => .ok (act e))
      (hfin : eeFinalise s.config b s0.ee = act s0.ee) : exec .eeWackSlot s = exec i s0 := by
    rw [exec_eeWackSlot hl, hi, onEe_ok (s := s0) (act := fun e => .ok (act e)) hl rfl, ← hfin]
    rfl
  refine ⟨fun hst hsel => ?controlMatch, fun hst hsel hmode => ?detect, fun hst hsel hmode => ?controlMismatch,
    fun hst => ?address, fun hst hsize hcnt => ?quirk, fun hst hroom => ?data⟩
  case controlMatch =>
    exact hrow (act := eeControlMatch s.config (rwOf b)) rfl (eeFinalise_controlMatch s.config (e := s0.ee) hst hsel)
  case detect =>
    exact hrow (act := eeDetectNoDevice s.config b) rfl (eeFinalise_detect s.config (e := s0.ee) hst hsel hmode)
  case controlMismatch =>
    exact hrow (act := eeControlMismatch) rfl (eeFinalise_controlMismatch s.config (e := s0.ee) hst hsel hmode)
  case address =>
    exact hrow (act := eeLatchAddress s.config b) rfl (eeFinalise_address s.config (e := s0.ee) hst)
  case quirk =>
    exact hrow (act := eeQuirk) rfl ((eeFinalise_data s.config (e := s0.ee) hst).trans (if_pos ⟨hsize, hcnt⟩))
  case data =>
    exact hrow (act := eeBufferData b) rfl ((eeFinalise_data s.config (e := s0.ee) hst).trans (if_neg hroom))

/-- Settles O32. -/
theorem controlMatchSetsTheDirection : Obligations.ControlMatchSetsTheDirection := fun s rw hl =>
  onEe_ok (act := fun e => .ok (eeControlMatch s.config rw e)) hl rfl

/-- Settles O33. -/
theorem controlMismatchReturnsToStandby : Obligations.ControlMismatchReturnsToStandby := fun _ _ hl =>
  onEe_ok (act := fun e => .ok (eeControlMismatch e)) hl rfl

/-- Settles O34: under the mask of 128 bytes the byte is its own address modulo 128. -/
theorem detectionReprocessesTheByte : Obligations.DetectionReprocessesTheByte := by
  intro s b hl
  have haddr : addressOf b 127 = b.toNat % 128 := and_mask b.toNat 7
  rw [← haddr]
  exact onEe_ok (act := fun e => .ok (eeDetectNoDevice s.config b e)) hl rfl

/-- Settles O35. -/
theorem addressByteIsLatched : Obligations.AddressByteIsLatched := fun s b hl =>
  ⟨onEe_ok (act := fun e => .ok (eeLatchAddress s.config b e)) hl rfl, if_pos rfl⟩

theorem exec_eeDataWrite {s : State} (hl : s.ee.live) (b : Byte) :
    exec (.eeDataWrite b) s = .next (s.withEe (eeBufferData b s.ee)) :=
  onEe_ok (act := fun e => .ok (eeBufferData b e)) hl rfl

/-- Settles O37: with two bytes of a 2-byte page slot 9 is the abort, and with any other page it buffers the byte. -/
theorem thirdByteOfTwoBytePageAborts : Obligations.ThirdByteOfTwoBytePageAborts := by
  intro s hl
  refine ⟨fun b => onEe_ok (act := fun e => .ok (eeQuirk e)) hl rfl, fun hst hsize hcnt => ?abort,
    fun hst hsize => ?buffer⟩
  case abort =>
    rw [exec_eeWackSlot hl, eeFinalise_data s.config (e := { s.ee with bitCnt := 0 }) hst, if_pos ⟨hsize, hcnt⟩]
    rfl
  case buffer =>
    refine ⟨_, exec_eeWackSlot hl, ?_⟩
    rw [eeFinalise_data s.config (e := { s.ee with bitCnt := 0 }) hst, if_neg fun h => hsize h.1]
    exact ⟨hst, rfl⟩

/-- A cursor of the page is an entry of the buffer, and its successor counts modulo the page (R22, R32, R39). -/
theorem EE.cursor_spec {e : EE} (h : e.Inv) (hc : e.configured = true) :
    e.pcur < e.pageSize ∧ e.pageSize ≤ 16 ∧ ∀ n, n &&& e.pageMask = n % e.pageSize := by
  obtain ⟨hl, -, hcur, -⟩ := h.2 hc
  obtain ⟨p, -, -, -, hp4, -, -, hps, hpm, -⟩ := EE.legal_windows hl
  have hpos : 0 < 2 ^ p := Nat.two_pow_pos p
  have hle : 2 ^ p ≤ 2 ^ 4 := Nat.pow_le_pow_right (by decide) hp4
  rw [hpm] at hcur
  rw [hps, hpm]
  exact ⟨by omega, hle, fun n => and_mask n p⟩

/-- Settles O36: the cursor is an entry of the buffer, and the mask of the page counts modulo the page. -/
theorem dataByteIsBuffered : Obligations.DataByteIsBuffered := by
  intro s b ⟨hee, _⟩ hl
  obtain ⟨hcur, hsize, hmod⟩ := EE.cursor_spec hee hl.2
  refine ⟨s.ee.pbuf.setIfInBounds s.ee.pcur b, ?_, ?_, fun k hk => ?_⟩
  · rw [← hmod]
    exact exec_eeDataWrite hl b
  · exact Vector.getElem?_setIfInBounds_self_of_lt (hcur.trans_le hsize)
  · exact Vector.getElem?_setIfInBounds_ne hk.symm

end Sys2Proof.Machine

/-! ## Detection is one-shot (R147) -/

namespace Sys2Proof.Machine

/-- An action that answers a block in NONE mode only, on a block in NONE mode. -/
theorem onEe_noDeviceMode {s t : State} {act : EE → Except Fault EE} (hmode : s.ee.devMode = .noDeviceByte)
    (hact : ∀ e, act s.ee = .ok e → e.devMode = .noDeviceByte) (h : onEe s act = .next t) :
    t.ee.devMode = .noDeviceByte := by
  obtain ⟨-, e, he, rfl⟩ | ⟨-, -, rfl⟩ := onEe_next h
  · exact hact e he
  · exact hmode

theorem eeQuery_noDeviceMode {s t : State} {v : Returned} (hmode : s.ee.devMode = .noDeviceByte)
    (h : eeReady s (.next (s.returns v)) = .next t) : t.ee.devMode = .noDeviceByte := by
  obtain ⟨-, hk⟩ | ⟨-, -, rfl⟩ := eeReady_next h
  · cases hk; exact hmode
  · exact hmode

theorem eeFinalise_noDeviceMode {e : EE} (h : e.devMode = .noDeviceByte) (c : Config) (b : Byte) :
    (eeFinalise c b e).devMode = .noDeviceByte := by
  unfold eeFinalise
  cases e.st with
  | standby => exact h
  | control =>
    dsimp only
    split_ifs
    · exact h
    · rfl
    · exact h
  | address => exact h
  | data => dsimp only; split_ifs <;> exact h

theorem eeShiftOutBit_devMode {e e' : EE} (h : eeShiftOutBit e = .ok e') : e'.devMode = e.devMode := by
  unfold eeShiftOutBit at h
  split at h <;> cases h
  rfl

theorem eeRisingEdge_noDeviceMode {c : Config} {sda : Bool} {e e' : EE} (hmode : e.devMode = .noDeviceByte)
    (h : eeRisingEdge c sda e = .ok e') : e'.devMode = .noDeviceByte := by
  unfold eeRisingEdge at h
  split_ifs at h
  · cases h; exact hmode
  · exact (eeShiftOutBit_devMode h).trans hmode
  · cases h; exact hmode
  · cases h; exact hmode
  · cases h; exact eeFinalise_noDeviceMode (e := { e with bitCnt := 0 }) hmode c e.shreg

theorem eeCommit_devMode {e e' : EE} (h : eeCommit e = .ok e') : e'.devMode = e.devMode := by
  unfold eeCommit at h
  split at h <;> cases h
  rfl

theorem eeStopCond_devMode {e e' : EE} (h : eeStopCond e = .ok e') : e'.devMode = e.devMode := by
  unfold eeStopCond eeCommitIfDue at h
  split_ifs at h
  · split at h <;> cases h
    next e₁ h₁ => exact eeCommit_devMode (e' := e₁) h₁
  · cases h; rfl

theorem eeSampleAction_noDeviceMode {c : Config} {scl sda : Bool} {e e' : EE} (hmode : e.devMode = .noDeviceByte)
    (h : eeSampleAction c scl sda e = .ok e') : e'.devMode = .noDeviceByte := by
  simp only [eeSampleAction] at h
  split_ifs at h
  · cases h; exact hmode
  · exact (eeStopCond_devMode h).trans hmode
  · exact eeRisingEdge_noDeviceMode hmode h
  · cases h; exact hmode

theorem eeWrite_noDeviceMode {c : Config} {we sda scl : Bool} {e e' : EE} (hmode : e.devMode = .noDeviceByte)
    (h : eeWrite c we sda scl e = .ok e') : e'.devMode = .noDeviceByte := by
  obtain ⟨e₁, hact, rfl⟩ := eeWrite_eq_ok_iff.1 h
  exact eeSampleAction_noDeviceMode (e := eePrepared we e) (e' := e₁) hmode hact

/-- Settles O38: the mode is written by detection alone, which sets NONE mode, so every action keeps it. -/
theorem noDeviceModeLastsUntilConfigure : Obligations.NoDeviceModeLastsUntilConfigure := by
  intro s t i hb hconf hmode ht
  have hkept {act : EE → Except Fault EE} (hact : ∀ e, act s.ee = .ok e → e.devMode = .noDeviceByte)
      (hi : exec i s = onEe s act) : t.ee.devMode = .noDeviceByte :=
    onEe_noDeviceMode hmode hact (hi.symm.trans ht)
  have hfree {act : EE → EE} (hact : (act s.ee).devMode = .noDeviceByte)
      (hi : exec i s = onEe s fun e => .ok (act e)) : t.ee.devMode = .noDeviceByte :=
    hkept (fun _ he => by cases he; exact hact) hi
  cases i with
  | ecfg => cases hconf
  | erd | enew | esize => exact eeQuery_noDeviceMode hmode ht
  | sample we sda scl => exact hkept (fun _ => eeWrite_noDeviceMode hmode) rfl
  | eeStop => exact hkept (fun _ he => (eeStopCond_devMode he).trans hmode) rfl
  | eeRise prevSda sda => exact hkept (fun _ => eeRisingEdge_noDeviceMode hmode) rfl
  | eeShiftOut => exact hkept (fun _ he => (eeShiftOutBit_devMode he).trans hmode) rfl
  | eeWackSlot =>
    exact hfree (eeFinalise_noDeviceMode (e := { s.ee with bitCnt := 0 }) hmode s.config s.ee.shreg) rfl
  | eeDetect b => exact hfree (act := eeDetectNoDevice s.config b) rfl rfl
  | eeStart => exact hfree (act := eeStartCond) hmode rfl
  | eeHighHoldLow | eeHighHoldHigh | eeLow => exact hfree (act := fun e => e) hmode rfl
  | eeShiftIn sda => exact hfree (act := eeShiftInBit sda) hmode rfl
  | eeRackSlot sda => exact hfree (act := eeReadAckSlot sda) hmode rfl
  | eeCtrlMatch rw => exact hfree (act := eeControlMatch s.config rw) hmode rfl
  | eeCtrlMismatch b => exact hfree (act := eeControlMismatch) hmode rfl
  | eeAddress b => exact hfree (act := eeLatchAddress s.config b) hmode rfl
  | eeQuirkAbort b => exact hfree (act := eeQuirk) hmode rfl
  | eeDataWrite b => exact hfree (act := eeBufferData b) hmode rfl
  | _ => cases hb

end Sys2Proof.Machine

/-! ## The commit of a Stop (R114, R143) -/

namespace Sys2Proof.Machine

/-- Counting on from a in its window keeps the window's base (R10). -/
theorem clearBits_windowAddr (a p n : Nat) :
    clearBits (windowAddr a (2 ^ p - 1) n) (2 ^ p - 1) = clearBits a (2 ^ p - 1) := by
  have hp : 0 < 2 ^ p := Nat.two_pow_pos p
  rw [clearBits_mask, clearBits_mask, windowAddr_mask, Nat.mul_add_div hp, Nat.div_eq_of_lt (Nat.mod_lt _ hp),
    Nat.add_zero]

/-- The block after a Stop that committed the memory m (R114, R143). -/
def eeCommitted (m : Memory) (e : EE) : EE :=
  { e with mem := m, addr := windowAddr e.addr e.pageMask e.pcnt, newData := true
           st := .standby, bitCnt := 0, pcnt := 0, pcur := 0, out := true }

/-- What the Stop of a write transaction can do: the buffered bytes are stored in the page, and no other byte is. -/
theorem exec_eeStop_commit {s : State} (h : s.ee.Inv) (hl : s.ee.live) (hdue : s.ee.commitDue) :
    ∃ m, exec .eeStop s = .next (s.withEe (eeCommitted m s.ee)) ∧ m.len = s.ee.mem.len ∧
      (∀ k, k < s.ee.pcnt → windowAddr s.ee.addr s.ee.pageMask k ≤ s.ee.addrMask ∧
        memRead m (windowAddr s.ee.addr s.ee.pageMask k) = s.ee.pbuf[k]?) ∧
      ∀ a, (∀ k, k < s.ee.pcnt → a ≠ windowAddr s.ee.addr s.ee.pageMask k) → sameByte s.ee.mem m a := by
  obtain ⟨m, hcommit, hlen, -, -, hstored, hkept⟩ := eeCommit_spec h hl.2
  refine ⟨m, onEe_ok hl ?_, hlen, hstored, hkept⟩
  rw [eeStopCond, eeCommitIfDue, if_pos hdue, hcommit]
  rfl

/-- The addresses of the commit count on in the page of the latched address (R143). -/
theorem commitAddr_eq_windowAddr {e : EE} (h : e.legal) (k : Nat) :
    commitAddr e k = windowAddr e.addr e.pageMask k ∧
      clearBits (commitAddr e k) e.pageMask = clearBits e.addr e.pageMask := by
  obtain ⟨p, -, -, -, -, -, -, -, hpm, -⟩ := EE.legal_windows h
  rw [commitAddr, hpm, iterate_wrapInc]
  exact ⟨rfl, clearBits_windowAddr e.addr p k⟩

/-- Settles O24, by the commit of the Stop, whose addresses the loop of R143 counts on. -/
theorem stopCommitsThePage : Obligations.StopCommitsThePage := by
  intro s ⟨hee, _⟩ hl hst hdir hpcnt
  obtain ⟨m, hstop, hlen, hstored, hkept⟩ := exec_eeStop_commit hee hl ⟨hst, hdir, hpcnt⟩
  obtain ⟨hlegal, -⟩ := hee.2 hl.2
  have haddr (k : Nat) : commitAddr s.ee k = windowAddr s.ee.addr s.ee.pageMask k :=
    (commitAddr_eq_windowAddr hlegal k).1
  refine ⟨m, ?_, hlen, fun k hk => ?_, fun a ha => hkept a fun k hk => haddr k ▸ ha k hk⟩
  · rw [haddr]; exact hstop
  · obtain ⟨hle, hread⟩ := hstored k hk
    rw [← haddr] at hle hread
    exact ⟨hread, hle, (commitAddr_eq_windowAddr hlegal k).2⟩

end Sys2Proof.Machine

/-! ## The data bytes of a write transaction (R140, R142, R144) -/

namespace Sys2Proof.Machine

/-- The block after the data bytes bs, accepted in their order (R140). -/
def eeBuffered (bs : List Byte) (e : EE) : EE := bs.foldl (fun e b => eeBufferData b e) e

theorem eeBuffered_append (bs : List Byte) (b : Byte) (e : EE) :
    eeBuffered (bs ++ [b]) e = eeBufferData b (eeBuffered bs e) := by
  rw [eeBuffered, List.foldl_append]; rfl

theorem execAll_eeDataWrite (bs : List Byte) {s : State} (hl : s.ee.live) :
    execAll (bs.map .eeDataWrite) s = .next (s.withEe (eeBuffered bs s.ee)) := by
  induction bs generalizing s with
  | nil => rfl
  | cons b bs ih =>
    rw [List.map_cons, execAll_cons_of_next (exec_eeDataWrite hl b)]
    exact ih (s := s.withEe (eeBufferData b s.ee)) hl

theorem eeBuffered_inv {e : EE} (h : e.Inv) (hc : e.configured = true) (bs : List Byte) : (eeBuffered bs e).Inv := by
  induction bs generalizing e with
  | nil => exact h
  | cons b bs ih => exact ih (e := eeBufferData b e) (eeBufferData_inv h hc b) hc

/-- The block with the page buffer q after n data bytes, and the output o (R142). -/
def eePaged (n : Nat) (q : Vector Byte 16) (o : Bool) (e : EE) : EE :=
  { e with pbuf := q, pcur := n % e.pageSize, pcnt := min n e.pageSize, out := o }

/-- From an empty page buffer: the cursor counts modulo the page, the count stops at the page, and every other register
but the buffer and the output stands (R142). -/
theorem eeBuffered_eq {e : EE} (h : e.Inv) (hc : e.configured = true) (hcur : e.pcur = 0) (hcnt : e.pcnt = 0)
    (bs : List Byte) :
    eeBuffered bs e = eePaged bs.length (eeBuffered bs e).pbuf (eeBuffered bs e).out e := by
  obtain ⟨-, -, hmod⟩ := EE.cursor_spec h hc
  induction bs using List.reverseRecOn with
  | nil =>
    rw [eePaged, List.length_nil, Nat.zero_mod, Nat.zero_min]
    cases e; cases hcur; cases hcnt; rfl
  | append_singleton bs b ih =>
    have hcur' : (bs.length % e.pageSize + 1) &&& e.pageMask = (bs.length + 1) % e.pageSize := by
      rw [hmod, Nat.mod_add_mod]
    have hcnt' : min (min bs.length e.pageSize + 1) e.pageSize = min (bs.length + 1) e.pageSize := by omega
    rw [eePaged, eeBuffered_append, List.length_append, List.length_singleton, ← hcur', ← hcnt', ih]
    rfl

/-- Settles O40. -/
theorem pageCursorCountsModuloThePage : Obligations.PageCursorCountsModuloThePage := by
  intro s bs ⟨hee, _⟩ hl hcur hcnt
  refine ⟨(eeBuffered bs s.ee).pbuf, (eeBuffered bs s.ee).out, (execAll_eeDataWrite bs hl).trans ?_⟩
  exact congrArg (fun e => Host.Outcome.next (s.withEe e)) (eeBuffered_eq hee hl.2 hcur hcnt bs)

/-- The buffer holds at each cursor the last byte sent for it (R140). -/
theorem eeBuffered_pbuf {e : EE} (h : e.Inv) (hc : e.configured = true) (hcur : e.pcur = 0) (hcnt : e.pcnt = 0)
    (bs : List Byte) {k : Nat} (hk : k < bs.length)
    (hlast : ∀ j, k < j → j < bs.length → j % e.pageSize ≠ k % e.pageSize) :
    (eeBuffered bs e).pbuf[k % e.pageSize]? = bs[k]? := by
  obtain ⟨hpos, hsize, -⟩ := EE.cursor_spec h hc
  induction bs using List.reverseRecOn with
  | nil => cases hk
  | append_singleton bs b ih =>
    rw [List.length_append, List.length_singleton] at hk hlast
    have hstep : (eeBuffered (bs ++ [b]) e).pbuf =
        (eeBuffered bs e).pbuf.setIfInBounds (bs.length % e.pageSize) b := by
      rw [eeBuffered_append, eeBuffered_eq h hc hcur hcnt bs]; rfl
    rw [hstep]
    obtain rfl | hlt : k = bs.length ∨ k < bs.length := by omega
    · have hentry : bs.length % e.pageSize < 16 := (Nat.mod_lt _ (by omega)).trans_le hsize
      rw [Vector.getElem?_setIfInBounds_self_of_lt hentry, List.getElem?_concat_length]
    · rw [Vector.getElem?_setIfInBounds_ne (hlast bs.length hlt (by omega)), List.getElem?_append_left hlt]
      exact ih hlt fun j hkj hj => hlast j hkj (by omega)

/-- The address in a window depends on the count modulo the window only (R144). -/
theorem windowAddr_mod (a p k : Nat) : windowAddr a (2 ^ p - 1) (k % 2 ^ p) = windowAddr a (2 ^ p - 1) k := by
  rw [windowAddr_mask, windowAddr_mask, Nat.add_mod_mod]

/-- Settles O41: the last byte sent for an address is the last byte buffered at its cursor, which the Stop stores. -/
theorem writeTransactionStoresItsBytes : Obligations.WriteTransactionStoresItsBytes := by
  intro s bs ⟨hee, _⟩ hl hst hdir hcur hcnt hne
  have hpos : 0 < bs.length := List.length_pos_iff.2 hne
  have hsize : 0 < s.ee.pageSize := by
    obtain ⟨hpage, -⟩ := EE.cursor_spec hee hl.2
    omega
  obtain ⟨hlegal, -⟩ := hee.2 hl.2
  obtain ⟨p, -, -, -, -, -, -, hps, hpm, -⟩ := EE.legal_windows hlegal
  have hmod (k : Nat) :
      windowAddr s.ee.addr s.ee.pageMask (k % s.ee.pageSize) = windowAddr s.ee.addr s.ee.pageMask k := by
    rw [hps, hpm, windowAddr_mod]
  have hregs := eeBuffered_eq hee hl.2 hcur hcnt bs
  have hinv := eeBuffered_inv hee hl.2 bs
  have hbytes := execAll_eeDataWrite bs hl
  rw [hregs] at hinv hbytes
  obtain ⟨m, hstop, -, hstored, hkept⟩ :=
    exec_eeStop_commit (s := s.withEe (eePaged bs.length _ _ s.ee)) hinv hl ⟨hst, hdir, lt_min hpos hsize⟩
  refine ⟨_, (execAll_append_of_next hbytes).trans (execAll_cons_of_next hstop), rfl, rfl, fun k hk hlast => ?stored,
    fun a ha => hkept a fun k hk => ha k (hk.trans_le (Nat.min_le_left _ _))⟩
  case stored =>
    obtain ⟨-, hread⟩ := hstored (k % s.ee.pageSize) (lt_min ((Nat.mod_le _ _).trans_lt hk) (Nat.mod_lt _ hsize))
    rw [← hmod k]
    refine hread.trans (eeBuffered_pbuf hee hl.2 hcur hcnt bs hk fun j hkj hj heq => hlast j hkj hj ?_)
    rw [← hmod j, heq, hmod]

end Sys2Proof.Machine

/-! ## The read frame (R125, R131) and the sequential read (R145) -/

namespace Sys2Proof.Machine

theorem eeSlotOut_inv {e : EE} (h : e.Inv) (hslot : e.bitCnt < 8) : (eeSlotOut e).Inv := h.withBitCnt hslot

/-- What n + 1 slots of a frame leave: the byte loaded at slot 1, shifted out as far (R131). -/
theorem iterate_eeSlotOut {e : EE} (h : e.bitCnt = 0) {n : Nat} (hn : n < 8) :
    eeSlotOut^[n + 1] e = { e with
      out := (e.mem.get e.addr).getLsbD (7 - n), shreg := e.mem.get e.addr <<< (n + 1), bitCnt := n + 1 } := by
  induction n with
  | zero =>
    have hload : e.outgoing = e.mem.get e.addr := if_pos h
    rw [Function.iterate_one, eeSlotOut, hload, h]
  | succ n ih =>
    have htop : (e.mem.get e.addr <<< (n + 1)).getLsbD 7 = (e.mem.get e.addr).getLsbD (7 - (n + 1)) := by
      have hin : ¬7 < n + 1 := by omega
      rw [BitVec.getLsbD_shiftLeft, decide_eq_false hin]; rfl
    rw [Function.iterate_succ_apply', ih (by omega), ← htop, BitVec.shiftLeft_add _ (n + 1) 1]
    rfl

/-- The eight slots of a frame leave the register empty and the last bit of the byte driven. -/
theorem iterate_eeSlotOut_eight {e : EE} (h : e.bitCnt = 0) :
    eeSlotOut^[8] e = { e with out := (e.mem.get e.addr).getLsbD 0, shreg := 0, bitCnt := 8 } := by
  rw [iterate_eeSlotOut h (by decide : 7 < 8), BitVec.shiftLeft_eq_zero (by decide : 8 ≤ 7 + 1)]
  rfl

/-- Slots of a frame, as many as are left of the eight. -/
theorem execAll_eeShiftOut (n : Nat) {s : State} (h : s.ee.Inv) (hl : s.ee.live) (hn : s.ee.bitCnt + n ≤ 8) :
    execAll (List.replicate n .eeShiftOut) s = .next (s.withEe (eeSlotOut^[n] s.ee)) := by
  induction n generalizing s with
  | zero => rfl
  | succ n ih =>
    have hslot : s.ee.bitCnt < 8 := by omega
    have hcount : (eeSlotOut s.ee).bitCnt + n ≤ 8 := by
      change s.ee.bitCnt + 1 + n ≤ 8
      omega
    rw [List.replicate_succ, execAll_cons_of_next (exec_eeShiftOut h hl)]
    exact ih (s := s.withEe (eeSlotOut s.ee)) (eeSlotOut_inv h hslot) hl hcount

/-- A slot, and the read of the level it drives (R106, R131). -/
theorem execAll_eeShiftOut_erd {s : State} (h : s.ee.Inv) (hl : s.ee.live) (is : List Instr) :
    execAll (.eeShiftOut :: .erd :: is) s =
      execAll is ((s.withEe (eeSlotOut s.ee)).returns (.level (eeSlotOut s.ee).out)) := by
  have hread : exec .erd (s.withEe (eeSlotOut s.ee)) =
      .next ((s.withEe (eeSlotOut s.ee)).returns (.level (eeSlotOut s.ee).out)) :=
    eeReady_live (s := s.withEe (eeSlotOut s.ee)) hl _
  rw [execAll_cons_of_next (exec_eeShiftOut h hl), execAll_cons_of_next hread]

/-- Slots of a frame, each shown by EE.Read: the levels are recorded, the newest first. -/
theorem execAll_slotsRead (n : Nat) {s : State} (h : s.ee.Inv) (hl : s.ee.live) (hn : s.ee.bitCnt + n ≤ 8) :
    ∃ t, execAll (List.replicate n [Instr.eeShiftOut, .erd]).flatten s = .next t ∧ t.ee = eeSlotOut^[n] s.ee ∧
      t.caller.returned =
        ((List.range n).map fun k => Returned.level (eeSlotOut^[k + 1] s.ee).out).reverse ++ s.caller.returned := by
  induction n generalizing s with
  | zero => exact ⟨s, rfl, rfl, rfl⟩
  | succ n ih =>
    have hslot : s.ee.bitCnt < 8 := by omega
    have hcount : (eeSlotOut s.ee).bitCnt + n ≤ 8 := by
      change s.ee.bitCnt + 1 + n ≤ 8
      omega
    obtain ⟨t, ht, hee, hret⟩ := ih (s := (s.withEe (eeSlotOut s.ee)).returns (.level (eeSlotOut s.ee).out))
      (eeSlotOut_inv h hslot) hl hcount
    refine ⟨t, (execAll_eeShiftOut_erd h hl _).trans ht, hee, hret.trans ?_⟩
    rw [List.range_succ_eq_map, List.map_cons, List.map_map, List.reverse_cons, List.append_assoc]
    rfl

/-- Settles O42: the eight levels are the bits of the byte that slot 1 loads, and the slots leave the register empty. -/
theorem readFrameSendsTheByteMsbFirst : Obligations.ReadFrameSendsTheByteMsbFirst := by
  intro s ⟨hee, _⟩ hl hcnt
  obtain ⟨t, ht, htee, hret⟩ := execAll_slotsRead 8 hee hl (by rw [hcnt])
  have hlevels : (List.range 8).map (fun k => Returned.level (eeSlotOut^[k + 1] s.ee).out) =
      (bitsMsbFirst (s.ee.mem.get s.ee.addr)).map Returned.level := by
    have hbit : ∀ k ∈ List.range 8, Returned.level (eeSlotOut^[k + 1] s.ee).out =
        .level ((s.ee.mem.get s.ee.addr).getLsbD (7 - k)) := fun k hk => by
      rw [iterate_eeSlotOut hcnt (List.mem_range.1 hk)]
    rw [List.map_congr_left hbit]
    rfl
  rw [hlevels] at hret
  exact ⟨s.ee.mem.get s.ee.addr, t, memRead_some (EE.addr_in_bounds hee hl.2), ht, hret,
    htee.trans (iterate_eeSlotOut_eight hcnt)⟩

/-- The block after an acknowledged frame, ready for the next one (R131, R133). -/
def eeNextFrame (e : EE) : EE :=
  { e with addr := wrapInc e.addr e.blockMask, shreg := 0, bitCnt := 0, out := true }

theorem execAll_readFrame {s : State} (h : s.ee.Inv) (hl : s.ee.live) (hcnt : s.ee.bitCnt = 0) :
    execAll (List.replicate 8 .eeShiftOut ++ [.eeRackSlot false]) s = .next (s.withEe (eeNextFrame s.ee)) := by
  have hslots := execAll_eeShiftOut 8 h hl (by rw [hcnt])
  rw [iterate_eeSlotOut_eight hcnt] at hslots
  rw [execAll_append_of_next hslots]
  exact execAll_cons_of_next (exec_eeRackSlot (s := s.withEe { s.ee with out := _, shreg := 0, bitCnt := 8 }) hl false)

/-- Settles O43: each frame is one address on, and the next starts where it starts. -/
theorem sequentialReadStaysInItsBlock : Obligations.SequentialReadStaysInItsBlock := by
  intro s r
  induction r generalizing s with
  | zero =>
    intro ⟨hee, _⟩ hl hcnt
    obtain ⟨hlegal, -⟩ := hee.2 hl.2
    obtain ⟨-, -, b, -, -, -, -, -, -, -, hbm, -⟩ := EE.legal_windows hlegal
    exact ⟨s, rfl, by rw [hbm, windowAddr_zero], rfl, hcnt, rfl, rfl⟩
  | succ r ih =>
    intro hinv hl hcnt
    obtain ⟨hlegal, -⟩ := hinv.1.2 hl.2
    obtain ⟨-, -, b, -, -, -, -, -, -, -, hbm, -⟩ := EE.legal_windows hlegal
    have hnext : (eeNextFrame s.ee).Inv := eeReadAckSlot_inv hinv.1 hl.2 false
    obtain ⟨t, ht, haddr, hrest⟩ := ih (s.withEe (eeNextFrame s.ee)) (hinv.withEe hnext) hl rfl
    have hshift : windowAddr (wrapInc s.ee.addr s.ee.blockMask) s.ee.blockMask r =
        windowAddr s.ee.addr s.ee.blockMask (r + 1) := by
      rw [hbm, wrapInc_eq_windowAddr, windowAddr_shift]
    refine ⟨t, ?_, haddr.trans hshift, hrest⟩
    rw [List.replicate_succ, List.flatten_cons, execAll_append_of_next (execAll_readFrame hinv.1 hl hcnt)]
    exact ht

end Sys2Proof.Machine

/-! # FL: the host interface (45_flash_interface.md) -/

/-! ## FL.Configure (R149, R150) -/

namespace Sys2Proof.Machine

/-- Whatever the operand, a block that has faulted is stuck (R187). -/
theorem execFcfg_stuck {s : State} {r : ModelFault} (h : s.fl.fault = some r) (variant : Option Variant) :
    execFcfg variant s = .fault (.flStuck r) := by
  simp only [execFcfg, flUnlessStuck, h]

section
variable {s : State} (hf : s.fl.fault = none)
include hf

theorem execFcfg_raises {variant : Option Variant} {r : ModelFault}
    (h : flConfigureFault variant (flBuffer s) = some r) : execFcfg variant s = .next (setFault .fl r s) := by
  simp only [execFcfg, flUnlessStuck, hf, h, raiseModelFault]

theorem execFcfg_configures {v : Variant} (h : flConfigureFault (some v) (flBuffer s) = none) :
    execFcfg (some v) s = .next (s.takeFlOffer.withFl (flConfigured s.config v (flBuffer s) s.fl)) := by
  simp only [execFcfg, flUnlessStuck, hf, h]

end

theorem flConfigureFault_of_no_variant (buf : Memory) : flConfigureFault none buf = some .flVariant := rfl

theorem flConfigureFault_of_len_ne {v : Variant} {buf : Memory} (h : buf.len ≠ variantCapacity v) :
    flConfigureFault (some v) buf = some .bufferSize :=
  if_pos h

theorem flConfigureFault_of_contract {v : Variant} {buf : Memory} (h : buf.len = variantCapacity v) :
    flConfigureFault (some v) buf = none :=
  if_neg (not_not.2 h)

/-- Settles O14, by the first check of R149 that fails, else by the registers it sets. -/
theorem flConfigureFollowsItsContract : Obligations.FlConfigureFollowsItsContract := by
  intro s variant raised buf
  refine ⟨fun r hr => execFcfg_stuck hr variant, fun hf => ⟨?_, ?_⟩⟩
  · rintro rfl
    exact execFcfg_raises hf (flConfigureFault_of_no_variant buf)
  · rintro v rfl
    exact ⟨fun hlen => execFcfg_raises hf (flConfigureFault_of_len_ne hlen),
      fun hlen => execFcfg_configures hf (flConfigureFault_of_contract hlen)⟩

end Sys2Proof.Machine

/-! ## FL.Write (R151, R152, R161) -/

namespace Sys2Proof.Machine

/-- The row a bus cycle decodes to runs the row of the sequence whose state and condition hold (R161). -/
theorem exec_decodeCycle (s : State) (a : Addr) (d : Byte) :
    exec (decodeCycle s.config s.fl.cyc s.fl.idMode a d) s = onFl s (flSequence s.config a d) := by
  cases hcyc : s.fl.cyc <;> simp only [decodeCycle, onFl, flSequence, hcyc]
  case prog => rfl
  case c0 | c1 | c2 | c3 | c4 | erase => split_ifs <;> rfl

/-- On a live block an FL.Write is its sequence, run on the block with the flag cleared (R151, R152). -/
theorem exec_busWrite_eq_sequence {s : State} (hl : s.fl.live) (a : Addr) (d : Byte) :
    exec (.busWrite a d) s = onFl (s.withFl (flClearNewData s.fl)) (flSequence s.config a d) := by
  have hclear : (s.withFl (flClearNewData s.fl)).fl.live := hl
  rw [onFl, flReady_live hclear]
  exact flReady_live hl _

/-- Settles O48: the decoder reads neither flag nor memory, so it takes the same row before the clear and after it. -/
theorem busWriteRunsItsCycleRow : Obligations.BusWriteRunsItsCycleRow := fun s a d hl =>
  (exec_busWrite_eq_sequence hl a d).trans (exec_decodeCycle (s.withFl (flClearNewData s.fl)) a d).symm

end Sys2Proof.Machine

/-! ## FL.Read and the queries (R155 to R159) -/

namespace Sys2Proof.Machine

/-- Settles O45: a query of a live block passes the check. -/
theorem flQueriesReturnTheirRegister : Obligations.FlQueriesReturnTheirRegister := fun _ hl =>
  ⟨flReady_live hl _, flReady_live hl _⟩

/-- FL.Read runs the row its address decodes to (R155, R156). -/
theorem exec_busRead_eq_row (s : State) (a : Addr) : exec (.busRead a) s = exec (decodeRead s.fl.idMode a) s := by
  change flReady s (flAnswerRead a s) = _
  simp only [flAnswerRead, decodeRead]
  split_ifs <;> rfl

/-- The target of a read is a byte of the buffer, so the read of the array returns it (R60, R155). -/
theorem exec_flReadArray {s : State} (h : FL.Inv s.config s.fl) (hl : s.fl.live) (a : Addr) :
    exec (.flReadArray a) s = .next (s.returns (.byte (s.fl.mem.get (flTarget a s.fl.addrMask)))) := by
  obtain ⟨hin, -⟩ := FL.target_in_bounds h hl.2 a
  change flReady s (flAnswerArray a s) = _
  rw [flReady_live hl, flAnswerArray, memRead_some hin]

/-- Settles O46, by the row the read decodes to. -/
theorem flReadReturnsTheByteOrTheIdentifier : Obligations.FlReadReturnsTheByteOrTheIdentifier := by
  intro s a ⟨_, hfl, _⟩ hl answers
  have hmfr : answers .flReadMfrId s.fl.mfrId := flReady_live hl _
  have hdev : answers .flReadDevId s.fl.devId := flReady_live hl _
  have hother : exec (.flReadIdOther a) s = flAnswerIdOther s := flReady_live hl _
  refine ⟨fun hid => ?array, hmfr, hdev, fun hid => ⟨?mfrId, ?devId⟩, fun hid h0 h1 => ?idOther, hother⟩
  case array =>
    obtain ⟨hin, -⟩ := FL.target_in_bounds hfl hl.2 a
    have harray := exec_flReadArray hfl hl a
    refine ⟨_, memRead_some hin, harray, ?_⟩
    exact (exec_busRead_eq_row s a).trans (by rw [hid]; exact harray)
  case mfrId => exact (exec_busRead_eq_row s 0).trans (by rw [hid]; exact hmfr)
  case devId => exact (exec_busRead_eq_row s 1).trans (by rw [hid]; exact hdev)
  case idOther => rw [exec_busRead_eq_row, hid, decodeRead, if_pos rfl, if_neg h0, if_neg h1]

end Sys2Proof.Machine

/-! ## Reads and queries inserted in a sequence (R154, R185)

A read or a query of a live block changes the model's own record only: the count of draws (log 10) and the list of
returned values (log 18). No bus write reads the record, so a run goes on the same under any record. -/

namespace Sys2Proof.Machine

/-- The state with another record: this count of draws and this list of returned values. -/
def State.withRecord (s : State) (draws : Nat) (returned : List Returned) : State :=
  { s with fl := { s.fl with draws := draws }, caller := { s.caller with returned := returned } }

theorem withRecord_withRecord (s : State) (n m : Nat) (r q : List Returned) :
    (s.withRecord n r).withRecord m q = s.withRecord m q := rfl

/-- A host operation of FL other than Configure. -/
abbrev isFlOperation (i : Instr) : Prop := blockOf i = .fl ∧ isHostOperation i = true ∧ isConfigure i = false

/-! ### A query changes the record only -/

/-- A read leaves every register of the block but the count of draws (R154). -/
theorem flReading_ok {a : Addr} {f f' : FL} {v : Returned} (h : flReading a f = .ok (f', v)) :
    f' = { f with draws := f'.draws } := by
  unfold flReading flReadingArray at h
  split_ifs at h
  · cases h; rfl
  · cases h; rfl
  · cases h; rfl
  · split at h <;> cases h
    rfl

theorem exec_busRead_next {s t : State} {a : Addr} (hl : s.fl.live) (h : exec (.busRead a) s = .next t) :
    ∃ n r, t = s.withRecord n r := by
  have hread : exec (.busRead a) s = flAnswerRead a s := flReady_live hl _
  rw [hread, flAnswerRead_eq] at h
  obtain ⟨f, v, hf, rfl⟩ := flReturn_next h
  rw [flReading_ok hf]
  exact ⟨_, _, rfl⟩

theorem exec_flQuery_next {i : Instr} {s t : State} (hi : isFlOperation i) (hq : isQuery i = true) (hl : s.fl.live)
    (h : exec i s = .next t) : ∃ n r, t = s.withRecord n r := by
  obtain ⟨hb, hhost, -⟩ := hi
  obtain ⟨hnew, hsize⟩ := flQueriesReturnTheirRegister s hl
  cases i with
  | busRead a => exact exec_busRead_next hl h
  | fnew => rw [hnew] at h; cases h; exact ⟨s.fl.draws, _, rfl⟩
  | fsize => rw [hsize] at h; cases h; exact ⟨s.fl.draws, _, rfl⟩
  | ecfg | sample | erd | enew | esize => cases hb
  | fcfg | busWrite => cases hq
  | _ => cases hhost

/-! ### A bus write does not see the record -/

/-- What is neither a read nor a query is a bus write. -/
theorem exists_busWrite {i : Instr} (hi : isFlOperation i) (hq : isQuery i = false) : ∃ a d, i = .busWrite a d := by
  obtain ⟨hb, hhost, hconf⟩ := hi
  cases i with
  | busWrite a d => exact ⟨a, d, rfl⟩
  | fcfg => cases hconf
  | ecfg | sample | erd | enew | esize => cases hb
  | busRead | fnew | fsize => cases hq
  | _ => cases hhost

/-- The block with another count of draws. -/
def FL.withDraws (n : Nat) (f : FL) : FL := { f with draws := n }

theorem flEraseRange_withDraws (base len n : Nat) (f : FL) :
    flEraseRange base len (f.withDraws n) = (flEraseRange base len f).map (FL.withDraws n) := by
  simp only [flEraseRange, FL.withDraws]
  cases memErase f.mem base len <;> rfl

theorem flProgram_withDraws (a : Addr) (d : Byte) (n : Nat) (f : FL) :
    flProgram a d (f.withDraws n) = (flProgram a d f).map (FL.withDraws n) := by
  simp only [flProgram, FL.withDraws]
  cases memRead f.mem (flTarget a f.addrMask) with
  | none => rfl
  | some old => dsimp only; cases memWrite f.mem (flTarget a f.addrMask) (old &&& d) <;> rfl

theorem flSequence_withDraws (c : Config) (a : Addr) (d : Byte) (n : Nat) (f : FL) :
    flSequence c a d (f.withDraws n) = (flSequence c a d f).map (FL.withDraws n) := by
  have hid : (f.withDraws n).idMode = f.idMode := rfl
  have hcyc : (f.withDraws n).cyc = f.cyc := rfl
  unfold flSequence
  rw [hid, hcyc]
  cases f.cyc <;> dsimp only
  case erase =>
    split_ifs
    · exact flEraseRange_withDraws _ _ n f
    · exact flEraseRange_withDraws _ _ n f
    · rfl
  case prog => exact flProgram_withDraws a d n f
  case c0 | c1 | c2 | c3 | c4 => split_ifs <;> rfl

theorem exec_busWrite_withRecord {s t : State} {a : Addr} {d : Byte} (hl : s.fl.live)
    (h : exec (.busWrite a d) s = .next t) (n : Nat) (r : List Returned) :
    exec (.busWrite a d) (s.withRecord n r) = .next (t.withRecord n r) := by
  obtain ⟨f, hf, rfl⟩ := onFl_next_of_live (act := flWrite s.config a d) hl h
  have hdraws : flWrite s.config a d (s.fl.withDraws n) = .ok (f.withDraws n) :=
    (flSequence_withDraws s.config a d n (flClearNewData s.fl)).trans (congrArg (Except.map (FL.withDraws n)) hf)
  exact onFl_ok (s := s.withRecord n r) hl hdraws

/-! ### The block stays live -/

theorem FlCycleEffect.live {c : Config} {a : Addr} {d : Byte} {f f' : FL} (h : FlCycleEffect c a d f f')
    (hl : f.live) : f'.live := by
  cases h <;> exact hl

theorem exec_busWrite_live {s t : State} {a : Addr} {d : Byte} (hl : s.fl.live)
    (h : exec (.busWrite a d) s = .next t) : t.fl.live := by
  obtain ⟨f, hf, rfl⟩ := onFl_next_of_live (act := flWrite s.config a d) hl h
  have heffect : FlCycleEffect s.config a d (flClearNewData s.fl) f := flSequence_effect hf
  exact heffect.live hl

theorem exec_flOperation_live {i : Instr} {s t : State} (hi : isFlOperation i) (hl : s.fl.live)
    (h : exec i s = .next t) : t.fl.live := by
  cases hq : isQuery i with
  | true => obtain ⟨n, r, rfl⟩ := exec_flQuery_next hi hq hl h; exact hl
  | false => obtain ⟨a, d, rfl⟩ := exists_busWrite hi hq; exact exec_busWrite_live hl h

/-! ### Under the invariant every operation completes (R60) -/

theorem flSequence_completes {c : Config} {f : FL} (h : FL.Inv c f) (hc : f.configured = true) (a : Addr) (d : Byte) :
    ∃ f', flSequence c a d f = .ok f' := by
  unfold flSequence
  cases f.cyc <;> dsimp only
  case erase =>
    split_ifs
    · obtain ⟨m, hm, -⟩ := flEraseSector_spec h hc a
      exact ⟨_, hm⟩
    · obtain ⟨m, hm, -⟩ := flEraseChip_spec h hc
      exact ⟨_, hm⟩
    · exact ⟨_, rfl⟩
  case prog =>
    obtain ⟨m, hm, -⟩ := flProgram_spec h hc a d
    exact ⟨_, hm⟩
  case c0 | c1 | c2 | c3 | c4 => split_ifs <;> exact ⟨_, rfl⟩

theorem exec_busRead_completes {s : State} (h : FL.Inv s.config s.fl) (hl : s.fl.live) (a : Addr) :
    ∃ t, exec (.busRead a) s = .next t := by
  rw [exec_busRead_eq_row, decodeRead]
  split_ifs
  · exact ⟨_, flReady_live hl _⟩
  · exact ⟨_, flReady_live hl _⟩
  · exact ⟨_, flReady_live hl _⟩
  · exact ⟨_, exec_flReadArray h hl a⟩

theorem exec_flOperation_completes {i : Instr} {s : State} (hi : isFlOperation i) (h : FL.Inv s.config s.fl)
    (hl : s.fl.live) : ∃ t, exec i s = .next t := by
  obtain ⟨hb, hhost, hconf⟩ := hi
  obtain ⟨hnew, hsize⟩ := flQueriesReturnTheirRegister s hl
  cases i with
  | busWrite a d =>
    obtain ⟨f, hf⟩ := flSequence_completes (f := flClearNewData s.fl) h hl.2 a d
    exact ⟨_, onFl_ok (act := flWrite s.config a d) hl hf⟩
  | busRead a => exact exec_busRead_completes h hl a
  | fnew => exact ⟨_, hnew⟩
  | fsize => exact ⟨_, hsize⟩
  | fcfg => cases hconf
  | ecfg | sample | erd | enew | esize => cases hb
  | _ => cases hhost

/-! ### Sequences -/

/-- A run without its reads and queries, begun under any record, ends where the run with them ends, but for the record
it began with. -/
theorem execAll_without_queries {l : List Instr} {s t : State} (hl : s.fl.live) (hops : ∀ i ∈ l, isFlOperation i)
    (h : execAll l s = .next t) (n : Nat) (r : List Returned) :
    execAll (l.filter fun i => !isQuery i) (s.withRecord n r) = .next (t.withRecord n r) := by
  induction l generalizing s with
  | nil => cases h; rfl
  | cons i is ih =>
    obtain ⟨hi, his⟩ := List.forall_mem_cons.1 hops
    rw [execAll] at h
    split at h
    next u hu =>
      have hrest := ih (exec_flOperation_live hi hl hu) his h
      cases hq : isQuery i with
      | true =>
        obtain ⟨m, q, rfl⟩ := exec_flQuery_next hi hq hl hu
        rw [withRecord_withRecord] at hrest
        rw [List.filter_cons_of_neg (by simp [hq])]
        exact hrest
      | false =>
        obtain ⟨a, d, rfl⟩ := exists_busWrite hi hq
        rw [List.filter_cons_of_pos (by simp [hq]), execAll_cons_of_next (exec_busWrite_withRecord hl hu n r)]
        exact hrest
    next => cases h
    next => cases h

theorem execAll_flOperations_completes {l : List Instr} {s : State} (h : s.Inv) (hl : s.fl.live)
    (hops : ∀ i ∈ l, isFlOperation i) : ∃ t, execAll l s = .next t := by
  induction l generalizing s with
  | nil => exact ⟨s, rfl⟩
  | cons i is ih =>
    obtain ⟨hi, his⟩ := List.forall_mem_cons.1 hops
    have ⟨_, hfl, _⟩ := h
    have ⟨_, hhost, _⟩ := hi
    obtain ⟨u, hu⟩ := exec_flOperation_completes hi hfl hl
    rw [execAll_cons_of_next hu]
    exact ih (exec_hostOperation_inv h hhost hu) (exec_flOperation_live hi hl hu) his

/-- Settles O47, by induction on the sequence: a query changes the record only, and a bus write does the same under
every record. -/
theorem flReadsDoNotDisturbASequence : Obligations.FlReadsDoNotDisturbASequence := by
  intro s l hl hops
  refine ⟨fun t ht => ?_, fun hinv => execAll_flOperations_completes hinv hl hops⟩
  exact ⟨t.withRecord s.fl.draws s.caller.returned,
    execAll_without_queries hl hops ht s.fl.draws s.caller.returned, rfl⟩

end Sys2Proof.Machine

/-! # FL: the command sequencer (46_flash_commands.md) -/

/-! ## The rows of a cycle (R161 to R182) -/

namespace Sys2Proof.Machine

/-- Settles O52: each row runs its action alone, and a live block passes the check. -/
theorem cycleRowsWithoutMemoryAct : Obligations.CycleRowsWithoutMemoryAct := fun _ _ _ hl =>
  ⟨flReady_live hl _, flReady_live hl _, flReady_live hl _, flReady_live hl _, flReady_live hl _, flReady_live hl _,
    flReady_live hl _, flReady_live hl _, flReady_live hl _, flReady_live hl _, flReady_live hl _, flReady_live hl _,
    flReady_live hl _, flReady_live hl _⟩

/-! ### The row the sequence takes, row by row -/

section
variable {c : Config} {a : Addr} {d : Byte} {f : FL}

/-- The cycle state that awaits step n + 1 of the unlock; after the fifth step the block is EraseReady (R43, R173). -/
def unlockCycle : Fin 6 → FlCycle
  | 0 => .c0
  | 1 => .c1
  | 2 => .c2
  | 3 => .c3
  | 4 => .c4
  | 5 => .erase

/-- An unlock step, met where it is awaited, moves the counter on (R163, R165, R167, R172, R173). At C0 the row
of the exit code stands first, and R81 keeps that code apart from the step's. -/
theorem flSequence_unlock (hwf : c.wf) (n : Fin 5) (hcyc : f.cyc = unlockCycle n.castSucc)
    (hstep : isUnlock c n a d = true) : flSequence c a d f = .ok (flGoto (unlockCycle n.succ) f) := by
  obtain ⟨_, _, _, _, _, _, _, _, hexit⟩ := hwf
  match n with
  | 0 =>
    have hd : d ≠ c.cmdIdExit := (isUnlock_iff.1 hstep).2.trans_ne hexit.symm
    have hnoexit : ¬(f.idMode && d == c.cmdIdExit) = true := by simp [hd]
    rw [flSequence, hcyc]
    exact (if_neg hnoexit).trans (if_pos hstep)
  | 1 | 2 | 3 | 4 =>
    rw [flSequence, hcyc]
    exact if_pos hstep

/-- A command code other than 0x80 is no third unlock step. -/
theorem isUnlock_two_of_ne (hd : d ≠ 0x80) : ¬isUnlock c 2 a d = true := fun h => hd (isUnlock_iff.1 h).2

/-- A cycle with another code is not this command. -/
theorem isCommand_of_ne {k : Byte} (hd : d ≠ k) : ¬isCommand c k a d = true := fun h => hd (isCommand_iff.1 h).2

/-- ID exit at once, whatever the address (R162). -/
theorem flSequence_idExitAtOnce (hcyc : f.cyc = .c0) (hid : f.idMode = true) :
    flSequence c a c.cmdIdExit f = .ok (flLeaveId f) := by
  rw [flSequence, hcyc]
  exact if_pos (by simp [hid])

section
variable (hwf : c.wf) (hcyc : f.cyc = .c2) (ha : cmdAddr c a 0x5555 = true)
include hwf hcyc ha

/-- Program setup (R168). -/
theorem flSequence_programSetup : flSequence c a c.cmdProgram f = .ok (flGoto .prog f) := by
  obtain ⟨_, _, _, hsetup, _⟩ := hwf
  rw [flSequence, hcyc]
  exact (if_neg (isUnlock_two_of_ne hsetup)).trans (if_pos (isCommand_iff.2 ⟨ha, rfl⟩))

/-- ID entry (R169). -/
theorem flSequence_idEntry : flSequence c a c.cmdIdEntry f = .ok (flEnterId f) := by
  obtain ⟨hprogram, _, _, _, hsetup, _⟩ := hwf
  rw [flSequence, hcyc]
  exact (if_neg (isUnlock_two_of_ne hsetup)).trans <| (if_neg (isCommand_of_ne hprogram.symm)).trans <|
    if_pos (isCommand_iff.2 ⟨ha, rfl⟩)

/-- ID exit by the three-cycle sequence (R170). -/
theorem flSequence_idExit : flSequence c a c.cmdIdExit f = .ok (flLeaveId f) := by
  obtain ⟨_, hprogram, hentry, _, _, hsetup, _⟩ := hwf
  rw [flSequence, hcyc]
  exact (if_neg (isUnlock_two_of_ne hsetup)).trans <| (if_neg (isCommand_of_ne hprogram.symm)).trans <|
    (if_neg (isCommand_of_ne hentry.symm)).trans <| if_pos (isCommand_iff.2 ⟨ha, rfl⟩)

end

/-! The otherwise rows: no row before them holds. -/

theorem flSequence_c0Other (hcyc : f.cyc = .c0) (hexit : ¬(f.idMode = true ∧ d = c.cmdIdExit))
    (hu : ¬isUnlock c 0 a d = true) : flSequence c a d f = .ok (flAbort f) := by
  have hnoexit : ¬(f.idMode && d == c.cmdIdExit) = true := by simpa using hexit
  rw [flSequence, hcyc]
  exact (if_neg hnoexit).trans (if_neg hu)

/-- C1, C3 and C4 know one cycle each, their own unlock step (R166, R174). -/
theorem flSequence_abort_of_not_unlock {n : Fin 5} (hn : n = 1 ∨ n = 3 ∨ n = 4)
    (hcyc : f.cyc = unlockCycle n.castSucc) (hu : ¬isUnlock c n a d = true) :
    flSequence c a d f = .ok (flAbort f) := by
  rcases hn with rfl | rfl | rfl <;> rw [flSequence, hcyc] <;> exact if_neg hu

theorem flSequence_c2Abort (hcyc : f.cyc = .c2)
    (hother : ¬(cmdAddr c a 0x5555 = true ∧ (d = 0x80 ∨ d = c.cmdProgram ∨ d = c.cmdIdEntry ∨ d = c.cmdIdExit))) :
    flSequence c a d f = .ok (flAbort f) := by
  have hsetup : ¬isUnlock c 2 a d = true := fun h => hother ((isUnlock_iff.1 h).imp_right .inl)
  have hprogram := mt isCommand_iff.1 fun h => hother (h.imp_right (.inr ∘ .inl))
  have hentry := mt isCommand_iff.1 fun h => hother (h.imp_right (.inr ∘ .inr ∘ .inl))
  have hexit := mt isCommand_iff.1 fun h => hother (h.imp_right (.inr ∘ .inr ∘ .inr))
  rw [flSequence, hcyc]
  exact (if_neg hsetup).trans <| (if_neg hprogram).trans <| (if_neg hentry).trans <| if_neg hexit

theorem flSequence_eraseAbort (hcyc : f.cyc = .erase) (hsector : d ≠ 0x30) (hchip : ¬isCommand c 0x10 a d = true) :
    flSequence c a d f = .ok (flAbort f) := by
  have hnosector : ¬(d == 0x30) = true := by simpa using hsector
  rw [flSequence, hcyc]
  exact (if_neg hnosector).trans (if_neg hchip)

/-! The rows that write memory run the command's action. -/

/-- At ERASE the byte 0x30 erases a sector, at any address (R175). -/
theorem flSequence_sectorErase (hcyc : f.cyc = .erase) : flSequence c a 0x30 f = flEraseSector a f := by
  rw [flSequence, hcyc]; rfl

/-- At ERASE the cycle 5555/10 erases the chip (R176). -/
theorem flSequence_chipErase (hcyc : f.cyc = .erase) (ha : cmdAddr c a 0x5555 = true) :
    flSequence c a 0x10 f = flEraseChip f := by
  rw [flSequence, hcyc]
  exact (if_neg (by decide)).trans (if_pos (isCommand_iff.2 ⟨ha, rfl⟩))

/-- At PROG every cycle programs a byte (R178). -/
theorem flSequence_program (hcyc : f.cyc = .prog) : flSequence c a d f = flProgram a d f := by
  rw [flSequence, hcyc]

end

/-- A bus write of a live block whose row answers. -/
theorem exec_busWrite_of_sequence {s : State} (hl : s.fl.live) {a : Addr} {d : Byte} {f : FL}
    (h : flSequence s.config a d (flClearNewData s.fl) = .ok f) : exec (.busWrite a d) s = .next (s.withFl f) :=
  onFl_ok (act := flWrite s.config a d) hl h

/-- The state after a bus write that only moves the counter: the flag is clear (R152). -/
def State.atCycle (s : State) (c : FlCycle) : State := s.withFl { s.fl with newData := false, cyc := c }

/-- An unlock step, as a bus write of a live block. -/
theorem exec_busWrite_unlock {s : State} (hl : s.fl.live) (hwf : s.config.wf) (n : Fin 5) {a : Addr}
    (hcyc : s.fl.cyc = unlockCycle n.castSucc) (ha : cmdAddr s.config a flUnlock[n].1 = true) :
    exec (.busWrite a flUnlock[n].2) s = .next (s.atCycle (unlockCycle n.succ)) :=
  exec_busWrite_of_sequence hl (flSequence_unlock (f := flClearNewData s.fl) hwf n hcyc (isUnlock_iff.2 ⟨ha, rfl⟩))

/-- Settles O50: the five unlock steps are instances of one. -/
theorem unlockStepsAdvanceTheCycle : Obligations.UnlockStepsAdvanceTheCycle := fun _ _ hl hwf =>
  ⟨exec_busWrite_unlock hl hwf 0, exec_busWrite_unlock hl hwf 1, exec_busWrite_unlock hl hwf 2,
    exec_busWrite_unlock hl hwf 3, exec_busWrite_unlock hl hwf 4⟩

/-- Settles O51, by the row of each code. -/
theorem setupAndIdCommandsAct : Obligations.SetupAndIdCommandsAct := by
  intro s a hl hwf
  refine ⟨fun hcyc ha => ⟨?program, ?idEntry, ?idExit⟩, fun hcyc hid => ?idExitAtOnce⟩
  case program => exact exec_busWrite_of_sequence hl (flSequence_programSetup (f := flClearNewData s.fl) hwf hcyc ha)
  case idEntry => exact exec_busWrite_of_sequence hl (flSequence_idEntry (f := flClearNewData s.fl) hwf hcyc ha)
  case idExit => exact exec_busWrite_of_sequence hl (flSequence_idExit (f := flClearNewData s.fl) hwf hcyc ha)
  case idExitAtOnce =>
    exact exec_busWrite_of_sequence hl (flSequence_idExitAtOnce (f := flClearNewData s.fl) hcyc hid)

/-- Settles O53: in each cycle state none of the rows before the otherwise row holds. -/
theorem anyOtherCycleAborts : Obligations.AnyOtherCycleAborts := by
  intro s a d hl five two hother
  apply exec_busWrite_of_sequence hl (f := flAbort (flClearNewData s.fl))
  rcases hother with ⟨hcyc, hexit, hu⟩ | ⟨hcyc, hu⟩ | ⟨hcyc, hu⟩ | ⟨hcyc, hu⟩ | ⟨hcyc, hu⟩ | ⟨hcyc, hsector, hchip⟩
  · exact flSequence_c0Other hcyc hexit (mt isUnlock_iff.1 hu)
  · exact flSequence_abort_of_not_unlock (n := 1) (by decide) hcyc (mt isUnlock_iff.1 hu)
  · exact flSequence_c2Abort hcyc hu
  · exact flSequence_abort_of_not_unlock (n := 3) (by decide) hcyc (mt isUnlock_iff.1 hu)
  · exact flSequence_abort_of_not_unlock (n := 4) (by decide) hcyc (mt isUnlock_iff.1 hu)
  · exact flSequence_eraseAbort hcyc hsector (mt isCommand_iff.1 hchip)

end Sys2Proof.Machine

/-! ## The commands that write memory (R175, R176, R178) -/

namespace Sys2Proof.Machine

/-- An erase neither reads nor writes the flag. -/
theorem flEraseRange_clearNewData (base n : Nat) (f : FL) :
    flEraseRange base n (flClearNewData f) = (flEraseRange base n f).map flClearNewData := by
  simp only [flEraseRange, flClearNewData]
  cases memErase f.mem base n <;> rfl

/-- A program sets the flag, whatever it was. -/
theorem flProgram_clearNewData (a : Addr) (d : Byte) (f : FL) : flProgram a d (flClearNewData f) = flProgram a d f :=
  rfl

/-- Settles O54: at ERASE the code 0x30 selects the sector erase, which the cleared flag does not bear on. -/
theorem sectorEraseFillsOneSector : Obligations.SectorEraseFillsOneSector := by
  intro s a ⟨_, hfl, _⟩ hl
  obtain ⟨m, hm, hlen, _, hread⟩ := flEraseSector_spec hfl hl.2 a
  refine ⟨m, onFl_ok hl hm, fun hcyc => exec_busWrite_of_sequence hl ?_, hlen, hread⟩
  calc flSequence s.config a 0x30 (flClearNewData s.fl)
      = flEraseSector a (flClearNewData s.fl) := flSequence_sectorErase hcyc
    _ = (flEraseSector a s.fl).map flClearNewData := flEraseRange_clearNewData _ _ s.fl
    _ = .ok { s.fl with mem := m, cyc := .c0, newData := false } := by rw [hm]; rfl

/-- Settles O55: at ERASE the cycle 5555/10 selects the chip erase, which the cleared flag does not bear on. -/
theorem chipEraseFillsTheDevice : Obligations.ChipEraseFillsTheDevice := by
  intro s a ⟨_, hfl, _⟩ hl
  obtain ⟨m, hm, hlen, _, hread⟩ := flEraseChip_spec hfl hl.2
  refine ⟨m, onFl_ok hl hm, fun hcyc ha => exec_busWrite_of_sequence hl ?_, hlen, hread⟩
  calc flSequence s.config a 0x10 (flClearNewData s.fl)
      = flEraseChip (flClearNewData s.fl) := flSequence_chipErase hcyc ha
    _ = (flEraseChip s.fl).map flClearNewData := flEraseRange_clearNewData _ _ s.fl
    _ = .ok { s.fl with mem := m, cyc := .c0, newData := false } := by rw [hm]; rfl

/-- Settles O56: at PROG every bus write selects the byte program. -/
theorem byteProgramAndsTheByte : Obligations.ByteProgramAndsTheByte := by
  intro s a d ⟨_, hfl, _⟩ hl
  obtain ⟨hin, _⟩ := FL.target_in_bounds hfl hl.2 a
  obtain ⟨m, hm, hlen, _, hread⟩ := flProgram_spec hfl hl.2 a d
  refine ⟨m, _, memRead_some hin, onFl_ok hl hm, fun hcyc => exec_busWrite_of_sequence hl ?_, hlen, hread⟩
  calc flSequence s.config a d (flClearNewData s.fl)
      = flProgram a d (flClearNewData s.fl) := flSequence_program hcyc
    _ = flProgram a d s.fl := flProgram_clearNewData a d s.fl
    _ = .ok { s.fl with mem := m, newData := true, cyc := .c0 } := hm

end Sys2Proof.Machine

/-! ## The command sequences (R43, R94, R179, R182 to R184) -/

namespace Sys2Proof.Machine

/-- Every mask compares an address equal to itself (R80). -/
theorem cmdAddr_self (c : Config) (k : Addr) : cmdAddr c k k = true := beq_self_eq_true _

/-- The state after a byte program that leaves this memory (R178). -/
def State.programmed (s : State) (m : Memory) : State := s.withFl { s.fl with mem := m, newData := true, cyc := .c0 }

section
variable {s : State} (hl : s.fl.live) (hwf : s.config.wf)
include hl hwf

/-- An unlock step at its own address. -/
theorem exec_unlockStep (n : Fin 5) (hcyc : s.fl.cyc = unlockCycle n.castSucc) :
    exec (.busWrite flUnlock[n].1 flUnlock[n].2) s = .next (s.atCycle (unlockCycle n.succ)) :=
  exec_busWrite_unlock hl hwf n hcyc (cmdAddr_self _ _)

/-- UNLOCK leads from C0 to C2. -/
theorem execAll_unlockSeq (hcyc : s.fl.cyc = .c0) : execAll unlockSeq s = .next (s.atCycle .c2) :=
  (execAll_cons_of_next (exec_unlockStep hl hwf 0 hcyc)).trans <|
    execAll_cons_of_next (exec_unlockStep (s := s.atCycle .c1) hl hwf 1 rfl)

/-- The five unlock steps lead from C0 to ERASE. -/
theorem execAll_erasePrefixSeq (hcyc : s.fl.cyc = .c0) : execAll erasePrefixSeq s = .next (s.atCycle .erase) :=
  (execAll_append_of_next (is := unlockSeq) (execAll_unlockSeq hl hwf hcyc)).trans <|
    (execAll_cons_of_next (exec_unlockStep (s := s.atCycle .c2) hl hwf 2 rfl)).trans <|
    (execAll_cons_of_next (exec_unlockStep (s := s.atCycle .c3) hl hwf 3 rfl)).trans <|
    execAll_cons_of_next (exec_unlockStep (s := s.atCycle .c4) hl hwf 4 rfl)

/-- PGM a, d from C0: the byte program, and the invariant kept for the next sequence. -/
theorem execAll_programSeq (h : s.Inv) (hcyc : s.fl.cyc = .c0) (a : Addr) (d : Byte) :
    ∃ (m : Memory) (old : Byte), memRead s.fl.mem (flTarget a s.fl.addrMask) = some old ∧
      execAll (programSeq s.config a d) s = .next (s.programmed m) ∧ (s.programmed m).Inv ∧
      ∀ x, memRead m x = if x = flTarget a s.fl.addrMask then some (old &&& d) else memRead s.fl.mem x := by
  have hunlock := execAll_unlockSeq hl hwf hcyc
  obtain ⟨hsetup, _⟩ := (setupAndIdCommandsAct (s.atCycle .c2) 0x5555 hl hwf).1 rfl (cmdAddr_self _ _)
  obtain ⟨m, old, hold, _, hprogram, _, hread⟩ := byteProgramAndsTheByte (s.atCycle .prog) a d h hl
  have hwrite := hprogram rfl
  refine ⟨m, old, hold, ?_, exec_hostOperation_inv (s := s.atCycle .prog) h rfl hwrite, hread⟩
  exact (execAll_append_of_next hunlock).trans <| (execAll_cons_of_next hsetup).trans <| execAll_cons_of_next hwrite

end

/-- Settles O57: the second sequence finds at the target the byte the first has stored. -/
theorem programmingTwiceAndsBoth : Obligations.ProgrammingTwiceAndsBoth := by
  intro s a v1 v2 h hl hwf hcyc
  obtain ⟨m₁, old, hold, hrun₁, hinv₁, hread₁⟩ := execAll_programSeq hl hwf h hcyc a v1
  obtain ⟨m₂, old₂, hold₂, hrun₂, _, hread₂⟩ := execAll_programSeq (s := s.programmed m₁) hl hwf hinv₁ rfl a v2
  refine ⟨_, old, hold, (execAll_append_of_next hrun₁).trans hrun₂, rfl, rfl, rfl, fun x => ?_⟩
  have hstored : old₂ = old &&& v1 := Option.some.inj (hold₂.symm.trans ((hread₁ _).trans (if_pos rfl)))
  calc memRead m₂ x
      = if x = flTarget a s.fl.addrMask then some (old₂ &&& v2) else memRead m₁ x := hread₂ x
    _ = if x = flTarget a s.fl.addrMask then some (old &&& v1 &&& v2) else memRead s.fl.mem x := by
      rw [hread₁, hstored]; split_ifs <;> rfl

/-- Settles O58: the five unlock steps, then the sector erase; a read in the sector returns what it has stored. -/
theorem sectorEraseSequenceErasesOneSector : Obligations.SectorEraseSequenceErasesOneSector := by
  intro s a h hl hwf hcyc
  have hunlock := execAll_erasePrefixSeq hl hwf hcyc
  obtain ⟨m, _, herase, _, hread⟩ := sectorEraseFillsOneSector (s.atCycle .erase) a h hl
  have hwrite := herase rfl
  have hinv := exec_hostOperation_inv (s := s.atCycle .erase) h rfl hwrite
  refine ⟨_, (execAll_append_of_next hunlock).trans (execAll_cons_of_next hwrite), rfl, rfl, rfl, fun x hx => ?frame,
    fun y hy hid => ?erased⟩
  case frame => exact (hread x).trans (if_neg (mt (mem_sector_iff _ x).1 hx))
  case erased =>
    obtain ⟨b, hb, _, hanswer⟩ := (flReadReturnsTheByteOrTheIdentifier _ y hinv hl).1 hid
    have herased : b = 0xFF := Option.some.inj (hb.symm.trans ((hread _).trans (if_pos ((mem_sector_iff _ _).2 hy))))
    rw [← herased]
    exact hanswer

/-- Settles O59: the five unlock steps, then the chip erase. -/
theorem chipEraseSequenceErasesTheDevice : Obligations.ChipEraseSequenceErasesTheDevice := by
  intro s h hl hwf hcyc
  have hunlock := execAll_erasePrefixSeq hl hwf hcyc
  obtain ⟨m, _, herase, _, hread⟩ := chipEraseFillsTheDevice (s.atCycle .erase) 0x5555 h hl
  have hwrite := herase rfl (cmdAddr_self _ _)
  exact ⟨_, (execAll_append_of_next hunlock).trans (execAll_cons_of_next hwrite), rfl, rfl, rfl, hread⟩

end Sys2Proof.Machine

/-! # Exceptions (60_exceptions.md) -/

/-! ## A faulted block is stuck (R187, R194) -/

namespace Sys2Proof.Machine

/-- Every form of an EE meaning begins with the check of the fault register. -/
theorem exec_ee_stuck {i : Instr} {s : State} {r : ModelFault} (hi : blockOf i = .ee) (h : s.ee.fault = some r) :
    exec i s = .fault (.eeStuck r) := by
  cases exec_eeForm hi with
  | configure size pageSize mode hm => exact (hm s).trans (execEcfg_stuck h size pageSize mode)
  | query v hm => exact (hm s).trans (eeReady_stuck h _)
  | action act hm => exact (hm s).trans (eeReady_stuck h _)

/-- The same of FL. -/
theorem exec_fl_stuck {i : Instr} {s : State} {r : ModelFault} (hi : blockOf i = .fl) (h : s.fl.fault = some r) :
    exec i s = .fault (.flStuck r) := by
  cases exec_flForm hi with
  | configure variant hm => exact (hm s).trans (execFcfg_stuck h variant)
  | query read hm => exact (hm s).trans (flReady_stuck h _)
  | action act hm => exact (hm s).trans (flReady_stuck h _)

/-- Settles O16, by the form of the instruction's meaning. -/
theorem faultedBlockIsStuck : Obligations.FaultedBlockIsStuck := fun _ _ _ => ⟨exec_ee_stuck, exec_fl_stuck⟩

end Sys2Proof.Machine

/-! ## Live blocks that meet the invariant complete every operation but Configure (R57, R60, R189)

The two accesses of EE that could leave the buffer are the load of slot 1 and the commit. The invariant bounds both, and
no action of a sample writes the registers of the checks. -/

namespace Sys2Proof.Machine

/-- A Stop completes: the commit, where one is due, is in bounds (R57, R114). -/
theorem eeStopCond_completes {e : EE} (h : e.Inv) (hl : e.live) : ∃ e', eeStopCond e = .ok e' ∧ e'.live := by
  by_cases hdue : e.commitDue
  · obtain ⟨m, hcommit, -⟩ := eeCommit_spec h hl.2
    have hstop : eeStopCond e = .ok (eeCommitted m e) := by
      rw [eeStopCond, eeCommitIfDue, if_pos hdue, hcommit]; rfl
    exact ⟨_, hstop, hl⟩
  · exact ⟨_, eeStopCond_of_not_commitDue hdue, hl⟩

/-- A rising edge completes: the load of slot 1 is in bounds (R57, R127). -/
theorem eeRisingEdge_completes {e : EE} (h : e.Inv) (hl : e.live) (c : Config) (sda : Bool) :
    ∃ e', eeRisingEdge c sda e = .ok e' ∧ e'.live := by
  obtain ⟨e', he⟩ := eeRisingEdge_isOk h hl.2 c sda
  obtain ⟨-, -, hfault, hconf⟩ := eeRisingEdge_keepsLines he
  exact ⟨e', he, hfault.trans hl.1, hconf.trans hl.2⟩

/-- Whatever its class, the action of a sample completes (R111). -/
theorem eeSampleAction_completes {e : EE} (h : e.Inv) (hl : e.live) (c : Config) (scl sda : Bool) :
    ∃ e', eeSampleAction c scl sda e = .ok e' ∧ e'.live := by
  simp only [eeSampleAction]
  split_ifs
  · exact ⟨_, rfl, hl⟩
  · exact eeStopCond_completes h hl
  · exact eeRisingEdge_completes h hl c sda
  · exact ⟨_, rfl, hl⟩

theorem eeWrite_completes {e : EE} (h : e.Inv) (hl : e.live) (c : Config) (we sda scl : Bool) :
    ∃ e', eeWrite c we sda scl e = .ok e' ∧ e'.live := by
  obtain ⟨e₁, hact, hlive⟩ := eeSampleAction_completes (e := eePrepared we e) h hl c scl sda
  exact ⟨eeLatchLines scl sda e₁, eeWrite_eq_ok_iff.2 ⟨e₁, hact, rfl⟩, hlive⟩

theorem exec_eeOperation_completes {i : Instr} {s : State} (hb : blockOf i = .ee) (hhost : isHostOperation i = true)
    (hconf : isConfigure i = false) (h : s.ee.Inv) (hl : s.ee.live) : ∃ t, exec i s = .next t ∧ t.ee.live := by
  obtain ⟨hread, hnew, hsize⟩ := eeQueriesReturnTheirRegister s hl
  cases i with
  | sample we sda scl =>
    obtain ⟨e, he, hlive⟩ := eeWrite_completes h hl s.config we sda scl
    exact ⟨s.withEe e, onEe_ok (act := eeWrite s.config we sda scl) hl he, hlive⟩
  | erd => exact ⟨_, hread, hl⟩
  | enew => exact ⟨_, hnew, hl⟩
  | esize => exact ⟨_, hsize, hl⟩
  | ecfg => cases hconf
  | fcfg | busWrite | busRead | fnew | fsize => cases hb
  | _ => cases hhost

/-- Settles O12: the operation completes and keeps its own block live, and the other block is as it was. -/
theorem noHostOperationFaultsOnLiveBlocks : Obligations.NoHostOperationFaultsOnLiveBlocks := by
  intro s i ⟨hee, hfl, _⟩ hle hlf hhost hconf
  cases hb : blockOf i with
  | ee =>
    obtain ⟨t, ht, hlive⟩ := exec_eeOperation_completes hb hhost hconf hee hle
    exact ⟨t, ht, hlive, (exec_ee_fl hb ht).symm ▸ hlf⟩
  | fl =>
    have hop : isFlOperation i := ⟨hb, hhost, hconf⟩
    obtain ⟨t, ht⟩ := exec_flOperation_completes hop hfl hlf
    exact ⟨t, ht, (exec_fl_ee hb ht).symm ▸ hle, exec_flOperation_live hop hlf ht⟩

end Sys2Proof.Machine

/-! # Reset (70_reset_and_hazards.md)

Before its first Configure a block meets the invariant for want of a configuration; the first idle sample after an
EE.Configure makes the drawn lines high without leaving STANDBY. -/

/-! ## Before the first Configure (R39, R209) -/

namespace Sys2Proof.Machine

/-- Settles O9: the four registers as State.reset names them. -/
theorem resetBlocksAreUnconfigured : Obligations.ResetBlocksAreUnconfigured := ⟨rfl, rfl, rfl, rfl⟩

theorem emptyBuffer_wf : Memory.wf ⟨0, []⟩ := ⟨.nil, List.forall_mem_nil _⟩

/-- An unconfigured block has no configuration for the invariant to speak of, only its buffer. -/
theorem EE.inv_of_unconfigured {e : EE} (hm : e.mem.wf) (hc : e.configured = false) : e.Inv :=
  ⟨hm, fun h => absurd h (ne_true_of_eq_false hc)⟩

/-- The same of FL. -/
theorem FL.inv_of_unconfigured {f : FL} (hm : f.mem.wf) (hc : f.configured = false) (c : Config) : FL.Inv c f :=
  ⟨hm, fun h => absurd h (ne_true_of_eq_false hc)⟩

/-- Settles O10: both blocks are unconfigured, and every buffer, bound or offered, is the empty one. -/
theorem resetMeetsTheInvariant : Obligations.ResetMeetsTheInvariant := by
  obtain ⟨hee, -, hfl, -⟩ := resetBlocksAreUnconfigured
  exact ⟨EE.inv_of_unconfigured emptyBuffer_wf hee, FL.inv_of_unconfigured emptyBuffer_wf hfl _, emptyBuffer_wf,
    emptyBuffer_wf⟩

end Sys2Proof.Machine

/-! ## The first idle sample (R211) -/

namespace Sys2Proof.Machine

/-- A commit is due in DATA only (R114). -/
theorem EE.not_commitDue_of_standby {e : EE} (hst : e.st = .standby) : ¬e.commitDue :=
  fun ⟨hdata, _⟩ => by cases hst.symm.trans hdata

/-- With both lines high the sample is a rising edge, a Stop or a held line, and in STANDBY each of them ends in
STANDBY (R112, R116, R121). -/
theorem eeSampleAction_idle (c : Config) {e : EE} (hst : e.st = .standby) :
    ∃ e', eeSampleAction c true true e = .ok e' ∧ e'.st = .standby := by
  cases hscl : e.prevScl with
  | false => exact ⟨e, (eeSampleAction_rise c true hscl).trans (eeRisingEdge_standby c true hst), hst⟩
  | true =>
    cases hsda : e.prevSda with
    | true => exact ⟨e, eeSampleAction_hold c hscl hsda, hst⟩
    | false =>
      have hstop := eeStopCond_of_not_commitDue (EE.not_commitDue_of_standby hst)
      exact ⟨_, (eeSampleAction_stop c hscl hsda).trans hstop, eeStopCond_st hstop⟩

/-- Settles O21: the action ends in STANDBY whatever the lines were, the sample latches them high, and without DATA
there is no commit to write memory. -/
theorem idleSampleDefinesTheLines : Obligations.IdleSampleDefinesTheLines := by
  intro s we hl hst
  obtain ⟨e, hact, hstandby⟩ := eeSampleAction_idle s.config (e := eePrepared we s.ee) hst
  have hwrite : eeWrite s.config we true true s.ee = .ok (eeLatchLines true true e) :=
    eeWrite_eq_ok_iff.2 ⟨e, hact, rfl⟩
  have hno : ¬s.ee.commitsAt true true := fun ⟨_, _, _, _, hdue⟩ =>
    EE.not_commitDue_of_standby hst hdue
  have hmem := eeWrite_memory hwrite
  rw [if_neg hno] at hmem
  exact ⟨_, onEe_ok (act := eeWrite s.config we true true) hl hwrite, hstandby, rfl, rfl, hmem⟩

end Sys2Proof.Machine
